-- ==== Sys2Proof/Word.lean ====
section
/-! DEFINITION. The word types of HILL26 (spec/00_scope.md R7, R9). -/

namespace Sys2Proof

/-- A character code or a byte of the storage arrays (R29, R30). -/
abbrev Byte := BitVec 8

/-- A bus word and a command word, BUSW = 32 (R7). -/
abbrev Word := BitVec 32

/-- A matrix or vector element and RES, EW = 64 (R7), read as two's complement. -/
abbrev Elem := BitVec 64

/-- A byte offset in the 4 KiB window, AW = 12 (R7, R70). -/
abbrev Addr := BitVec 12

end Sys2Proof
end

