-- ==== Sys2Proof/Syntax.lean ====
section
/-! DEFINITION. The eighteen commands of HILL26 (spec/30_encoding.md R95, R98), one constructor per row of
spec/opcode_table.json. Operands stand in the order of the assembler syntax (R102): destination first. -/

namespace Sys2Proof

/-- A 2-bit register selector field (R90): a matrix register M0..M3 (R92), or a vector register, whose legal values are
0 and 1 (R93; checked by `Instr.wellFormed`). -/
abbrev Selector := BitVec 2

/-- A 4-bit unsigned immediate field (R94). -/
abbrev Imm := BitVec 4

inductive Instr where
  | nop
  | c2n
  | n2c
  | split (k : Imm)
  | add (rd ra rb : Selector)
  | mulm (rd ra rb : Selector)
  | mulv (rd ra rb : Selector)
  | det (ra : Selector)
  | minor (rd ra : Selector) (i j : Imm)
  | adj (rd ra : Selector)
  | trn (rd ra : Selector)
  | inv (rd ra : Selector)
  | modinv
  | minvm (rd ra : Selector)
  | encb (rd ra rb : Selector)
  | decb (rd ra rb : Selector)
  | enct (ra : Selector)
  | dect (ra : Selector)
  deriving DecidableEq, Repr

end Sys2Proof
end

