-- ==== Sys2Proof/WellFormed.lean ====
section
/-! DEFINITION. Which commands have an encoding: a vector selector is 0 or 1 (spec/30_encoding.md R93). Every value of
the other fields is legal as an encoding (R92, R94); their ranges are checked at execution. -/

namespace Sys2Proof

/-- A selector that names a vector register, V0 or V1 (R93). -/
def Selector.isVector (f : Selector) : Bool := f.toNat ≤ 1

/-- The field checks of R95 that the types of the fields do not make by themselves. -/
def Instr.wellFormed : Instr → Bool
  | .nop => true
  | .c2n => true
  | .n2c => true
  | .split _ => true
  | .add _ _ _ => true
  | .mulm _ _ _ => true
  | .mulv rd _ rb => Selector.isVector rd && Selector.isVector rb
  | .det _ => true
  | .minor _ _ _ _ => true
  | .adj _ _ => true
  | .trn _ _ => true
  | .inv _ _ => true
  | .modinv => true
  | .minvm _ _ => true
  | .encb rd _ rb => Selector.isVector rd && Selector.isVector rb
  | .decb rd _ rb => Selector.isVector rd && Selector.isVector rb
  | .enct _ => true
  | .dect _ => true

end Sys2Proof
end

