-- ==== Sys2Proof/Decode.lean ====
section
/-! DEFINITION. The command word (spec/30_encoding.md R90-R101): its fields, the opcode map, a decoder that is total on
32-bit words and rejects by name, and the encoder that assembles a command's word. -/

namespace Sys2Proof

/-! ## The fields of format F (R90) -/

/-- OPC, bits [7:0]. -/
def fieldOPC (w : Word) : BitVec 8 := w.extractLsb' 0 8
/-- RD, bits [9:8]. -/
def fieldRD (w : Word) : Selector := w.extractLsb' 8 2
/-- RA, bits [11:10]. -/
def fieldRA (w : Word) : Selector := w.extractLsb' 10 2
/-- RB, bits [13:12]. -/
def fieldRB (w : Word) : Selector := w.extractLsb' 12 2
/-- The reserved bits [15:14]. -/
def fieldReservedLow (w : Word) : BitVec 2 := w.extractLsb' 14 2
/-- I, bits [19:16]. -/
def fieldI (w : Word) : Imm := w.extractLsb' 16 4
/-- J, bits [23:20]. -/
def fieldJ (w : Word) : Imm := w.extractLsb' 20 4
/-- The reserved bits [31:24]. -/
def fieldReservedHigh (w : Word) : BitVec 8 := w.extractLsb' 24 8

/-- The word with the given fields and reserved bits 0: `00000000 JJJJ IIII 00 BB AA DD OOOOOOOO` (R90). -/
def formatF (opc : BitVec 8) (rd ra rb : Selector) (i j : Imm) : Word :=
  0#8 ++ j ++ i ++ 0#2 ++ rb ++ ra ++ rd ++ opc

/-! ## The opcode map (R98) and the field use of each command (R95) -/

inductive Opcode where
  | nop | c2n | n2c | split
  | add | mulm | mulv | det | minor | adj | trn | inv
  | modinv | minvm
  | encb | decb | enct | dect
  deriving DecidableEq, Repr

/-- The OPC column of R98. -/
def Opcode.code : Opcode → BitVec 8
  | .nop => 0x00 | .c2n => 0x01 | .n2c => 0x02 | .split => 0x03
  | .add => 0x10 | .mulm => 0x11 | .mulv => 0x12 | .det => 0x13
  | .minor => 0x14 | .adj => 0x15 | .trn => 0x16 | .inv => 0x17
  | .modinv => 0x20 | .minvm => 0x21
  | .encb => 0x30 | .decb => 0x31 | .enct => 0x32 | .dect => 0x33

def Opcode.all : List Opcode :=
  [.nop, .c2n, .n2c, .split, .add, .mulm, .mulv, .det, .minor, .adj, .trn, .inv, .modinv, .minvm,
   .encb, .decb, .enct, .dect]

/-- The command an OPC value selects; every value outside R98 selects none (R91, R99). -/
def opcodeOf (b : BitVec 8) : Option Opcode := Opcode.all.find? (fun o => o.code == b)

/-- How a command uses one field of its word (R95). -/
inductive Use where
  | zero      -- "0": the field must be zero
  | matrix    -- "M": a matrix selector
  | vector    -- "V": a vector selector
  | imm       -- "k", "i", "j": an immediate
  deriving DecidableEq, Repr

/-- One row of R95. -/
structure FieldUse where
  rd : Use
  ra : Use
  rb : Use
  i : Use
  j : Use
  deriving DecidableEq, Repr

/-- The table of R95. -/
def Opcode.uses : Opcode → FieldUse
  | .nop => ⟨.zero, .zero, .zero, .zero, .zero⟩
  | .c2n => ⟨.zero, .zero, .zero, .zero, .zero⟩
  | .n2c => ⟨.zero, .zero, .zero, .zero, .zero⟩
  | .split => ⟨.zero, .zero, .zero, .imm, .zero⟩
  | .add => ⟨.matrix, .matrix, .matrix, .zero, .zero⟩
  | .mulm => ⟨.matrix, .matrix, .matrix, .zero, .zero⟩
  | .mulv => ⟨.vector, .matrix, .vector, .zero, .zero⟩
  | .det => ⟨.zero, .matrix, .zero, .zero, .zero⟩
  | .minor => ⟨.matrix, .matrix, .zero, .imm, .imm⟩
  | .adj => ⟨.matrix, .matrix, .zero, .zero, .zero⟩
  | .trn => ⟨.matrix, .matrix, .zero, .zero, .zero⟩
  | .inv => ⟨.matrix, .matrix, .zero, .zero, .zero⟩
  | .modinv => ⟨.zero, .zero, .zero, .zero, .zero⟩
  | .minvm => ⟨.matrix, .matrix, .zero, .zero, .zero⟩
  | .encb => ⟨.vector, .matrix, .vector, .zero, .zero⟩
  | .decb => ⟨.vector, .matrix, .vector, .zero, .zero⟩
  | .enct => ⟨.zero, .matrix, .zero, .zero, .zero⟩
  | .dect => ⟨.zero, .matrix, .zero, .zero, .zero⟩

/-! ## Decoding (R97) -/

/-- Why a word is illegal (R99, in the order of R97's checks). -/
inductive Illegal where
  | reservedBits       -- a nonzero reserved bit (R96)
  | unassignedOpcode   -- an opcode not in R98
  | unusedField        -- a nonzero field that R95 marks "0"
  | vectorSelector     -- a vector selector above 1 (R93)
  deriving DecidableEq, Repr

/-- A field that R95 marks "0" holds zero. -/
def Use.zeroOk {n : Nat} (u : Use) (f : BitVec n) : Bool :=
  match u with
  | .zero => f == 0
  | .matrix => true
  | .vector => true
  | .imm => true

/-- A field that R95 marks "V" names V0 or V1. -/
def Use.vectorOk (u : Use) (f : Selector) : Bool :=
  match u with
  | .zero => true
  | .matrix => true
  | .vector => Selector.isVector f
  | .imm => true

/-- The command with the given operands; a field the command does not use is dropped. -/
def Opcode.build (o : Opcode) (rd ra rb : Selector) (i j : Imm) : Instr :=
  match o with
  | .nop => .nop
  | .c2n => .c2n
  | .n2c => .n2c
  | .split => .split i
  | .add => .add rd ra rb
  | .mulm => .mulm rd ra rb
  | .mulv => .mulv rd ra rb
  | .det => .det ra
  | .minor => .minor rd ra i j
  | .adj => .adj rd ra
  | .trn => .trn rd ra
  | .inv => .inv rd ra
  | .modinv => .modinv
  | .minvm => .minvm rd ra
  | .encb => .encb rd ra rb
  | .decb => .decb rd ra rb
  | .enct => .enct ra
  | .dect => .dect ra

/-- Every field of the word that R95 marks "0" for the command is zero. -/
def unusedFieldsZero (o : Opcode) (w : Word) : Bool :=
  o.uses.rd.zeroOk (fieldRD w) && o.uses.ra.zeroOk (fieldRA w) && o.uses.rb.zeroOk (fieldRB w) &&
    o.uses.i.zeroOk (fieldI w) && o.uses.j.zeroOk (fieldJ w)

/-- Every field of the word that R95 marks "V" for the command is 0 or 1. -/
def vectorFieldsOk (o : Opcode) (w : Word) : Bool :=
  o.uses.rd.vectorOk (fieldRD w) && o.uses.ra.vectorOk (fieldRA w) && o.uses.rb.vectorOk (fieldRB w)

/-- `Decode` of R97: every word is one command or illegal, with the reason. -/
def decode (w : Word) : Except Illegal Instr :=
  if fieldReservedLow w ≠ 0 ∨ fieldReservedHigh w ≠ 0 then .error .reservedBits
  else
    match opcodeOf (fieldOPC w) with
    | none => .error .unassignedOpcode
    | some o =>
      if !unusedFieldsZero o w then .error .unusedField
      else if !vectorFieldsOk o w then .error .vectorSelector
      else .ok (o.build (fieldRD w) (fieldRA w) (fieldRB w) (fieldI w) (fieldJ w))

/-! ## Encoding (R90, R95, R102: every omitted field is zero) -/

def Instr.opcode : Instr → Opcode
  | .nop => .nop
  | .c2n => .c2n
  | .n2c => .n2c
  | .split _ => .split
  | .add _ _ _ => .add
  | .mulm _ _ _ => .mulm
  | .mulv _ _ _ => .mulv
  | .det _ => .det
  | .minor _ _ _ _ => .minor
  | .adj _ _ => .adj
  | .trn _ _ => .trn
  | .inv _ _ => .inv
  | .modinv => .modinv
  | .minvm _ _ => .minvm
  | .encb _ _ _ => .encb
  | .decb _ _ _ => .decb
  | .enct _ => .enct
  | .dect _ => .dect

/-- The word of a command (R90, R104). -/
def encode (ins : Instr) : Word :=
  match ins with
  | .nop => formatF 0x00 0 0 0 0 0
  | .c2n => formatF 0x01 0 0 0 0 0
  | .n2c => formatF 0x02 0 0 0 0 0
  | .split k => formatF 0x03 0 0 0 k 0
  | .add rd ra rb => formatF 0x10 rd ra rb 0 0
  | .mulm rd ra rb => formatF 0x11 rd ra rb 0 0
  | .mulv rd ra rb => formatF 0x12 rd ra rb 0 0
  | .det ra => formatF 0x13 0 ra 0 0 0
  | .minor rd ra i j => formatF 0x14 rd ra 0 i j
  | .adj rd ra => formatF 0x15 rd ra 0 0 0
  | .trn rd ra => formatF 0x16 rd ra 0 0 0
  | .inv rd ra => formatF 0x17 rd ra 0 0 0
  | .modinv => formatF 0x20 0 0 0 0 0
  | .minvm rd ra => formatF 0x21 rd ra 0 0 0
  | .encb rd ra rb => formatF 0x30 rd ra rb 0 0
  | .decb rd ra rb => formatF 0x31 rd ra rb 0 0
  | .enct ra => formatF 0x32 0 ra 0 0 0
  | .dect ra => formatF 0x33 0 ra 0 0 0

/-! ## The opcode table's view of a word -/

/-- The command word of a row of spec/opcode_table.json: `nbits` bits numbered as the table numbers them, which is as R9
and R90 number them; every bit above them is 0. -/
def tableWord (nbits w : Nat) : Word := BitVec.ofNat 32 (w % 2 ^ nbits)

/-- What the decoder reads from a table word. -/
def decodeTableWord (nbits w : Nat) : Option Instr :=
  match decode (tableWord nbits w) with
  | .ok i => some i
  | .error _ => none

end Sys2Proof
end

