-- ==== Sys2Proof/Config.lean ====
section
/-! DEFINITION. What an implementation of HILL26 fixes (spec/00_scope.md R7) and the values the spec leaves open
(spec/93_implementation_defined.md U1, U3), which are constants with no body: nothing can be proved of what they are. -/

namespace Sys2Proof

/-- The two size parameters of R7. Both are stored less one, so that the legal values (N_MAX in 1..8, TEXT_MAX in
1..256) are exactly the values of the type (notes/assumptions/8.md). -/
structure Params where
  /-- N_MAX − 1. -/
  nMaxLessOne : Fin 8
  /-- TEXT_MAX − 1. -/
  textMaxLessOne : Fin 256
  deriving DecidableEq, Repr

namespace Params

/-- N_MAX, the largest matrix dimension (R7, R8). -/
def nMax (p : Params) : Nat := p.nMaxLessOne.val + 1

/-- TEXT_MAX, the capacity of IN_BUF in bytes (R7, R29). -/
def textMax (p : Params) : Nat := p.textMaxLessOne.val + 1

/-- OUT_CAP = TEXT_MAX + N_MAX − 1, the capacity of OUT_BUF in bytes (R7, R30). -/
def outCap (p : Params) : Nat := p.textMax + p.nMax - 1

/-- The default implementation of R7: N_MAX = 4, TEXT_MAX = 256. -/
def default : Params := { nMaxLessOne := 3, textMaxLessOne := 255 }

end Params

/-- FREE VALUE (U1; notes/assumptions/3.md): what the storage byte at a window offset holds after the power-on reset
numbered by the first argument, until something writes it. -/
opaque Config.powerOnByte : Nat → Nat → Byte

/-- FREE VALUE (U3; notes/assumptions/4.md): what a read of a data address returns while BUSY, in the cycle numbered by
the argument. -/
opaque Config.busyReadWord : Nat → Word

end Sys2Proof
end

