-- ==== Sys2Proof/Machine/State.lean ====
section
/-! DEFINITION. The state of HILL26 as plain data (spec/10_state.md R20-R41), the outside inputs it reads, and the reasons
a step can stop. -/

namespace Sys2Proof.Machine

/-- The error kinds a command can complete with (spec/60_exceptions.md R170, codes 1..10). ECODE 0, NONE, is the absence
of one; codes 11..15 are never produced (spec/93_implementation_defined.md U13). -/
inductive CmdError where
  | dimensionMismatch
  | notSquare
  | singularMatrix
  | singularMatrixMod
  | noModularInverse
  | invalidCharacter
  | illegalCommand
  | shapeError
  | overflow
  | lengthError
  deriving DecidableEq, Repr

/-- The engine phase (R38): IDLE, or BUSY with the cycles left before completion. STATUS.BUSY is this phase (R33). -/
inductive Phase where
  | idle
  | busy (remaining : Nat)
  deriving DecidableEq, Repr

/-- A bus transaction as the host drives it (spec/20_memory.md R60): we, addr, wdata. A read's wdata is not used. -/
structure Request where
  we : Bool
  addr : Addr
  wdata : Word
  deriving DecidableEq, Repr

/-- The block's outputs in the cycle of an ack (R60). `rdata` is `none` where the transaction returns no data (a write that
is no bus error; notes/assumptions/12.md). -/
structure Response where
  rdata : Option Word
  berr : Bool
  deriving DecidableEq, Repr

/-- One clock cycle as the outside world and the implementation's timing make it (notes/assumptions/1.md, 5.md): the pins
rst_n and req (with we, addr, wdata), and two latencies drawn for a request that is raised in this cycle: its acknowledge
comes `extraAck` + 1 cycles later (R61, R216), and a command that it starts has LAT = `extraLatency` + 1 (R215). -/
structure Cycle where
  rstN : Bool
  req : Option Request
  extraAck : Nat
  extraLatency : Nat
  deriving DecidableEq, Repr

/-- A request on the bus, not yet acknowledged (spec/20_memory.md R61): the cycles left to its acknowledge, which comes in the
last of them (spec/70_reset_and_hazards.md R216), and LAT − 1 of a command it starts (R215). -/
structure Held where
  request : Request
  remaining : Nat
  extraLatency : Nat
  deriving DecidableEq, Repr

/-- The written bytes of the storage arrays, by window offset: strictly rising offsets (`Memory.wf`, Machine/Ops.lean). A byte
that is not listed has not been written since power-on. -/
abbrev Memory := List Host.Cell

structure State where
  /-- N_MAX and TEXT_MAX (R7, R37). -/
  params : Params
  /-- Engine phase and remaining cycles (R38). -/
  phase : Phase
  /-- The latched command word (R38). -/
  cur : Word
  /-- CMD (R32). -/
  cmd : Word
  /-- STATUS.DONE (R33). -/
  done : Bool
  /-- STATUS.ERR (R33). -/
  err : Bool
  /-- STATUS.BV (R33). -/
  bv : Bool
  /-- STATUS.ECODE (R33, R170): `none` is code 0. -/
  ecode : Option CmdError
  /-- CTRL.IE (R34). -/
  ie : Bool
  /-- RES (R26). -/
  res : Elem
  /-- AUX (R26). -/
  aux : Word
  /-- SARG (R26). -/
  sarg : Word
  /-- TEXT_LEN (R27). -/
  textLen : BitVec 9
  /-- OUT_LEN (R28). -/
  outLen : BitVec 9
  /-- MDIM0..MDIM3 (R22): ROWS in bits [3:0], COLS in bits [7:4]. -/
  mdim : Vector (BitVec 8) 4
  /-- VLEN0, VLEN1 (R25). -/
  vlen : Vector (BitVec 4) 2
  /-- The elements of M0..M3 and V0..V1, IN_BUF and OUT_BUF (R22, R25, R29, R30). -/
  mem : Memory
  /-- The request driven and not yet acknowledged (R61), with the cycles left to its ack (R216). -/
  held : Option Held
  /-- ack, rdata and berr of the last cycle (R60): `none` where ack = 0. -/
  bus : Option Response
  /-- THE MODEL'S OWN: the outside's cycles still to come, the next one first. -/
  pending : List Cycle
  /-- THE MODEL'S OWN: cycles so far; indexes the free values of reads while BUSY. -/
  now : Nat
  /-- THE MODEL'S OWN: power-on resets so far; indexes the free contents of unwritten storage. -/
  epoch : Nat
  deriving DecidableEq, Repr

/-- The machine right after power-on reset (R41, R200). Nothing of the storage arrays is written; the values of the fields
that the spec gives no reset value for are those of notes/assumptions/14.md. -/
def State.reset : State where
  params := Params.default
  phase := .idle
  cur := 0
  cmd := 0
  done := false
  err := false
  bv := false
  ecode := none
  ie := false
  res := 0
  aux := 0
  sarg := 0
  textLen := 0
  outLen := 0
  mdim := #v[0, 0, 0, 0]
  vlen := #v[0, 0]
  mem := []
  held := none
  bus := none
  pending := []
  now := 0
  epoch := 0

/-- Why the machine is stuck. -/
inductive Fault where
  /-- Raised by a cycle in which the host does not drive the outstanding request unchanged, up to and with its ack cycle
  (spec/20_memory.md R61; U4: "A model that must include it goes stuck"; notes/assumptions/7.md). Safe: no claim about what follows can be proved. -/
  | handshakeBroken
  deriving DecidableEq, Repr

/-- Why the model gives no next state. -/
inductive Refusal where
  /-- Raised by `exec` for a command that has no meaning yet. No command of this model is left so. Safe. -/
  | notModelled (mnemonic : String)
  /-- Raised by a cycle with rst_n = 0 and req = 1 (spec/70_reset_and_hazards.md R200 "a host must not issue one"; U5: refuse).
  Safe: no claim about what follows can be proved. -/
  | requestDuringReset
  deriving DecidableEq, Repr

end Sys2Proof.Machine
end

