-- ==== Sys2Proof/Machine/Flags.lean ====
section
/-! DEFINITION. STATUS, CTRL and irq (spec/10_state.md R33, R34, R39, R40): how the bits are read, and the three things that
write them: a completion, a write-1-to-clear, a busy violation. -/

namespace Sys2Proof.Machine

/-- The code column of R170. -/
def CmdError.code : CmdError → BitVec 4
  | .dimensionMismatch => 1
  | .notSquare => 2
  | .singularMatrix => 3
  | .singularMatrixMod => 4
  | .noModularInverse => 5
  | .invalidCharacter => 6
  | .illegalCommand => 7
  | .shapeError => 8
  | .overflow => 9
  | .lengthError => 10

/-- ECODE: 0 on success (R170). -/
def errorCode : Option CmdError → BitVec 4
  | none => 0
  | some e => e.code

/-- STATUS.BUSY: 1 while a command is in flight (R33). -/
def Phase.isBusy : Phase → Bool
  | .idle => false
  | .busy _ => true

/-- The value of STATUS (R33): ECODE in [11:8], BV, ERR, DONE, BUSY in [3:0], the rest zero. -/
def State.statusWord (s : State) : Word :=
  0#20 ++ errorCode s.ecode ++ 0#4 ++ BitVec.ofBool s.bv ++ BitVec.ofBool s.err ++ BitVec.ofBool s.done ++
    BitVec.ofBool s.phase.isBusy

/-- The value of CTRL (R34): IE in bit 0; SRST reads 0. -/
def State.ctrlWord (s : State) : Word := 0#31 ++ BitVec.ofBool s.ie

/-- The interrupt output (R39): `CTRL.IE AND STATUS.DONE`. -/
def State.irq (s : State) : Bool := s.ie && s.done

/-- The STATUS and phase update of a completion with code `c` (R176). ERR is sticky (R178). -/
def State.complete (c : Option CmdError) (s : State) : State :=
  { s with phase := .idle, done := true, ecode := c, err := s.err || c.isSome }

/-- A host write to STATUS (R33): writing 1 clears DONE (bit 1), ERR (bit 2), BV (bit 3); every other bit is ignored. This is
also how the host acknowledges a completion or a failure (R178). -/
def State.clearStatus (v : Word) (s : State) : State :=
  { s with done := s.done && !v.getLsbD 1, err := s.err && !v.getLsbD 2, bv := s.bv && !v.getLsbD 3 }

/-- A dropped write: STATUS.BV is set and nothing else changes (R64). -/
def State.setBusyViolation (s : State) : State := { s with bv := true }

end Sys2Proof.Machine
end

