-- ==== Sys2Proof/Machine/Ops.lean ====
section
/-! DEFINITION. The shared operations over storage and registers: the byte list, byte order, the layout of the storage arrays
in the window (spec/20_memory.md R67, R68, R72, R73), the writes of registers, the end of a command (its completion is
HILL26's "trap entry", spec/60_exceptions.md R176, R177) and the resets (spec/70_reset_and_hazards.md R200, R201). -/

namespace Sys2Proof.Machine

/-! ## The list of written bytes -/

/-- The byte written at an offset, if any. -/
def Memory.read? : Memory → Nat → Option Byte
  | [], _ => none
  | (k, v) :: m, a => if k = a then some v else Memory.read? m a

/-- Store one byte, keeping the offsets strictly rising. -/
def Memory.write : Memory → Nat → Byte → Memory
  | [], a, v => [(a, v)]
  | (k, w) :: m, a, v =>
    if a < k then (a, v) :: (k, w) :: m
    else if a = k then (a, v) :: m
    else (k, w) :: Memory.write m a v

/-- Store, at each listed offset, the byte a function gives for that offset. -/
def Memory.writeMany (addrs : List Nat) (f : Nat → Byte) (m : Memory) : Memory :=
  addrs.foldl (fun m a => m.write a (f a)) m

/-- The canonical form: offsets strictly rising. An unlisted offset reads as "not written", which no entry equals. -/
abbrev Memory.wf (m : Memory) : Prop := m.Pairwise (fun x y => x.1 < y.1)

/-! ## Byte order (R67, R68): little-endian -/

/-- The unsigned value of bytes, the least significant first. -/
def leNat : List Byte → Nat
  | [] => 0
  | b :: bs => b.toNat + 256 * leNat bs

/-- Byte `k` of a value, byte 0 the least significant. -/
def byteOf {n : Nat} (v : BitVec n) (k : Nat) : Byte := v.extractLsb' (8 * k) 8

/-! ## The layout of the storage arrays (R71, R72) -/

def vecBase (j : Nat) : Nat := 0x100 + 0x40 * j
def inBase : Nat := 0x400
def outBase : Nat := 0x600
def matBase (i : Nat) : Nat := 0x800 + 0x200 * i

/-- Low word of `e[r][c]` of Mi (R72). -/
def matAddr (i r c : Nat) : Nat := matBase i + 8 * (8 * r + c)

/-- Low word of `e[k]` of Vj (R72). -/
def vecAddr (j k : Nat) : Nat := vecBase j + 8 * k

/-- Whether the byte at a window offset is storage (R73): element slots with r, c, k below N_MAX, IN_BUF bytes below TEXT_MAX,
OUT_BUF bytes below OUT_CAP. -/
def hasStorage (p : Params) (a : Nat) : Bool :=
  if 0x100 ≤ a ∧ a < 0x180 then decide (a % 0x40 / 8 < p.nMax)
  else if 0x400 ≤ a ∧ a < 0x500 then decide (a - inBase < p.textMax)
  else if 0x600 ≤ a ∧ a < 0x800 then decide (a - outBase < p.outCap)
  else if 0x800 ≤ a ∧ a < 0x1000 then decide (a % 0x200 / 64 < p.nMax) && decide (a % 64 / 8 < p.nMax)
  else false

/-- The offsets of the storage bytes of Mi, in rising order. -/
def matBytes (p : Params) (i : Nat) : List Nat :=
  (List.range p.nMax).flatMap fun r => (List.range p.nMax).flatMap fun c => (List.range 8).map fun k => matAddr i r c + k

/-- The offsets of the storage bytes of Vj, in rising order. -/
def vecBytes (p : Params) (j : Nat) : List Nat :=
  (List.range p.nMax).flatMap fun e => (List.range 8).map fun k => vecAddr j e + k

/-- The offsets of the first `n` bytes of OUT_BUF. -/
def outBytes (n : Nat) : List Nat := (List.range n).map (outBase + ·)

/-! ## Reading storage -/

/-- The value of the storage byte at an offset: the byte written there, or the free value it has had since power-on (R205; U1). -/
def State.byte (s : State) (a : Nat) : Byte := (s.mem.read? a).getD (Config.powerOnByte s.epoch a)

/-- The 64-bit element whose low word is at an offset (R68). -/
def State.elem (s : State) (a : Nat) : Elem := BitVec.ofNat 64 (leNat ((List.range 8).map fun k => s.byte (a + k)))

/-- IN[i] (R29). -/
def State.inByte (s : State) (i : Nat) : Byte := s.byte (inBase + i)

/-- OUT[i] (R30). -/
def State.outByte (s : State) (i : Nat) : Byte := s.byte (outBase + i)

/-- The bytes a bus word at an offset returns: stored bytes, and zero where there is no storage (R73). -/
def State.busByte (s : State) (a : Nat) : Byte := if hasStorage s.params a then s.byte a else 0

/-- The bus word of a storage array (R67, R73). -/
def State.busWord (s : State) (a : Nat) : Word := BitVec.ofNat 32 (leNat ((List.range 4).map fun k => s.busByte (a + k)))

/-! ## Writing storage and registers -/

/-- Store bytes (R31, R118). -/
def State.store (addrs : List Nat) (f : Nat → Byte) (s : State) : State := { s with mem := s.mem.writeMany addrs f }

/-- A bus write to a storage array: the in-capacity bytes of the word are stored, the others ignored (R73). -/
def State.storeWord (a : Nat) (v : Word) (s : State) : State :=
  s.store (((List.range 4).map (a + ·)).filter (hasStorage s.params)) (fun x => byteOf v (x - a))

def State.setRes (v : Elem) (s : State) : State := { s with res := v }
def State.setAux (v : Word) (s : State) : State := { s with aux := v }
def State.setSarg (v : Word) (s : State) : State := { s with sarg := v }
def State.setTextLen (v : BitVec 9) (s : State) : State := { s with textLen := v }
def State.setOutLen (v : BitVec 9) (s : State) : State := { s with outLen := v }
def State.setIe (v : Bool) (s : State) : State := { s with ie := v }
def State.setMdim (i : Fin 4) (v : BitVec 8) (s : State) : State := { s with mdim := s.mdim.set i v }
def State.setVlen (j : Fin 2) (v : BitVec 4) (s : State) : State := { s with vlen := s.vlen.set j v }

/-! ## The start and the end of a command -/

/-- An accepted CMD write (R32, R38): the word is latched, CMD reads it back, the engine is BUSY for LAT = `extra` + 1 cycles. -/
def State.accept (w : Word) (extra : Nat) (s : State) : State := { s with cmd := w, cur := w, phase := .busy (extra + 1) }

/-- One cycle of latency passes (R38). -/
def State.wait (remaining : Nat) (s : State) : State := { s with phase := .busy remaining }

/-- Complete a command (R172, R176): `ok t` commits, where `t` is the state with the command's writes made; an error commits
nothing. In both cases STATUS is updated and the engine is IDLE. -/
def finish (s : State) (r : Except CmdError State) : Host.Outcome State Fault Refusal :=
  match r with
  | .ok t => .next (t.complete none)
  | .error e => .next (s.complete (some e))

/-! ## Resets -/

/-- CTRL.SRST (R201 and the "soft reset" column of R41): every control, status, scalar and shape register at its reset value,
an in-flight command discarded; elements and buffers kept. -/
def State.softReset (s : State) : State :=
  { s with
    phase := .idle, cur := 0, cmd := 0, done := false, err := false, bv := false, ecode := none, ie := false,
    res := 0, aux := 0, sarg := 0, textLen := 0, outLen := 0, mdim := #v[0, 0, 0, 0], vlen := #v[0, 0] }

/-- rst_n = 0 (R200 and the "power-on reset" column of R41): as a soft reset, and the storage arrays hold new unspecified
values; the bus interface is idle. -/
def State.powerOn (s : State) : State :=
  { s.softReset with mem := [], epoch := s.epoch + 1, held := none, bus := none }

end Sys2Proof.Machine
end

