-- ==== Sys2Proof/Machine/Operands.lean ====
section
/-! DEFINITION. The operand forms: matrix and vector registers as whole values (spec/00_scope.md R12, spec/10_state.md R22-R25,
R31), the limit checks (spec/60_exceptions.md R173), the text operands, and the scalar operands. -/

namespace Sys2Proof.Machine

/-- A matrix value: a shape and its elements, exact integers (R9, R12). Elements outside the shape are never used. -/
structure Mat where
  rows : Nat
  cols : Nat
  e : Nat → Nat → Int

/-- A vector value. -/
structure Vec where
  len : Nat
  e : Nat → Int

/-! ## Selectors -/

/-- The matrix register a 2-bit field selects: all four values are legal (R92). -/
def matSel (f : BitVec 2) : Fin 4 := f.toFin

/-- The vector register a 2-bit field selects: 0 and 1 only (R93). -/
def vecSel (f : BitVec 2) : Option (Fin 2) :=
  match f.toNat with
  | 0 => some 0
  | 1 => some 1
  | _ => none

/-! ## Shapes and limit checks -/

/-- MDIMi.ROWS (R22). -/
def State.rows (s : State) (i : Fin 4) : Nat := (s.mdim[i].extractLsb' 0 4).toNat

/-- MDIMi.COLS (R22). -/
def State.cols (s : State) (i : Fin 4) : Nat := (s.mdim[i].extractLsb' 4 4).toNat

/-- VLENj.LEN (R25). -/
def State.len (s : State) (j : Fin 2) : Nat := s.vlen[j].toNat

/-- A size in 1..N_MAX (R8). -/
def sizeOk (p : Params) (n : Nat) : Bool := decide (1 ≤ n) && decide (n ≤ p.nMax)

/-- `valid(M)` (R23, R173). -/
def State.validMat (s : State) (i : Fin 4) : Bool := sizeOk s.params (s.rows i) && sizeOk s.params (s.cols i)

/-- `validv(V)` (R25, R173). -/
def State.validVec (s : State) (j : Fin 2) : Bool := sizeOk s.params (s.len j)

/-! ## Reading whole registers -/

/-- `M[i]` (R12, R23). -/
def State.mat (s : State) (i : Fin 4) : Mat :=
  { rows := s.rows i, cols := s.cols i, e := fun r c => (s.elem (matAddr i r c)).toInt }

/-- `V[j]` (R12, R25). -/
def State.vec (s : State) (j : Fin 2) : Vec :=
  { len := s.len j, e := fun k => (s.elem (vecAddr j k)).toInt }

/-- `toS32(SARG)`, the signed 32-bit operand of N2C and MODINV (R26). -/
def State.sargInt (s : State) : Int := s.sarg.toInt

/-- `IN[0..TEXT_LEN−1]` (R12, R27). -/
def State.text (s : State) : List Byte := (List.range s.textLen.toNat).map s.inByte

/-- `TEXT_LEN ≤ TEXT_MAX` (R173). -/
def State.textOk (s : State) : Bool := decide (s.textLen.toNat ≤ s.params.textMax)

/-! ## The range of results -/

/-- `fits64` (R9). -/
def fits64 (x : Int) : Bool := decide (-2 ^ 63 ≤ x) && decide (x ≤ 2 ^ 63 - 1)

/-- Every element of the matrix fits (R11). -/
def Mat.fits (X : Mat) : Bool := (List.range X.rows).all fun r => (List.range X.cols).all fun c => fits64 (X.e r c)

/-- Every element of the vector fits (R11). -/
def Vec.fits (x : Vec) : Bool := (List.range x.len).all fun k => fits64 (x.e k)

/-! ## Writing whole registers (R31) -/

/-- The element a register slot receives: the value's element inside its shape, 0 outside (R31). -/
def Mat.slot (X : Mat) (r c : Nat) : Elem := if r < X.rows ∧ c < X.cols then BitVec.ofInt 64 (X.e r c) else 0

/-- The element a vector slot receives (R31). -/
def Vec.slot (x : Vec) (k : Nat) : Elem := if k < x.len then BitVec.ofInt 64 (x.e k) else 0

/-- The byte stored at an offset inside a matrix register's window: slot row bits [8:6], column bits [5:3] (R72). -/
def Mat.byteAt (X : Mat) (a : Nat) : Byte := byteOf (X.slot (a % 0x200 / 64) (a % 64 / 8)) (a % 8)

/-- The byte stored at an offset inside a vector register's window (R72). -/
def Vec.byteAt (x : Vec) (a : Nat) : Byte := byteOf (x.slot (a % 0x40 / 8)) (a % 8)

/-- MDIM's value for a shape (R22). -/
def Mat.dims (X : Mat) : BitVec 8 := BitVec.ofNat 4 X.cols ++ BitVec.ofNat 4 X.rows

/-- `M[d] <- X` (R31): the shape, and every slot of the register. -/
def State.writeMat (d : Fin 4) (X : Mat) (s : State) : State :=
  (s.store (matBytes s.params d) X.byteAt).setMdim d X.dims

/-- `V[d] <- x` (R31). -/
def State.writeVec (d : Fin 2) (x : Vec) (s : State) : State :=
  (s.store (vecBytes s.params d) x.byteAt).setVlen d (BitVec.ofNat 4 x.len)

/-- `OUT[0..P−1] <- t; R.OUT_LEN <- P`, P the length of t (R118, R154, R155). -/
def State.writeOut (t : List Byte) (s : State) : State :=
  (s.store (outBytes t.length) (fun a => t.getD (a - outBase) 0)).setOutLen (BitVec.ofNat 9 t.length)

end Sys2Proof.Machine
end

