-- ==== Sys2Proof/Machine/Bus.lean ====
section
/-! DEFINITION. The register bus (spec/20_memory.md R60-R75): the address map, the value a read returns, what a write does, and
one whole transaction, which is one atomic step of the host (R62). -/

namespace Sys2Proof.Machine

/-! ## The address map (R71) -/

/-- What an aligned word address names. `reserved` is every address R71 marks "reserved (bus error)". -/
inductive Target where
  | id | version | param
  | cmd | status | ctrl
  | resLo | resHi | aux
  | sarg | textLen | outLen
  | mdim (i : Fin 4)
  | vlen (j : Fin 2)
  | vecWord        -- a word of V0 or V1
  | inWord         -- a word of IN_BUF
  | outWord        -- a word of OUT_BUF
  | matWord        -- a word of M0..M3
  | reserved
  deriving DecidableEq, Repr

/-- R71, by the byte offset of an aligned word. -/
def targetOf (a : Nat) : Target :=
  if a = 0x000 then .id
  else if a = 0x004 then .version
  else if a = 0x008 then .param
  else if a = 0x010 then .cmd
  else if a = 0x014 then .status
  else if a = 0x018 then .ctrl
  else if a = 0x020 then .resLo
  else if a = 0x024 then .resHi
  else if a = 0x028 then .aux
  else if a = 0x030 then .sarg
  else if a = 0x034 then .textLen
  else if a = 0x038 then .outLen
  else if a = 0x040 then .mdim 0
  else if a = 0x044 then .mdim 1
  else if a = 0x048 then .mdim 2
  else if a = 0x04C then .mdim 3
  else if a = 0x050 then .vlen 0
  else if a = 0x054 then .vlen 1
  else if 0x100 ≤ a ∧ a < 0x180 then .vecWord
  else if 0x400 ≤ a ∧ a < 0x500 then .inWord
  else if 0x600 ≤ a ∧ a < 0x800 then .outWord
  else if 0x800 ≤ a ∧ a < 0x1000 then .matWord
  else .reserved

/-! ## Reads -/

/-- ID (R35): "HILL". -/
def idWord : Word := 0x48494C4C

/-- VERSION (R36): 1.0. -/
def versionWord : Word := 0x00010000

/-- PARAM (R37): TEXT_MAX in [24:16], MODULUS in [15:8], N_MAX in [3:0]. -/
def paramWord (p : Params) : Word := 0#7 ++ BitVec.ofNat 9 p.textMax ++ 0x1A#8 ++ 0#4 ++ BitVec.ofNat 4 p.nMax

/-- The word a mapped address holds (R71 and the rule of its register). Reserved addresses hold none; 0 is never used. -/
def State.readTarget (s : State) (t : Target) (a : Nat) : Word :=
  match t with
  | .id => idWord
  | .version => versionWord
  | .param => paramWord s.params
  | .cmd => s.cmd
  | .status => s.statusWord
  | .ctrl => s.ctrlWord
  | .resLo => s.res.extractLsb' 0 32
  | .resHi => s.res.extractLsb' 32 32
  | .aux => s.aux
  | .sarg => s.sarg
  | .textLen => s.textLen.setWidth 32
  | .outLen => s.outLen.setWidth 32
  | .mdim i => s.mdim[i].setWidth 32
  | .vlen j => s.vlen[j].setWidth 32
  | .vecWord => s.busWord a
  | .inWord => s.busWord a
  | .outWord => s.busWord a
  | .matWord => s.busWord a
  | .reserved => 0

/-- The registers a read returns even while BUSY (R65). -/
def Target.readableBusy : Target → Bool
  | .id | .version | .param | .cmd | .status | .ctrl => true
  | .resLo | .resHi | .aux | .sarg | .textLen | .outLen | .mdim _ | .vlen _ => false
  | .vecWord | .inWord | .outWord | .matWord | .reserved => false

/-- What a read returns (R63, R65, R66): no read changes any state (R74).

DESIGN CHOICE (notes/assumptions/4.md): while BUSY, the read of a slot without storage, or of a data register's reserved bits,
is a draw like the rest (R65, U3: "any other mapped address"), though R73 and U15 call those bits zero. -/
def busRead (a : Addr) (s : State) : Response :=
  if a.toNat % 4 ≠ 0 then { rdata := some 0, berr := true }
  else if targetOf a.toNat = .reserved then { rdata := some 0, berr := true }
  else if s.phase.isBusy && !(targetOf a.toNat).readableBusy then
    { rdata := some (Config.busyReadWord s.now), berr := false }
  else { rdata := some (s.readTarget (targetOf a.toNat) a.toNat), berr := false }

/-! ## Writes -/

/-- The targets a write reaches even while BUSY (R64). -/
def Target.writableBusy : Target → Bool
  | .status | .ctrl => true
  | .id | .version | .param | .cmd | .resLo | .resHi | .aux | .sarg | .textLen | .outLen | .mdim _ | .vlen _ => false
  | .vecWord | .inWord | .outWord | .matWord | .reserved => false

/-- A CTRL write (R34): SRST = 1 is a soft reset, which leaves IE 0; otherwise IE is stored. -/
def State.writeCtrl (v : Word) (s : State) : State :=
  if v.getLsbD 1 then s.softReset else s.setIe (v.getLsbD 0)

/-- A write that is neither an error nor dropped (R71 and the rule of the register): read-only registers ignore it; a CMD write
is accepted (R32), with LAT = `extra` + 1 cycles to its completion. -/
def State.writeTarget (t : Target) (a : Nat) (v : Word) (extra : Nat) (s : State) : State :=
  match t with
  | .id => s
  | .version => s
  | .param => s
  | .cmd => s.accept v extra
  | .status => s.clearStatus v
  | .ctrl => s.writeCtrl v
  | .resLo => s
  | .resHi => s
  | .aux => s
  | .sarg => s.setSarg v
  | .textLen => s.setTextLen (v.setWidth 9)
  | .outLen => s
  | .mdim i => s.setMdim i (v.setWidth 8)
  | .vlen j => s.setVlen j (v.setWidth 4)
  | .vecWord => s.storeWord a v
  | .inWord => s.storeWord a v
  | .outWord => s
  | .matWord => s.storeWord a v
  | .reserved => s

/-- The state after a write (R63, R64, R66). -/
def busWriteState (a : Addr) (v : Word) (extra : Nat) (s : State) : State :=
  if a.toNat % 4 ≠ 0 then s
  else if targetOf a.toNat = .reserved then s
  else if s.phase.isBusy && !(targetOf a.toNat).writableBusy then s.setBusyViolation
  else s.writeTarget (targetOf a.toNat) a.toNat v extra

/-- The response to a write (R63, R64, R66): a bus error for a misaligned or reserved address, with rdata = 0. -/
def busWriteResponse (a : Addr) : Response :=
  if a.toNat % 4 ≠ 0 ∨ targetOf a.toNat = .reserved then { rdata := some 0, berr := true }
  else { rdata := none, berr := false }

/-! ## One transaction -/

/-- The state after a transaction (R62); `extra` is LAT − 1 of a command it starts. -/
def transactState (r : Request) (extra : Nat) (s : State) : State :=
  if r.we then busWriteState r.addr r.wdata extra s else s

/-- The response to a transaction, from the state before it (R62). -/
def transactResponse (r : Request) (s : State) : Response :=
  if r.we then busWriteResponse r.addr else busRead r.addr s

end Sys2Proof.Machine
end

