-- ==== Sys2Proof/Machine/Codec.lean ====
section
/-! DEFINITION. NOP and the Alphabet Codec: NOP, C2N, N2C (spec/40_control_codec.md R110-R115). -/

namespace Sys2Proof.Machine

/-- The pad sentinel `_` (R7, R14). -/
def padChar : Byte := 0x5F

/-- The space (R116). -/
def spaceChar : Byte := 0x20

/-- `Upper` (R111): only ASCII a-z change. -/
def upper (b : Byte) : Byte := if 0x61 ≤ b ∧ b ≤ 0x7A then b - 0x20 else b

/-- `C2Nf` (R111): 0..26, or `none` for InvalidCharacter. -/
def c2nf (b : Byte) : Option Nat :=
  let u := upper b
  if u = padChar then some 26
  else if 0x41 ≤ u ∧ u ≤ 0x5A then some ((u - 0x41).toNat % 26)
  else none

/-- `N2Cf` (R112): 26 gives the sentinel, every other integer a letter. -/
def n2cf (n : Int) : Byte := if n = 26 then padChar else BitVec.ofInt 8 (0x41 + n % 26)

/-- NOP (R110): commits nothing. -/
def execNop (s : State) : Host.Outcome State Fault Refusal := finish s (.ok s)

/-- C2N's result (R113). -/
def c2nResult (s : State) : Except CmdError Nat :=
  match c2nf (byteOf s.sarg 0) with
  | some n => .ok n
  | none => .error .invalidCharacter

/-- C2N (R113): the character SARG[7:0] to its number in RES. -/
def execC2n (s : State) : Host.Outcome State Fault Refusal :=
  finish s ((c2nResult s).map fun n => s.setRes (BitVec.ofNat 64 n))

/-- N2C (R114): the signed SARG to its character in RES, zero-extended. -/
def execN2c (s : State) : Host.Outcome State Fault Refusal :=
  finish s (.ok (s.setRes ((n2cf s.sargInt).setWidth 64)))

end Sys2Proof.Machine
end

