-- ==== Sys2Proof/Machine/Linear.lean ====
section
/-! DEFINITION. The exact integer functions of the Matrix Engine (spec/41_matrix.md R120-R125). -/

namespace Sys2Proof.Machine

/-- `f 0 + … + f (n − 1)`. -/
def sumTo : Nat → (Nat → Int) → Int
  | 0, _ => 0
  | n + 1, f => sumTo n f + f n

/-- `(-1)^n`. -/
def sign (n : Nat) : Int := if n % 2 = 0 then 1 else -1

/-- `n` with the index `d` skipped: the source index of a deletion (R120). -/
def skip (d n : Nat) : Nat := if d ≤ n then n + 1 else n

/-- `Minor(A, i, j)` (R120): row `i` and column `j` deleted. -/
def minor (A : Mat) (i j : Nat) : Mat :=
  { rows := A.rows - 1, cols := A.cols - 1, e := fun r c => A.e (skip i r) (skip j c) }

/-- The determinant of the leading n × n part of an element function, by cofactor expansion along row 0 (R121). The 0 × 0 case is
1 (spec/92_eei_decisions.md D11) and is reached by no command. -/
def detOf : Nat → (Nat → Nat → Int) → Int
  | 0, _ => 1
  | 1, a => a 0 0
  | 2, a => a 0 0 * a 1 1 - a 0 1 * a 1 0
  | n + 3, a => sumTo (n + 3) fun j => sign j * a 0 j * detOf (n + 2) (fun r c => a (skip 0 r) (skip j c))

/-- `Det(A)` (R121), for a square A. -/
def det (A : Mat) : Int := detOf A.rows A.e

/-- `Cof(A)` (R122): `[[1]]` for a 1 × 1 matrix. -/
def cof (A : Mat) : Mat :=
  { rows := A.rows, cols := A.cols,
    e := fun i j => if A.rows = 1 then 1 else sign (i + j) * det (minor A i j) }

/-- `Transpose(A)` (R124). -/
def transpose (A : Mat) : Mat := { rows := A.cols, cols := A.rows, e := fun r c => A.e c r }

/-- `Adj(A)` (R123): the transpose of the cofactor matrix. -/
def adj (A : Mat) : Mat := transpose (cof A)

/-- `MatAdd(A, B)` (R125). -/
def matAdd (A B : Mat) : Mat := { rows := A.rows, cols := A.cols, e := fun r c => A.e r c + B.e r c }

/-- `MatMul(A, B)` (R125). -/
def matMul (A B : Mat) : Mat :=
  { rows := A.rows, cols := B.cols, e := fun r c => sumTo A.cols fun t => A.e r t * B.e t c }

/-- `MatVec(A, v)` (R125). -/
def matVec (A : Mat) (v : Vec) : Vec := { len := A.rows, e := fun r => sumTo A.cols fun t => A.e r t * v.e t }

end Sys2Proof.Machine
end

