-- ==== Sys2Proof/Machine/Modular.lean ====
section
/-! DEFINITION. Modular arithmetic over Z/26Z: MODINV, MINVM (spec/42_modular.md R140-R144). -/

namespace Sys2Proof.Machine

/-- MODULUS (spec/00_scope.md R2, R7). -/
def modulus : Int := 26

/-- `ModInv26(a)` (R140): the first x in 1..25 with `(a mod 26) · x ≡ 1`; `none` is NoModularInverse. -/
def modInv26 (a : Int) : Option Nat :=
  (List.range' 1 25).find? fun x => (a % modulus * (x : Int)) % modulus == 1

/-- `ModInvMatrix26(A)` (R143): the inverse key, Det(A) mod 26 and its inverse; `none` is SingularMatrixMod. -/
def modInvMatrix26 (A : Mat) : Option (Mat × Int × Nat) :=
  let dm := det A % modulus
  if dm = 0 ∨ Int.gcd dm modulus ≠ 1 then none
  else
    match modInv26 dm with
    | none => none
    | some iv =>
      some ({ rows := (adj A).rows, cols := (adj A).cols, e := fun r c => ((iv : Int) * (adj A).e r c) % modulus }, dm, iv)

/-- MODINV's result (R142). -/
def modinvResult (s : State) : Except CmdError Nat :=
  match modInv26 s.sargInt with
  | some x => .ok x
  | none => .error .noModularInverse

/-- MODINV (R142). -/
def execModinv (s : State) : Host.Outcome State Fault Refusal :=
  finish s ((modinvResult s).map fun x => s.setRes (BitVec.ofNat 64 x))

/-- The key inverse that MINVM, DECB and DECT compute once their shape checks have passed (R143). -/
def keyInverse (A : Mat) : Except CmdError (Mat × Int × Nat) :=
  match modInvMatrix26 A with
  | some k => .ok k
  | none => .error .singularMatrixMod

/-- MINVM's result (R144). -/
def minvmResult (ra : Fin 4) (s : State) : Except CmdError (Mat × Int × Nat) :=
  if !s.validMat ra then .error .shapeError
  else if !((s.mat ra).rows == (s.mat ra).cols) then .error .notSquare
  else keyInverse (s.mat ra)

/-- MINVM Md, Ma (R144): M[RD] is the inverse key, RES its determinant mod 26, AUX the inverse of that. -/
def execMinvm (rd ra : BitVec 2) (s : State) : Host.Outcome State Fault Refusal :=
  finish s ((minvmResult (matSel ra) s).map fun k =>
    ((s.writeMat (matSel rd) k.1).setRes (BitVec.ofInt 64 k.2.1)).setAux (BitVec.ofNat 32 k.2.2))

end Sys2Proof.Machine
end

