-- ==== Sys2Proof/Machine/Splitter.lean ====
section
/-! DEFINITION. The Block Splitter: SPLIT (spec/40_control_codec.md R116-R118). -/

namespace Sys2Proof.Machine

/-- The padded length P of R116: the smallest multiple of `k` at or above `n`, and `k` for an empty text. -/
def paddedLen (n k : Nat) : Nat := if n = 0 then k else k * ((n + k - 1) / k)

/-- A space becomes the sentinel, every other byte is copied (R116). -/
def normalize (b : Byte) : Byte := if b = spaceChar then padChar else b

/-- `SplitPad` (R116): the text normalised and padded on the right with the sentinel. Its length is P. -/
def splitPad (text : List Byte) (k : Nat) : List Byte :=
  text.map normalize ++ List.replicate (paddedLen text.length k - text.length) padChar

/-- SPLIT's result (R118). -/
def splitResult (k : BitVec 4) (s : State) : Except CmdError (List Byte) :=
  if !sizeOk s.params k.toNat then .error .shapeError
  else if !s.textOk then .error .lengthError
  else .ok (splitPad s.text k.toNat)

/-- SPLIT #k (R118). -/
def execSplit (k : BitVec 4) (s : State) : Host.Outcome State Fault Refusal :=
  finish s ((splitResult k s).map fun t => s.writeOut t)

end Sys2Proof.Machine
end

