-- ==== Sys2Proof/Machine/Hill.lean ====
section
/-! DEFINITION. The Hill cipher commands ENCB, DECB, ENCT, DECT (spec/43_hill.md R150-R155). -/

namespace Sys2Proof.Machine

/-- `HillBlock(T, v)` (R150): the product, each component reduced modulo 26. -/
def hillBlock (T : Mat) (v : Vec) : Vec := { len := T.rows, e := fun r => sumTo T.cols (fun t => T.e r t * v.e t) % modulus }

/-- The codes of characters, left to right; `none` where one of them is invalid (R151). -/
def codes : List Byte → Option (List Nat)
  | [] => some []
  | b :: bs =>
    match c2nf b, codes bs with
    | some n, some ns => some (n :: ns)
    | _, _ => none

/-- A list of codes as a vector. -/
def codeVec (ns : List Nat) : Vec := { len := ns.length, e := fun k => ((ns.getD k 0 : Nat) : Int) }

/-- The characters of a transformed block (R151). -/
def letters (y : Vec) : List Byte := (List.range y.len).map fun r => n2cf (y.e r)

/-- The block loop of `HillText` (R151) over the first `n` blocks of a text: each block is coded, the key's column count is
checked, the block is transformed, and only then the next block is looked at. -/
def hillBlocks (T : Mat) : Nat → List Byte → Except CmdError (List Byte)
  | 0, _ => .ok []
  | n + 1, t =>
    match codes (t.take T.rows) with
    | none => .error .invalidCharacter
    | some v =>
      if T.cols ≠ T.rows then .error .dimensionMismatch
      else
        match hillBlocks T n (t.drop T.rows) with
        | .error e => .error e
        | .ok rest => .ok (letters (hillBlock T (codeVec v)) ++ rest)

/-- The final replacement of R151: a sentinel in the output becomes a space. -/
def unpad (b : Byte) : Byte := if b = padChar then spaceChar else b

/-- `HillText(T, s, L)` (R151), with block size `T.rows`. -/
def hillText (T : Mat) (text : List Byte) : Except CmdError (List Byte) :=
  (hillBlocks T (paddedLen text.length T.rows / T.rows) (splitPad text T.rows)).map fun o => o.map unpad

/-- ENCB's result (R152). -/
def encbResult (ra : Fin 4) (rb : Fin 2) (s : State) : Except CmdError Vec :=
  if !(s.validMat ra && s.validVec rb) then .error .shapeError
  else if !((s.mat ra).cols == (s.vec rb).len) then .error .dimensionMismatch
  else .ok (hillBlock (s.mat ra) (s.vec rb))

/-- ENCB Vd, Ma, Vb (R152); a vector selector above 1 is IllegalCommand (R93). -/
def execEncb (rd ra rb : BitVec 2) (s : State) : Host.Outcome State Fault Refusal :=
  match vecSel rd, vecSel rb with
  | some d, some b => finish s ((encbResult (matSel ra) b s).map fun y => s.writeVec d y)
  | _, _ => finish s (.error .illegalCommand)

/-- DECB's result (R153). -/
def decbResult (ra : Fin 4) (rb : Fin 2) (s : State) : Except CmdError Vec :=
  if !(s.validMat ra && s.validVec rb) then .error .shapeError
  else if !((s.mat ra).rows == (s.mat ra).cols) then .error .notSquare
  else
    match keyInverse (s.mat ra) with
    | .error e => .error e
    | .ok k =>
      if !(k.1.cols == (s.vec rb).len) then .error .dimensionMismatch
      else .ok (hillBlock k.1 (s.vec rb))

/-- DECB Vd, Ma, Vb (R153); a vector selector above 1 is IllegalCommand (R93). -/
def execDecb (rd ra rb : BitVec 2) (s : State) : Host.Outcome State Fault Refusal :=
  match vecSel rd, vecSel rb with
  | some d, some b => finish s ((decbResult (matSel ra) b s).map fun y => s.writeVec d y)
  | _, _ => finish s (.error .illegalCommand)

/-- ENCT's result (R154). -/
def enctResult (ra : Fin 4) (s : State) : Except CmdError (List Byte) :=
  if !s.validMat ra then .error .shapeError
  else if !s.textOk then .error .lengthError
  else hillText (s.mat ra) s.text

/-- ENCT Ma (R154). -/
def execEnct (ra : BitVec 2) (s : State) : Host.Outcome State Fault Refusal :=
  finish s ((enctResult (matSel ra) s).map fun o => s.writeOut o)

/-- DECT's result (R155). -/
def dectResult (ra : Fin 4) (s : State) : Except CmdError (List Byte) :=
  if !s.validMat ra then .error .shapeError
  else if !s.textOk then .error .lengthError
  else if !((s.mat ra).rows == (s.mat ra).cols) then .error .notSquare
  else
    match keyInverse (s.mat ra) with
    | .error e => .error e
    | .ok k => hillText k.1 s.text

/-- DECT Ma (R155). -/
def execDect (ra : BitVec 2) (s : State) : Host.Outcome State Fault Refusal :=
  finish s ((dectResult (matSel ra) s).map fun o => s.writeOut o)

end Sys2Proof.Machine
end

