-- ==== Sys2Proof/Machine/Matrix.lean ====
section
/-! DEFINITION. The Matrix Engine commands ADD, MULM, MULV, DET, MINOR, ADJ, TRN, INV (spec/41_matrix.md R128-R135). Each
`…Result` makes the checks of its rule in the rule's order and gives the value to commit. -/

namespace Sys2Proof.Machine

/-- ADD's result (R128). -/
def addResult (ra rb : Fin 4) (s : State) : Except CmdError Mat :=
  if !(s.validMat ra && s.validMat rb) then .error .shapeError
  else if !((s.mat ra).rows == (s.mat rb).rows && (s.mat ra).cols == (s.mat rb).cols) then .error .dimensionMismatch
  else if !(matAdd (s.mat ra) (s.mat rb)).fits then .error .overflow
  else .ok (matAdd (s.mat ra) (s.mat rb))

/-- ADD Md, Ma, Mb (R128). -/
def execAdd (rd ra rb : BitVec 2) (s : State) : Host.Outcome State Fault Refusal :=
  finish s ((addResult (matSel ra) (matSel rb) s).map fun X => s.writeMat (matSel rd) X)

/-- MULM's result (R129). -/
def mulmResult (ra rb : Fin 4) (s : State) : Except CmdError Mat :=
  if !(s.validMat ra && s.validMat rb) then .error .shapeError
  else if !((s.mat ra).cols == (s.mat rb).rows) then .error .dimensionMismatch
  else if !(matMul (s.mat ra) (s.mat rb)).fits then .error .overflow
  else .ok (matMul (s.mat ra) (s.mat rb))

/-- MULM Md, Ma, Mb (R129). -/
def execMulm (rd ra rb : BitVec 2) (s : State) : Host.Outcome State Fault Refusal :=
  finish s ((mulmResult (matSel ra) (matSel rb) s).map fun X => s.writeMat (matSel rd) X)

/-- MULV's result (R130). -/
def mulvResult (ra : Fin 4) (rb : Fin 2) (s : State) : Except CmdError Vec :=
  if !(s.validMat ra && s.validVec rb) then .error .shapeError
  else if !((s.mat ra).cols == (s.vec rb).len) then .error .dimensionMismatch
  else if !(matVec (s.mat ra) (s.vec rb)).fits then .error .overflow
  else .ok (matVec (s.mat ra) (s.vec rb))

/-- MULV Vd, Ma, Vb (R130); a vector selector above 1 is IllegalCommand (R93). -/
def execMulv (rd ra rb : BitVec 2) (s : State) : Host.Outcome State Fault Refusal :=
  match vecSel rd, vecSel rb with
  | some d, some b => finish s ((mulvResult (matSel ra) b s).map fun x => s.writeVec d x)
  | _, _ => finish s (.error .illegalCommand)

/-- DET's result (R131). -/
def detResult (ra : Fin 4) (s : State) : Except CmdError Int :=
  if !s.validMat ra then .error .shapeError
  else if !((s.mat ra).rows == (s.mat ra).cols) then .error .notSquare
  else if !fits64 (det (s.mat ra)) then .error .overflow
  else .ok (det (s.mat ra))

/-- DET Ma (R131). -/
def execDet (ra : BitVec 2) (s : State) : Host.Outcome State Fault Refusal :=
  finish s ((detResult (matSel ra) s).map fun d => s.setRes (BitVec.ofInt 64 d))

/-- MINOR's result (R132). -/
def minorResult (ra : Fin 4) (i j : Nat) (s : State) : Except CmdError Mat :=
  if !s.validMat ra then .error .shapeError
  else if !(decide (2 ≤ (s.mat ra).rows) && decide (2 ≤ (s.mat ra).cols) && decide (i < (s.mat ra).rows) &&
      decide (j < (s.mat ra).cols)) then .error .shapeError
  else .ok (minor (s.mat ra) i j)

/-- MINOR Md, Ma, #i, #j (R132). -/
def execMinor (rd ra : BitVec 2) (i j : BitVec 4) (s : State) : Host.Outcome State Fault Refusal :=
  finish s ((minorResult (matSel ra) i.toNat j.toNat s).map fun X => s.writeMat (matSel rd) X)

/-- ADJ's result (R133). -/
def adjResult (ra : Fin 4) (s : State) : Except CmdError Mat :=
  if !s.validMat ra then .error .shapeError
  else if !((s.mat ra).rows == (s.mat ra).cols) then .error .notSquare
  else if !(adj (s.mat ra)).fits then .error .overflow
  else .ok (adj (s.mat ra))

/-- ADJ Md, Ma (R133). -/
def execAdj (rd ra : BitVec 2) (s : State) : Host.Outcome State Fault Refusal :=
  finish s ((adjResult (matSel ra) s).map fun X => s.writeMat (matSel rd) X)

/-- TRN's result (R134). -/
def trnResult (ra : Fin 4) (s : State) : Except CmdError Mat :=
  if !s.validMat ra then .error .shapeError
  else .ok (transpose (s.mat ra))

/-- TRN Md, Ma (R134). -/
def execTrn (rd ra : BitVec 2) (s : State) : Host.Outcome State Fault Refusal :=
  finish s ((trnResult (matSel ra) s).map fun X => s.writeMat (matSel rd) X)

/-- INV's result (R135): the numerators Adj(A) and the common denominator Det(A). -/
def invResult (ra : Fin 4) (s : State) : Except CmdError (Mat × Int) :=
  if !s.validMat ra then .error .shapeError
  else if !((s.mat ra).rows == (s.mat ra).cols) then .error .notSquare
  else if det (s.mat ra) == 0 then .error .singularMatrix
  else if !(fits64 (det (s.mat ra)) && (adj (s.mat ra)).fits) then .error .overflow
  else .ok (adj (s.mat ra), det (s.mat ra))

/-- INV Md, Ma (R135). -/
def execInv (rd ra : BitVec 2) (s : State) : Host.Outcome State Fault Refusal :=
  finish s ((invResult (matSel ra) s).map fun p => (s.writeMat (matSel rd) p.1).setRes (BitVec.ofInt 64 p.2))

end Sys2Proof.Machine
end

