-- ==== Sys2Proof/Machine/Dispatch.lean ====
section
/-! DEFINITION. The meaning of a command is the engine's completion step of it (spec/10_state.md R38; spec/60_exceptions.md
R176): one arm per command. -/

namespace Sys2Proof.Machine

def exec (i : Instr) (s : State) : Host.Outcome State Fault Refusal :=
  match i with
  | .nop => Sys2Proof.Machine.execNop s
  | .c2n => Sys2Proof.Machine.execC2n s
  | .n2c => Sys2Proof.Machine.execN2c s
  | .split k => Sys2Proof.Machine.execSplit k s
  | .add rd ra rb => Sys2Proof.Machine.execAdd rd ra rb s
  | .mulm rd ra rb => Sys2Proof.Machine.execMulm rd ra rb s
  | .mulv rd ra rb => Sys2Proof.Machine.execMulv rd ra rb s
  | .det ra => Sys2Proof.Machine.execDet ra s
  | .minor rd ra r c => Sys2Proof.Machine.execMinor rd ra r c s
  | .adj rd ra => Sys2Proof.Machine.execAdj rd ra s
  | .trn rd ra => Sys2Proof.Machine.execTrn rd ra s
  | .inv rd ra => Sys2Proof.Machine.execInv rd ra s
  | .modinv => Sys2Proof.Machine.execModinv s
  | .minvm rd ra => Sys2Proof.Machine.execMinvm rd ra s
  | .encb rd ra rb => Sys2Proof.Machine.execEncb rd ra rb s
  | .decb rd ra rb => Sys2Proof.Machine.execDecb rd ra rb s
  | .enct ra => Sys2Proof.Machine.execEnct ra s
  | .dect ra => Sys2Proof.Machine.execDect ra s

end Sys2Proof.Machine
end

