-- ==== Sys2Proof/Machine/Engine.lean ====
section
/-! DEFINITION. One clock cycle: the host's side of it (spec/20_memory.md R60-R62, spec/70_reset_and_hazards.md R200), then the
engine's (spec/10_state.md R38, spec/60_exceptions.md R176). -/

namespace Sys2Proof.Machine

/-- The next cycle of the outside world. Where the list has run out, the pins stay as they are: rst_n high, the outstanding
request, if any, still driven until its ack, and no other raised (notes/assumptions/10.md). -/
def State.nextCycle (s : State) : Cycle :=
  match s.pending with
  | c :: _ => c
  | [] => { rstN := true, req := s.held.map Held.request, extraAck := 0, extraLatency := 0 }

/-- A cycle begins: its inputs are taken, the cycle is counted, and no ack is given yet. -/
def State.begin (s : State) : State := { s with pending := s.pending.tail, now := s.now + 1, bus := none }

/-- A request is driven and waits for its ack (R61). -/
def State.hold (h : Held) (s : State) : State := { s with held := some h }

/-- A request raised in a cycle: its ack comes one cycle later or more, as that cycle draws (R61, R216). That it never comes in the
raising cycle itself is DEDUCED (notes/assumptions/6.md). -/
def Cycle.raise (c : Cycle) (r : Request) : Held := ⟨r, c.extraAck + 1, c.extraLatency⟩

/-- One cycle of the wait for the ack. -/
def Held.wait (h : Held) : Held := { h with remaining := h.remaining - 1 }

/-- The ack of a request: the transaction takes effect and its response is on the outputs (R60-R62). -/
def State.acknowledge (r : Request) (extra : Nat) (s : State) : State :=
  { transactState r extra s with held := none, bus := some (transactResponse r s) }

/-- The bus side of a cycle with rst_n = 1 (R61). A request is acknowledged once, in the last of its cycles, one or more after it
was raised and whatever the engine does (R216). Until then the host holds it unchanged, and a host that does not breaks the
protocol.

DESIGN CHOICE (notes/assumptions/7.md): it is held in the ack cycle too. R61 says "until the cycle in which the block raises
ack" and leaves that cycle itself open. -/
def busCycle (c : Cycle) (s : State) : Except Fault State :=
  match s.held, c.req with
  | none, none => .ok s
  | none, some r => .ok (s.hold (c.raise r))
  | some _, none => .error .handshakeBroken
  | some h, some r =>
    if h.request ≠ r then .error .handshakeBroken
    else if h.remaining ≤ 1 then .ok (s.acknowledge h.request h.extraLatency)
    else .ok (s.hold h.wait)

/-- The completion of the latched command (R176): the decoded command's own effect, or IllegalCommand for a word that decodes
to none (R97, R99, R100). -/
def completeCurrent (s : State) : Host.Outcome State Fault Refusal :=
  match decode s.cur with
  | .ok i => exec i s
  | .error _ => finish s (.error .illegalCommand)

/-- The engine side of a cycle, after the bus side (R62). `before` is the phase the cycle began in: a command accepted in this
very cycle does not count it, and a command that a soft reset has discarded does not complete (R202). -/
def engineCycle (before : Phase) (s : State) : Host.Outcome State Fault Refusal :=
  match before, s.phase with
  | .busy remaining, .busy _ => if remaining ≤ 1 then completeCurrent s else .next (s.wait (remaining - 1))
  | .busy _, .idle => .next s
  | .idle, _ => .next s

/-- One clock cycle with the given inputs, from a state in which it has begun. -/
def clockCycle (c : Cycle) (s : State) : Host.Outcome State Fault Refusal :=
  if !c.rstN then
    if c.req.isSome then .refused .requestDuringReset else .next s.powerOn
  else
    match busCycle c s with
    | .error f => .fault f
    | .ok t => engineCycle s.phase t

/-- The state with a command latched that completes in the next cycle, and no other input in the way. -/
def State.latch (w : Word) (s : State) : State :=
  { s with cmd := w, cur := w, phase := .busy 1, pending := [], held := none }

end Sys2Proof.Machine
end

