-- ==== Sys2Proof/Machine/Step.lean ====
section
/-! DEFINITION. One step of HILL26 is one clock cycle (spec/20_memory.md R62): the host's transaction, then the engine. -/

namespace Sys2Proof.Machine

def step (s : State) : Host.Outcome State Fault Refusal := clockCycle s.nextCycle s.begin

/-- The state in which the very next step completes the command of a table word: the word is latched as by an accepted CMD write
whose latency has run out (notes/assumptions/2.md). -/
def State.withFetchWord (s : State) (nbits w : Nat) : State := s.latch (tableWord nbits w)

end Sys2Proof.Machine
end

