-- ==== Sys2Proof/Safety.lean ====
section
/-! DEFINITION. The terms claims are stated in: the state invariant, the host's side of the bus protocol, how a command ends, and
what it leaves unchanged. -/

namespace Sys2Proof.Machine

/-! ## Safe states and safe runs -/

/-- Every listed byte is storage (spec/20_memory.md R73): nothing is ever stored where the implementation has none. -/
abbrev State.storageOnly (s : State) : Prop := ∀ c ∈ s.mem, hasStorage s.params c.1 = true

/-- A command in flight has at least one cycle left (spec/10_state.md R38; spec/70_reset_and_hazards.md R215). -/
abbrev Phase.live : Phase → Prop
  | .idle => True
  | .busy remaining => 1 ≤ remaining

/-- An outstanding request has at least one cycle left (spec/20_memory.md R61; spec/70_reset_and_hazards.md R216). -/
abbrev State.heldLive (s : State) : Prop := ∀ h : Held, s.held = some h → 1 ≤ h.remaining

/-- The invariant: storage in canonical form and only where it exists (R73), the latched command is what CMD reads (R32, R38), a
command in flight and an outstanding request are live (R215, R216), and OUT_LEN is within OUT_BUF (R28, R30). -/
structure State.Inv (s : State) : Prop where
  memSorted : Memory.wf s.mem
  memStorage : s.storageOnly
  curIsCmd : s.cur = s.cmd
  live : s.phase.live
  heldLive : s.heldLive
  outLenFits : s.outLen.toNat ≤ s.params.outCap

/-- The host keeps the protocol from a state with the given outstanding request on: it holds a request unchanged up to its ack
(spec/20_memory.md R61) and drives none while rst_n = 0 (spec/70_reset_and_hazards.md R200). -/
def legalCycles : Option Held → List Cycle → Bool
  | _, [] => true
  | held, c :: cs =>
    if !c.rstN then c.req.isNone && legalCycles none cs
    else
      match held, c.req with
      | none, none => legalCycles none cs
      | none, some r => legalCycles (some (c.raise r)) cs
      | some _, none => false
      | some h, some r => decide (h.request = r) && legalCycles (if h.remaining ≤ 1 then none else some h.wait) cs

/-- The inputs still to come keep the protocol. -/
def State.hostLegal (s : State) : Bool := legalCycles s.held s.pending

/-- No input for the next `n` cycles: no request outstanding or raised, rst_n high. -/
def State.quiet (s : State) (n : Nat) : Prop :=
  s.held = none ∧ ∀ c ∈ s.pending.take n, c.rstN = true ∧ c.req = none

/-! ## How a command ends -/

/-- A success (spec/60_exceptions.md R176 with c = 0): IDLE, DONE set, ECODE 0, ERR and BV as they were. -/
structure Succeeded (s t : State) : Prop where
  idle : t.phase = .idle
  done : t.done = true
  ecode : t.ecode = none
  err : t.err = s.err
  bv : t.bv = s.bv

/-- The state after a failure with error `e` (R172, R175, R176): STATUS alone changes. -/
def failed (e : CmdError) (s : State) : State := { s with phase := .idle, done := true, ecode := some e, err := true }

/-- What no command writes: the parameters, the latched word and CMD, CTRL, SARG, TEXT_LEN, the bus interface, and the model's own
fields. -/
structure KeepsHostSide (s t : State) : Prop where
  params : t.params = s.params
  cur : t.cur = s.cur
  cmd : t.cmd = s.cmd
  ie : t.ie = s.ie
  sarg : t.sarg = s.sarg
  textLen : t.textLen = s.textLen
  held : t.held = s.held
  bus : t.bus = s.bus
  pending : t.pending = s.pending
  now : t.now = s.now
  epoch : t.epoch = s.epoch

/-- The range of an int64 (spec/00_scope.md R9). -/
abbrev Fits64 (x : Int) : Prop := -2 ^ 63 ≤ x ∧ x ≤ 2 ^ 63 - 1

/-- Every byte of the window's storage outside the given offsets reads as before. -/
def KeepsBytesOutside (stored : List Nat) (s t : State) : Prop := ∀ a, a ∉ stored → t.byte a = s.byte a

/-- The frame of a command whose destination is the matrix register `d`, but for RES and AUX, which INV and MINVM write. -/
structure MatrixFrame (s t : State) (d : Fin 4) : Prop where
  hostSide : KeepsHostSide s t
  otherShapes : ∀ i : Fin 4, i ≠ d → t.mdim[i] = s.mdim[i]
  vlen : t.vlen = s.vlen
  outLen : t.outLen = s.outLen
  bytes : KeepsBytesOutside (matBytes s.params d) s t

/-- The frame of a command whose destination is the vector register `d`. -/
structure VectorFrame (s t : State) (d : Fin 2) : Prop where
  hostSide : KeepsHostSide s t
  mdim : t.mdim = s.mdim
  otherLens : ∀ j : Fin 2, j ≠ d → t.vlen[j] = s.vlen[j]
  res : t.res = s.res
  aux : t.aux = s.aux
  outLen : t.outLen = s.outLen
  bytes : KeepsBytesOutside (vecBytes s.params d) s t

/-- The frame of a command whose only destination is RES: no byte of storage is stored to. -/
structure ScalarFrame (s t : State) : Prop where
  hostSide : KeepsHostSide s t
  mdim : t.mdim = s.mdim
  vlen : t.vlen = s.vlen
  aux : t.aux = s.aux
  outLen : t.outLen = s.outLen
  bytes : KeepsBytesOutside [] s t

/-- The frame of a command whose destination is `OUT[0..n−1]` and OUT_LEN. -/
structure TextFrame (s t : State) (n : Nat) : Prop where
  hostSide : KeepsHostSide s t
  mdim : t.mdim = s.mdim
  vlen : t.vlen = s.vlen
  res : t.res = s.res
  aux : t.aux = s.aux
  bytes : KeepsBytesOutside (outBytes n) s t

/-! ## Register values -/

/-- `valid(M)` (R23, R173), read from MDIM. -/
abbrev ShapeValid (s : State) (i : Fin 4) : Prop :=
  (1 ≤ s.rows i ∧ s.rows i ≤ s.params.nMax) ∧ (1 ≤ s.cols i ∧ s.cols i ≤ s.params.nMax)

/-- `validv(V)` (R25, R173). -/
abbrev LenValid (s : State) (j : Fin 2) : Prop := 1 ≤ s.len j ∧ s.len j ≤ s.params.nMax

/-- A valid square matrix register. -/
abbrev SquareValid (s : State) (i : Fin 4) : Prop := ShapeValid s i ∧ s.rows i = s.cols i

/-- Two states hold the same data: the elements inside the shape of every valid matrix and vector register (spec/10_state.md R23,
R25) and the text of a legal length (R27, R29) agree. Nothing is said of any other byte. -/
structure SameData (s u : State) : Prop where
  mats : ∀ (i : Fin 4) (r c : Nat), ShapeValid s i → r < s.rows i → c < s.cols i → (u.mat i).e r c = (s.mat i).e r c
  vecs : ∀ (j : Fin 2) (k : Nat), LenValid s j → k < s.len j → (u.vec j).e k = (s.vec j).e k
  text : ∀ k : Nat, s.textLen.toNat ≤ s.params.textMax → k < s.textLen.toNat → u.inByte k = s.inByte k

/-- Mi holds a `rows` × `cols` matrix with the given elements, and 0 in every other slot (R31). -/
def MatrixHolds (t : State) (i : Fin 4) (rows cols : Nat) (f : Nat → Nat → Int) : Prop :=
  t.rows i = rows ∧ t.cols i = cols ∧
    ∀ r < t.params.nMax, ∀ c < t.params.nMax, (t.mat i).e r c = if r < rows ∧ c < cols then f r c else 0

/-- Vj holds a vector of the given length and elements, and 0 in every other slot (R31). -/
def VectorHolds (t : State) (j : Fin 2) (len : Nat) (f : Nat → Int) : Prop :=
  t.len j = len ∧ ∀ k < t.params.nMax, (t.vec j).e k = if k < len then f k else 0

/-- OUT_BUF holds a text in its first `n` bytes, and OUT_LEN is `n` (R28, R30). -/
def OutHolds (t : State) (n : Nat) (f : Nat → Byte) : Prop := t.outLen.toNat = n ∧ ∀ i < n, t.outByte i = f i

/-- A key whose determinant has an inverse modulo 26 (spec/43_hill.md R157). -/
abbrev KeyInvertible (A : Mat) : Prop := Int.gcd (det A % 26) 26 = 1

/-- A text byte the codec accepts after normalisation: a letter of either case, a space or the sentinel (spec/43_hill.md R156). -/
abbrev CipherByte (b : Byte) : Prop :=
  (0x41 ≤ b ∧ b ≤ 0x5A) ∨ (0x61 ≤ b ∧ b ≤ 0x7A) ∨ b = 0x20 ∨ b = 0x5F

/-- The code of such a byte: 0..25 for a letter of either case, 26 for a space or the sentinel (spec/40_control_codec.md R111,
R116). -/
def cipherCode (b : Byte) : Int :=
  if 0x41 ≤ b ∧ b ≤ 0x5A then (b.toNat : Int) - 0x41
  else if 0x61 ≤ b ∧ b ≤ 0x7A then (b.toNat : Int) - 0x61
  else 26

/-- The code at position `i` of a text of length `n` after padding: 26 from `n` on (R116). -/
def codeAt (n : Nat) (text : Nat → Byte) (i : Nat) : Int := if i < n then cipherCode (text i) else 26

/-- The byte at position `i` of the text `HillText` gives for a square key with `k` rows and the given elements (R150, R151): row
`i mod k` of the key times the block that holds position `i`, reduced modulo 26, as a letter. -/
def hillByte (k : Nat) (key : Nat → Nat → Int) (n : Nat) (text : Nat → Byte) (i : Nat) : Byte :=
  BitVec.ofInt 8 (0x41 + (∑ q ∈ Finset.range k, key (i % k) q * codeAt n text (i / k * k + q)) % 26)

/-- The element of `ModInvMatrix26(A)` for the inverse `iv` of the determinant (spec/42_modular.md R143). -/
def inverseEntry (A : Mat) (iv : Int) (r c : Nat) : Int := (iv * (adj A).e r c) % 26

end Sys2Proof.Machine
end

