-- ==== Sys2Proof/Certificates/Slice0/Obligations.lean ====
section
/-! DEFINITION. The statements about HILL26, one for each rule of spec/ named in its docstring. Each command has one statement of
its whole rule: its word, every failing check in the rule's order, and its result with its frame. -/

open Sys2Proof Sys2Proof.Machine

/-! ## Encoding -/

/-- Decode and encode agree (R90, R95, R97): no bit of a well-formed command's encoding is dropped. -/
def Obligations.DecodeOfEncodeIsTheCommand : Prop :=
  ∀ i : Instr, i.wellFormed = true → decode (encode i) = .ok i

/-- A word has one meaning (R97): what decodes to a command is that command's word, and the command is well formed. -/
def Obligations.EncodeOfDecodeIsTheWord : Prop :=
  ∀ (w : Word) (i : Instr), decode w = .ok i → encode i = w ∧ i.wellFormed = true

/-- The legal words are those a row of spec/opcode_table.json matches (mask, match), and every other word is illegal (U14, R99). -/
def Obligations.LegalWordsAreTheTablesRows : Prop :=
  ∀ w : Word, (∃ i, decode w = .ok i) ↔
    (w &&& 0xFFFFFFFF#32 = 0x00#32 ∨ w &&& 0xFFFFFFFF#32 = 0x01#32 ∨ w &&& 0xFFFFFFFF#32 = 0x02#32 ∨
      w &&& 0xFFF0FFFF#32 = 0x03#32 ∨ w &&& 0xFFFFC0FF#32 = 0x10#32 ∨ w &&& 0xFFFFC0FF#32 = 0x11#32 ∨
      w &&& 0xFFFFE2FF#32 = 0x12#32 ∨ w &&& 0xFFFFF3FF#32 = 0x13#32 ∨ w &&& 0xFF00F0FF#32 = 0x14#32 ∨
      w &&& 0xFFFFF0FF#32 = 0x15#32 ∨ w &&& 0xFFFFF0FF#32 = 0x16#32 ∨ w &&& 0xFFFFF0FF#32 = 0x17#32 ∨
      w &&& 0xFFFFFFFF#32 = 0x20#32 ∨ w &&& 0xFFFFF0FF#32 = 0x21#32 ∨ w &&& 0xFFFFE2FF#32 = 0x30#32 ∨
      w &&& 0xFFFFE2FF#32 = 0x31#32 ∨ w &&& 0xFFFFF3FF#32 = 0x32#32 ∨ w &&& 0xFFFFF3FF#32 = 0x33#32)

/-- The worked encodings and the illegal examples of R104. -/
def Obligations.WorkedEncodingsDecode : Prop :=
  decode 0x00000000 = .ok .nop ∧ decode 0x00020003 = .ok (.split 2) ∧ decode 0x00001210 = .ok (.add 2 0 1) ∧
    decode 0x00000112 = .ok (.mulv 1 0 0) ∧ decode 0x00000013 = .ok (.det 0) ∧
    decode 0x00210114 = .ok (.minor 1 0 1 2) ∧ decode 0x00000B17 = .ok (.inv 3 2) ∧
    decode 0x00000121 = .ok (.minvm 1 0) ∧ decode 0x00000130 = .ok (.encb 1 0 0) ∧
    decode 0x00001031 = .ok (.decb 0 0 1) ∧ decode 0x00000032 = .ok (.enct 0) ∧ decode 0x00000033 = .ok (.dect 0) ∧
    decode 0x00000004 = .error .unassignedOpcode ∧ decode 0x00000213 = .error .unusedField ∧
    decode 0x00000230 = .error .vectorSelector ∧ decode 0x01000000 = .error .reservedBits

/-! ## The step -/

/-- A step runs the decoded command. In a cycle in which the command's latency runs out, after the bus side of the cycle, if the
latched word decodes to a command and no soft reset has discarded it, the step is that command's completion. -/
def Obligations.StepRunsTheDecodedCommand : Prop :=
  ∀ (s t : State) (remaining : Nat) (i : Instr),
    s.nextCycle.rstN = true → s.phase = .busy remaining → remaining ≤ 1 →
    busCycle s.nextCycle s.begin = .ok t → t.phase ≠ .idle → decode t.cur = .ok i →
    step s = exec i t

/-- A word placed by `withFetchWord` is the command the very next step runs (the model's choice, notes/assumptions/2.md). -/
def Obligations.PlacedWordIsRunNext : Prop :=
  ∀ (s : State) (w : Word) (i : Instr), decode w = .ok i →
    step (s.withFetchWord 32 w.toNat) = exec i (s.latch w).begin

/-- An illegal word (R99): it is accepted like any other, and completes with ECODE 7 and no other effect than DONE and ERR. -/
def Obligations.IllegalWordCompletesWithCodeSeven : Prop :=
  ∀ (s : State) (w : Word) (reason : Illegal), decode w = .error reason →
    (∀ extra, s.phase = .idle →
      (transactState { we := true, addr := 0x010, wdata := w } extra s).phase = .busy (extra + 1)) ∧
    (s.cur = w → s.phase = .busy 1 → s.nextCycle.rstN = true → s.nextCycle.req = none → s.held = none →
      step s = .next (failed .illegalCommand s.begin) ∧ errorCode (failed .illegalCommand s.begin).ecode = 7)

/-- Acceptance and readback of CMD (R32): a write while IDLE latches the word, makes CMD read it and the engine BUSY; a write
while BUSY leaves CMD and sets BV; nothing else changes. Apart from reset, nothing else rewrites CMD: no command, and no other
transaction but the soft reset. -/
def Obligations.CmdWriteIsAcceptedWhenIdleOnly : Prop :=
  ∀ (s : State) (w : Word) (extra : Nat),
    (s.phase = .idle →
      transactState { we := true, addr := 0x010, wdata := w } extra s =
        { s with cmd := w, cur := w, phase := .busy (extra + 1) } ∧
      busRead 0x010 (transactState { we := true, addr := 0x010, wdata := w } extra s) = { rdata := some w, berr := false }) ∧
    (∀ n, s.phase = .busy n → transactState { we := true, addr := 0x010, wdata := w } extra s = { s with bv := true }) ∧
    (∀ i t, exec i s = .next t → t.cmd = s.cmd) ∧
    (∀ r : Request, r.addr ≠ 0x010 → ¬ (r.we = true ∧ r.addr = 0x018 ∧ r.wdata.getLsbD 1 = true) →
      (transactState r extra s).cmd = s.cmd)

/-- Writes while BUSY (R64): a write to a mapped address other than STATUS and CTRL is dropped, sets BV, and is no bus error. -/
def Obligations.WritesWhileBusyAreDropped : Prop :=
  ∀ (s : State) (a : Addr) (v : Word) (extra n : Nat), s.phase = .busy n →
    a.toNat % 4 = 0 → targetOf a.toNat ≠ .reserved → a ≠ 0x014 → a ≠ 0x018 →
    transactState { we := true, addr := a, wdata := v } extra s = { s with bv := true } ∧
    (transactResponse { we := true, addr := a, wdata := v } s).berr = false

/-- Misaligned and reserved addresses (R63, R66): berr = 1, rdata = 0 and no state change, for reads and writes, IDLE or BUSY. -/
def Obligations.MisalignedOrReservedIsBusError : Prop :=
  ∀ (s : State) (r : Request) (extra : Nat),
    (r.addr.toNat % 4 ≠ 0 ∨
      (r.addr.toNat % 4 = 0 ∧
        (r.addr.toNat = 0x00C ∨ r.addr.toNat = 0x01C ∨ r.addr.toNat = 0x02C ∨ r.addr.toNat = 0x03C ∨
          (0x058 ≤ r.addr.toNat ∧ r.addr.toNat ≤ 0x0FF) ∨ (0x180 ≤ r.addr.toNat ∧ r.addr.toNat ≤ 0x3FF) ∨
          (0x500 ≤ r.addr.toNat ∧ r.addr.toNat ≤ 0x5FF)))) →
    transactState r extra s = s ∧ transactResponse r s = { rdata := some 0, berr := true }

/-- Reads of the registers while IDLE (R22, R25-R28, R32, R35-R37, R71), each at its address. -/
def Obligations.IdleReadsReturnTheRegisters : Prop :=
  ∀ s : State, s.phase = .idle →
    busRead 0x000 s = { rdata := some 0x48494C4C, berr := false } ∧
    busRead 0x004 s = { rdata := some 0x00010000, berr := false } ∧
    busRead 0x008 s =
      { rdata := some (BitVec.ofNat 32 (s.params.nMax + 0x1A00 + 0x10000 * s.params.textMax)), berr := false } ∧
    busRead 0x010 s = { rdata := some s.cmd, berr := false } ∧
    busRead 0x020 s = { rdata := some (s.res.extractLsb' 0 32), berr := false } ∧
    busRead 0x024 s = { rdata := some (s.res.extractLsb' 32 32), berr := false } ∧
    busRead 0x028 s = { rdata := some s.aux, berr := false } ∧
    busRead 0x030 s = { rdata := some s.sarg, berr := false } ∧
    busRead 0x034 s = { rdata := some (s.textLen.setWidth 32), berr := false } ∧
    busRead 0x038 s = { rdata := some (s.outLen.setWidth 32), berr := false } ∧
    (∀ i : Fin 4, busRead (BitVec.ofNat 12 (0x040 + 4 * i)) s =
      { rdata := some (BitVec.ofNat 32 (s.rows i + 16 * s.cols i)), berr := false }) ∧
    (∀ j : Fin 2, busRead (BitVec.ofNat 12 (0x050 + 4 * j)) s =
      { rdata := some (BitVec.ofNat 32 (s.len j)), berr := false })

/-- Reads of storage while IDLE (R67, R73): byte `k` of the word is the storage byte at that offset, little-endian, and zero where
there is no storage. -/
def Obligations.IdleReadsOfStorageAreLittleEndian : Prop :=
  ∀ (s : State) (a : Addr), s.phase = .idle → a.toNat % 4 = 0 →
    ((0x100 ≤ a.toNat ∧ a.toNat ≤ 0x17F) ∨ (0x400 ≤ a.toNat ∧ a.toNat ≤ 0x4FF) ∨
      (0x600 ≤ a.toNat ∧ a.toNat ≤ 0x7FF) ∨ 0x800 ≤ a.toNat) →
    ∃ w : Word, busRead a s = { rdata := some w, berr := false } ∧
      ∀ k < 4, w.extractLsb' (8 * k) 8 = if hasStorage s.params (a.toNat + k) then s.byte (a.toNat + k) else 0

/-- Reads while BUSY (R65): the six registers ID, VERSION, PARAM, CMD, STATUS, CTRL give what they give while IDLE; a read of any
other mapped address gives some word and is no bus error. No read has a side effect (R74). -/
def Obligations.BusyReadsGiveSixRegistersOnly : Prop :=
  ∀ (s : State) (n : Nat), s.phase = .busy n →
    busRead 0x000 s = { rdata := some 0x48494C4C, berr := false } ∧
    busRead 0x004 s = { rdata := some 0x00010000, berr := false } ∧
    busRead 0x008 s =
      { rdata := some (BitVec.ofNat 32 (s.params.nMax + 0x1A00 + 0x10000 * s.params.textMax)), berr := false } ∧
    busRead 0x010 s = { rdata := some s.cmd, berr := false } ∧
    busRead 0x014 s = { rdata := some s.statusWord, berr := false } ∧
    busRead 0x018 s = { rdata := some s.ctrlWord, berr := false } ∧
    (∀ a : Addr, a.toNat % 4 = 0 → targetOf a.toNat ≠ .reserved →
      (∃ w, busRead a s = { rdata := some w, berr := false }) ∧
      ∀ extra v, transactState { we := false, addr := a, wdata := v } extra s = s)

/-- STATUS (R33): the place of each bit, the codes that ECODE holds (R170), and write-1-to-clear of DONE, ERR and BV in any phase;
every other bit of the written word is ignored and no other state changes. -/
def Obligations.StatusBitsAndWriteOneToClear : Prop :=
  (errorCode none = 0 ∧ errorCode (some .dimensionMismatch) = 1 ∧ errorCode (some .notSquare) = 2 ∧
    errorCode (some .singularMatrix) = 3 ∧ errorCode (some .singularMatrixMod) = 4 ∧
    errorCode (some .noModularInverse) = 5 ∧ errorCode (some .invalidCharacter) = 6 ∧
    errorCode (some .illegalCommand) = 7 ∧ errorCode (some .shapeError) = 8 ∧ errorCode (some .overflow) = 9 ∧
    errorCode (some .lengthError) = 10) ∧
  ∀ (s : State) (v : Word) (extra : Nat),
    (busRead 0x014 s = { rdata := some s.statusWord, berr := false }) ∧
    (s.statusWord.getLsbD 0 = s.phase.isBusy ∧ s.statusWord.getLsbD 1 = s.done ∧ s.statusWord.getLsbD 2 = s.err ∧
      s.statusWord.getLsbD 3 = s.bv ∧ s.statusWord.extractLsb' 4 4 = 0 ∧
      s.statusWord.extractLsb' 8 4 = errorCode s.ecode ∧ s.statusWord.extractLsb' 12 20 = 0) ∧
    (transactState { we := true, addr := 0x014, wdata := v } extra s).statusWord = s.statusWord &&& ~~~(v &&& 0xE) ∧
    ∃ d e b, transactState { we := true, addr := 0x014, wdata := v } extra s = { s with done := d, err := e, bv := b }

/-- CTRL (R34): IE in bit 0, the rest reads zero; a write without SRST stores IE and changes nothing else, in any phase; a write
with SRST leaves IE = 0; irq is IE AND DONE. -/
def Obligations.CtrlHoldsInterruptEnable : Prop :=
  ∀ (s : State) (v : Word) (extra : Nat),
    busRead 0x018 s = { rdata := some (if s.ie then 1 else 0), berr := false } ∧
    (v.getLsbD 1 = false →
      transactState { we := true, addr := 0x018, wdata := v } extra s = { s with ie := v.getLsbD 0 }) ∧
    (v.getLsbD 1 = true →
      transactState { we := true, addr := 0x018, wdata := v } extra s = s.softReset ∧ s.softReset.ie = false) ∧
    s.irq = (s.ie && s.done)

/-- Soft reset (R201): a CTRL write with SRST = 1, in any phase, sets every control, status, scalar and shape register to its
reset value, keeps every byte of storage, and completes with berr = 0; irq is 0. -/
def Obligations.SoftResetKeepsStorage : Prop :=
  ∀ (s t : State) (v : Word) (extra : Nat), v.getLsbD 1 = true →
    t = transactState { we := true, addr := 0x018, wdata := v } extra s →
    t.phase = .idle ∧ t.cur = 0 ∧ t.cmd = 0 ∧ t.statusWord = 0 ∧ t.ie = false ∧ t.res = 0 ∧ t.aux = 0 ∧ t.sarg = 0 ∧
    t.textLen = 0 ∧ t.outLen = 0 ∧ (∀ i : Fin 4, t.mdim[i] = 0) ∧ (∀ j : Fin 2, t.vlen[j] = 0) ∧ t.irq = false ∧
    t.params = s.params ∧ KeepsBytesOutside [] s t ∧
    (transactResponse { we := true, addr := 0x018, wdata := v } s).berr = false

/-- A soft reset in the cycle in which a command would complete (R202): the command is discarded, nothing of it is committed and
DONE is not set. -/
def Obligations.SoftResetDiscardsTheCommand : Prop :=
  ∀ (s : State) (c : Cycle) (rest : List Cycle) (h : Held) (remaining : Nat),
    s.phase = .busy remaining → s.pending = c :: rest → c.rstN = true →
    s.held = some h → h.remaining ≤ 1 → c.req = some h.request →
    h.request.we = true → h.request.addr = 0x018 → h.request.wdata.getLsbD 1 = true →
    ∃ t, step s = .next t ∧ t.phase = .idle ∧ t.done = false ∧ t.ecode = none ∧ t.res = 0 ∧ t.aux = 0 ∧ t.outLen = 0 ∧
      (∀ i : Fin 4, t.mdim[i] = 0) ∧ (∀ j : Fin 2, t.vlen[j] = 0) ∧ KeepsBytesOutside [] s t

/-- Power-on reset (R200): a cycle with rst_n = 0, in any phase, leaves the power-on values; nothing is acknowledged, an in-flight
command is discarded, and no storage byte is written any more. -/
def Obligations.PowerOnResetDiscardsEverything : Prop :=
  ∀ (s : State) (c : Cycle) (rest : List Cycle),
    s.pending = c :: rest → c.rstN = false → c.req = none →
    ∃ t, step s = .next t ∧ t.phase = .idle ∧ t.cur = 0 ∧ t.cmd = 0 ∧ t.statusWord = 0 ∧ t.ie = false ∧ t.res = 0 ∧
      t.aux = 0 ∧ t.sarg = 0 ∧ t.textLen = 0 ∧ t.outLen = 0 ∧ (∀ i : Fin 4, t.mdim[i] = 0) ∧
      (∀ j : Fin 2, t.vlen[j] = 0) ∧ t.irq = false ∧ t.bus = none ∧ (∀ a, t.mem.read? a = none) ∧ t.params = s.params

/-- The state after power-on reset (R41, the values the spec gives). -/
def Obligations.ResetStateHoldsTheResetValues : Prop :=
  State.reset.phase = .idle ∧ State.reset.cur = 0 ∧ State.reset.cmd = 0 ∧ State.reset.statusWord = 0 ∧
    State.reset.ie = false ∧ State.reset.res = 0 ∧ State.reset.aux = 0 ∧ State.reset.sarg = 0 ∧
    State.reset.textLen = 0 ∧ State.reset.outLen = 0 ∧ (∀ i : Fin 4, State.reset.mdim[i] = 0) ∧
    (∀ j : Fin 2, State.reset.vlen[j] = 0) ∧ State.reset.irq = false ∧ ∀ a, State.reset.mem.read? a = none

/-- The invariant holds at reset. -/
def Obligations.ResetStateIsSafe : Prop := State.reset.Inv

/-- Every step keeps the invariant, from every state that meets it: storage stays canonical and only where it exists (R73), CMD
reads the latched command (R32, R38), a command in flight and an outstanding request are live (R215, R216), OUT_LEN is within
OUT_BUF (R30). -/
def Obligations.EveryStepKeepsTheInvariant : Prop :=
  ∀ s t : State, s.Inv → step s = .next t → t.Inv

/-- The machine never stops under a host that keeps the bus protocol, and the inputs still to come stay legal: it executes every
command, every word, every transaction and every reset. -/
def Obligations.LegalHostNeverStopsTheMachine : Prop :=
  ∀ s : State, s.hostLegal = true → ∃ t, step s = .next t ∧ t.hostLegal = true

/-- Exactly when the machine stops (R61, R200; U4, U5): it faults, with the one fault there is, where a request is changed or
withdrawn up to and with its ack cycle (notes/assumptions/7.md); it refuses, with that reason and no other, where a request is
driven while rst_n = 0. -/
def Obligations.OnlyProtocolViolationsStopTheMachine : Prop :=
  ∀ s : State,
    (step s = .fault .handshakeBroken ↔
      s.nextCycle.rstN = true ∧ ∃ h, s.held = some h ∧ s.nextCycle.req ≠ some h.request) ∧
    (step s = .refused .requestDuringReset ↔ s.nextCycle.rstN = false ∧ s.nextCycle.req ≠ none) ∧
    (∀ f, step s = .fault f → f = .handshakeBroken) ∧
    (∀ q, step s = .refused q → q = .requestDuringReset)

/-- Command latency (R215): a command accepted with LAT = n completes after exactly n quiet cycles: BUSY until then, IDLE with
DONE set after. -/
def Obligations.AcceptedCommandCompletesAfterItsLatency : Prop :=
  ∀ (s : State) (n : Nat), s.phase = .busy (n + 1) → s.quiet (n + 1) →
    (∀ k ≤ n, ∃ t, Host.Core.run Sys2Proof.core k s = .next t ∧ t.phase = .busy (n + 1 - k) ∧ t.done = s.done) ∧
    ∃ t, Host.Core.run Sys2Proof.core (n + 1) s = .next t ∧ t.phase = .idle ∧ t.done = true

/-- A transaction acknowledged in the cycle of a completion comes first (R62). Its response is that of the state before the
completion, so a STATUS read sees BUSY = 1, and the completion is that of the state the transaction leaves. So a write-1-to-clear
cannot clear the DONE that the completion sets, nor the ERR that a failing one sets (R33). The one transaction after which no
completion follows, the soft reset, has a statement of its own (R202). `b` is the state in which the cycle has begun. -/
def Obligations.TransactionComesBeforeCompletion : Prop :=
  ∀ (s b u : State) (c : Cycle) (rest : List Cycle) (h : Held),
    s.phase = .busy 1 → s.pending = c :: rest → c.rstN = true → s.held = some h → h.remaining ≤ 1 → c.req = some h.request →
    ¬ (h.request.we = true ∧ h.request.addr = 0x018 ∧ h.request.wdata.getLsbD 1 = true) →
    b = { s with pending := rest, now := s.now + 1, bus := none } → u = transactState h.request h.extraLatency b →
    (∀ i, decode s.cur = .ok i → step s = exec i { u with held := none, bus := some (transactResponse h.request b) }) ∧
    (∀ e, decode s.cur = .error e →
      step s = .next (failed .illegalCommand { u with held := none, bus := some (transactResponse h.request b) })) ∧
    ∃ t, step s = .next t ∧ t.phase = .idle ∧ t.done = true ∧ (t.ecode ≠ none → t.err = true) ∧
      (t.ecode = none → t.err = u.err) ∧ t.bv = u.bv ∧ t.ie = u.ie ∧ t.held = none ∧
      t.bus = some (transactResponse h.request b) ∧
      (h.request.we = false → h.request.addr = 0x014 →
        t.bus = some { rdata := some s.statusWord, berr := false } ∧ s.statusWord.getLsbD 0 = true)

/-- What a cycle with rst_n = 1 does (R38, R61, R62, R216), and that an acknowledged read changes no state (R74).

`b` is the state in which the cycle has begun, and `u` the state after its bus side: nothing happens, a request is raised and waits
for the ack its latency puts one cycle later or more, a wait goes on, or the ack comes and the transaction, read or write, takes
effect. The engine follows: nothing while IDLE or where the command has been discarded, a cycle of latency, or the completion. Where
the inputs have run out, an outstanding request stays driven. So a request held unchanged is acknowledged after exactly the cycles
it has left, once, whatever the engine does.

Three clauses are the model's. That a raised request is only held in its raising cycle, and not acknowledged there, is DEDUCED from
R61 and R216 (notes/assumptions/6.md). The countdown is its rendering of the latency (notes/assumptions/5.md). What the pins do where
the inputs have run out is its choice (notes/assumptions/10.md). -/
def Obligations.AcknowledgedReadChangesNoState : Prop :=
  (∀ s b u : State, s.nextCycle.rstN = true →
    b = { s with pending := s.pending.tail, now := s.now + 1, bus := none } →
    ((s.held = none ∧ s.nextCycle.req = none ∧ u = b) ∨
      (∃ r, s.held = none ∧ s.nextCycle.req = some r ∧
        u = { b with held := some ⟨r, s.nextCycle.extraAck + 1, s.nextCycle.extraLatency⟩ }) ∨
      (∃ r n x, s.held = some ⟨r, n + 2, x⟩ ∧ s.nextCycle.req = some r ∧ u = { b with held := some ⟨r, n + 1, x⟩ }) ∨
      (∃ r n x, s.held = some ⟨r, n, x⟩ ∧ n ≤ 1 ∧ s.nextCycle.req = some r ∧
        u = { transactState r x b with held := none, bus := some (transactResponse r b) })) →
    (s.phase = .idle ∨ u.phase = .idle → step s = .next u) ∧
    (∀ n, s.phase = .busy (n + 2) → u.phase ≠ .idle → step s = .next { u with phase := .busy (n + 1) }) ∧
    (∀ n, s.phase = .busy n → n ≤ 1 → u.phase ≠ .idle →
      (∀ i, decode u.cur = .ok i → step s = exec i u) ∧
      (∀ e, decode u.cur = .error e → step s = .next (failed .illegalCommand u)))) ∧
  (∀ (s : State) (c : Cycle) (rest : List Cycle), (s.pending = c :: rest → s.nextCycle = c) ∧
    (s.pending = [] → s.nextCycle.rstN = true ∧ s.nextCycle.req = s.held.map Held.request)) ∧
  (∀ (s : State) (h : Held), s.phase = .idle → s.nextCycle.rstN = true → s.held = some h → h.remaining ≤ 1 →
    s.nextCycle.req = some h.request → h.request.we = false →
    step s = .next { s with
      held := none, bus := some (busRead h.request.addr s), pending := s.pending.tail, now := s.now + 1 }) ∧
  ∀ (s : State) (r : Request) (n x : Nat), s.held = some ⟨r, n + 1, x⟩ →
    (∀ c ∈ s.pending.take (n + 1), c.rstN = true ∧ c.req = some r) →
    (∀ k, 1 ≤ k → k ≤ n →
      ∃ t, Host.Core.run Sys2Proof.core k s = .next t ∧ t.held = some ⟨r, n + 1 - k, x⟩ ∧ t.bus = none) ∧
    ∃ t, Host.Core.run Sys2Proof.core (n + 1) s = .next t ∧ t.held = none ∧ t.bus ≠ none

/-- Host writes of the registers while IDLE (R22, R25-R28, R35-R37, R71): each stores its own bits and nothing else; reserved bits
and read-only registers ignore them. -/
def Obligations.IdleRegisterWritesStoreTheirBits : Prop :=
  ∀ (s : State) (v : Word) (extra : Nat), s.phase = .idle →
    transactState { we := true, addr := 0x030, wdata := v } extra s = { s with sarg := v } ∧
    transactState { we := true, addr := 0x034, wdata := v } extra s = { s with textLen := v.extractLsb' 0 9 } ∧
    (∀ i : Fin 4, transactState { we := true, addr := BitVec.ofNat 12 (0x040 + 4 * i), wdata := v } extra s =
      { s with mdim := s.mdim.set i (v.extractLsb' 0 8) }) ∧
    (∀ j : Fin 2, transactState { we := true, addr := BitVec.ofNat 12 (0x050 + 4 * j), wdata := v } extra s =
      { s with vlen := s.vlen.set j (v.extractLsb' 0 4) }) ∧
    (∀ a : Addr, a.toNat ∈ [0x000, 0x004, 0x008, 0x020, 0x024, 0x028, 0x038] →
      transactState { we := true, addr := a, wdata := v } extra s = s)

/-- Host writes of storage while IDLE (R67, R73): the in-capacity bytes of the word are stored, little-endian, and nothing else
changes; OUT_BUF ignores writes (R30). -/
def Obligations.IdleStorageWritesStoreFourBytes : Prop :=
  ∀ (s : State) (a : Addr) (v : Word) (extra : Nat), s.phase = .idle → a.toNat % 4 = 0 →
    (((0x100 ≤ a.toNat ∧ a.toNat ≤ 0x17F) ∨ (0x400 ≤ a.toNat ∧ a.toNat ≤ 0x4FF) ∨ 0x800 ≤ a.toNat) →
      ∃ m : Memory, transactState { we := true, addr := a, wdata := v } extra s = { s with mem := m } ∧
        ∀ x, (transactState { we := true, addr := a, wdata := v } extra s).byte x =
          if (a.toNat ≤ x ∧ x < a.toNat + 4) ∧ hasStorage s.params x = true then v.extractLsb' (8 * (x - a.toNat)) 8
          else s.byte x) ∧
    ((0x600 ≤ a.toNat ∧ a.toNat ≤ 0x7FF) → transactState { we := true, addr := a, wdata := v } extra s = s)

/-- The two words of an element (R68, R72): writing them, in either order, makes the element their concatenation, the low word at
its address and the high word four bytes above; reading them gives the halves of the element; and RES has the same layout. -/
def Obligations.ElementIsItsTwoWords : Prop :=
  ∀ (s : State) (lo hi : Word) (e1 e2 : Nat), s.phase = .idle →
    (∀ (i : Fin 4) (r c : Nat), r < s.params.nMax → c < s.params.nMax →
      ((transactState { we := true, addr := BitVec.ofNat 12 (0x800 + 0x200 * i + 8 * (8 * r + c) + 4), wdata := hi } e2
        (transactState { we := true, addr := BitVec.ofNat 12 (0x800 + 0x200 * i + 8 * (8 * r + c)), wdata := lo } e1 s)).mat
          i).e r c = (hi ++ lo).toInt ∧
      ((transactState { we := true, addr := BitVec.ofNat 12 (0x800 + 0x200 * i + 8 * (8 * r + c)), wdata := lo } e2
        (transactState { we := true, addr := BitVec.ofNat 12 (0x800 + 0x200 * i + 8 * (8 * r + c) + 4), wdata := hi } e1 s)).mat
          i).e r c = (hi ++ lo).toInt) ∧
    (∀ (j : Fin 2) (k : Nat), k < s.params.nMax →
      ((transactState { we := true, addr := BitVec.ofNat 12 (0x100 + 0x40 * j + 8 * k + 4), wdata := hi } e2
        (transactState { we := true, addr := BitVec.ofNat 12 (0x100 + 0x40 * j + 8 * k), wdata := lo } e1 s)).vec j).e k =
          (hi ++ lo).toInt ∧
      ((transactState { we := true, addr := BitVec.ofNat 12 (0x100 + 0x40 * j + 8 * k), wdata := lo } e2
        (transactState { we := true, addr := BitVec.ofNat 12 (0x100 + 0x40 * j + 8 * k + 4), wdata := hi } e1 s)).vec j).e k =
          (hi ++ lo).toInt) ∧
    (∀ (i : Fin 4) (r c : Nat), r < s.params.nMax → c < s.params.nMax → ∃ l h : Word,
      busRead (BitVec.ofNat 12 (0x800 + 0x200 * i + 8 * (8 * r + c))) s = { rdata := some l, berr := false } ∧
      busRead (BitVec.ofNat 12 (0x800 + 0x200 * i + 8 * (8 * r + c) + 4)) s = { rdata := some h, berr := false } ∧
      (s.mat i).e r c = (h ++ l).toInt) ∧
    (∀ (j : Fin 2) (k : Nat), k < s.params.nMax → ∃ l h : Word,
      busRead (BitVec.ofNat 12 (0x100 + 0x40 * j + 8 * k)) s = { rdata := some l, berr := false } ∧
      busRead (BitVec.ofNat 12 (0x100 + 0x40 * j + 8 * k + 4)) s = { rdata := some h, berr := false } ∧
      (s.vec j).e k = (h ++ l).toInt) ∧
    ∃ l h : Word, busRead 0x020 s = { rdata := some l, berr := false } ∧ busRead 0x024 s = { rdata := some h, berr := false } ∧
      s.res = h ++ l

/-- Slots without storage (R73): a matrix slot with r ≥ N_MAX or c ≥ N_MAX, a vector slot with k ≥ N_MAX, an IN_BUF byte at or
above TEXT_MAX and an OUT_BUF byte at or above OUT_CAP have no storage; every other byte of those windows has. -/
def Obligations.StorageExistsBelowTheCapacities : Prop :=
  ∀ p : Params,
    (∀ (i : Fin 4) (r c k : Nat), r < 8 → c < 8 → k < 8 →
      hasStorage p (0x800 + 0x200 * i + 8 * (8 * r + c) + k) = decide (r < p.nMax ∧ c < p.nMax)) ∧
    (∀ (j : Fin 2) (e k : Nat), e < 8 → k < 8 → hasStorage p (0x100 + 0x40 * j + 8 * e + k) = decide (e < p.nMax)) ∧
    (∀ x : Nat, x < 256 → hasStorage p (0x400 + x) = decide (x < p.textMax)) ∧
    (∀ x : Nat, x < 512 → hasStorage p (0x600 + x) = decide (x < p.textMax + p.nMax - 1))

/-- irq (R39, R179): the level IE AND DONE. A completion with IE = 1 raises it; clearing DONE or IE drops it; setting IE while
DONE = 1 raises it at once. -/
def Obligations.IrqIsEnableAndDone : Prop :=
  ∀ s t : State,
    s.irq = (s.ie && s.done) ∧
    (∀ i, exec i s = .next t → t.irq = s.ie) ∧
    (∀ (v : Word) (extra : Nat), v.getLsbD 1 = true →
      (transactState { we := true, addr := 0x014, wdata := v } extra s).irq = false) ∧
    (∀ (v : Word) (extra : Nat), v.getLsbD 1 = false → v.getLsbD 0 = true →
      (transactState { we := true, addr := 0x018, wdata := v } extra s).irq = s.done)

/-! ## Control, codec and splitter commands -/

/-- NOP (R110): it makes the engine BUSY for its latency, and completes with DONE set, so with IE = 1 it raises irq, and changes
nothing else. -/
def Obligations.NopFollowsItsRule : Prop :=
  encode .nop = 0x00000000 ∧
  ∀ s : State,
    (∀ extra, s.phase = .idle →
      (transactState { we := true, addr := 0x010, wdata := encode .nop } extra s).phase = .busy (extra + 1)) ∧
    ∃ t, exec .nop s = .next t ∧ t = { s with phase := .idle, done := true, ecode := none } ∧ t.irq = s.ie

/-- C2N (R113, with R111): the character SARG[7:0]; the upper bits are ignored. -/
def Obligations.C2nFollowsItsRule : Prop :=
  encode .c2n = 0x00000001 ∧
  ∀ (s : State) (b : Byte), b = s.sarg.extractLsb' 0 8 →
    (¬ ((0x41 ≤ b ∧ b ≤ 0x5A) ∨ (0x61 ≤ b ∧ b ≤ 0x7A) ∨ b = 0x5F) →
      exec .c2n s = .next (failed .invalidCharacter s)) ∧
    (((0x41 ≤ b ∧ b ≤ 0x5A) ∨ (0x61 ≤ b ∧ b ≤ 0x7A) ∨ b = 0x5F) →
      ∃ t, exec .c2n s = .next t ∧ Succeeded s t ∧ ScalarFrame s t ∧
        t.res.toNat = if b = 0x5F then 26 else if b ≤ 0x5A then b.toNat - 0x41 else b.toNat - 0x61)

/-- N2C (R114, with R112): the signed SARG. -/
def Obligations.N2cFollowsItsRule : Prop :=
  encode .n2c = 0x00000002 ∧
  ∀ s : State, ∃ t, exec .n2c s = .next t ∧ Succeeded s t ∧ ScalarFrame s t ∧
    (t.res.toNat : Int) = if s.sarg.toInt = 26 then 0x5F else 0x41 + s.sarg.toInt % 26

/-- The codec laws (R115), run as commands (S7): N2C of n in 0..26 and then C2N of its result gives n; C2N of a character and then
N2C of its result gives the character, upper-cased. -/
def Obligations.CodecCommandsAreInverse : Prop :=
  (∀ (s : State) (n : Nat), n ≤ 26 →
    ∃ t u, exec .n2c (s.setSarg (BitVec.ofNat 32 n)) = .next t ∧
      exec .c2n (t.setSarg (t.res.extractLsb' 0 32)) = .next u ∧ u.ecode = none ∧ u.res.toNat = n) ∧
  (∀ (s : State) (b : Byte), ((0x41 ≤ b ∧ b ≤ 0x5A) ∨ (0x61 ≤ b ∧ b ≤ 0x7A) ∨ b = 0x5F) →
    ∃ t u, exec .c2n (s.setSarg (b.setWidth 32)) = .next t ∧
      exec .n2c (t.setSarg (t.res.extractLsb' 0 32)) = .next u ∧ u.ecode = none ∧
      u.res.toNat = if 0x61 ≤ b then b.toNat - 0x20 else b.toNat)

/-- SPLIT (R118, with R116 and R117): the checks in order, then the text normalised and padded to P bytes. -/
def Obligations.SplitFollowsItsRule : Prop :=
  ∀ (k : Imm) (s : State),
    encode (.split k) = 0x00000003#32 ||| k.setWidth 32 <<< 16 ∧
    (¬ (1 ≤ k.toNat ∧ k.toNat ≤ s.params.nMax) → exec (.split k) s = .next (failed .shapeError s)) ∧
    ((1 ≤ k.toNat ∧ k.toNat ≤ s.params.nMax) → s.params.textMax < s.textLen.toNat →
      exec (.split k) s = .next (failed .lengthError s)) ∧
    ((1 ≤ k.toNat ∧ k.toNat ≤ s.params.nMax) → s.textLen.toNat ≤ s.params.textMax →
      ∃ t P, exec (.split k) s = .next t ∧ Succeeded s t ∧ TextFrame s t P ∧
        (k.toNat ∣ P ∧ s.textLen.toNat ≤ P ∧ 1 ≤ P ∧
          ∀ q, k.toNat ∣ q → s.textLen.toNat ≤ q → 1 ≤ q → P ≤ q) ∧
        OutHolds t P (fun i =>
          if i < s.textLen.toNat then (if s.inByte i = 0x20 then 0x5F else s.inByte i) else 0x5F))

/-! ## Matrix Engine commands -/

/-- ADD (R128). -/
def Obligations.AddFollowsItsRule : Prop :=
  ∀ (rd ra rb : Selector) (s : State) (d a b : Fin 4), d = matSel rd → a = matSel ra → b = matSel rb →
    encode (.add rd ra rb) =
      0x10#32 ||| rd.setWidth 32 <<< 8 ||| ra.setWidth 32 <<< 10 ||| rb.setWidth 32 <<< 12 ∧
    (¬ (ShapeValid s a ∧ ShapeValid s b) → exec (.add rd ra rb) s = .next (failed .shapeError s)) ∧
    (ShapeValid s a → ShapeValid s b → ¬ (s.rows a = s.rows b ∧ s.cols a = s.cols b) →
      exec (.add rd ra rb) s = .next (failed .dimensionMismatch s)) ∧
    (ShapeValid s a → ShapeValid s b → s.rows a = s.rows b → s.cols a = s.cols b →
      ¬ (∀ r < s.rows a, ∀ c < s.cols a, Fits64 ((s.mat a).e r c + (s.mat b).e r c)) →
      exec (.add rd ra rb) s = .next (failed .overflow s)) ∧
    (ShapeValid s a → ShapeValid s b → s.rows a = s.rows b → s.cols a = s.cols b →
      (∀ r < s.rows a, ∀ c < s.cols a, Fits64 ((s.mat a).e r c + (s.mat b).e r c)) →
      ∃ t, exec (.add rd ra rb) s = .next t ∧ Succeeded s t ∧ MatrixFrame s t d ∧ t.res = s.res ∧ t.aux = s.aux ∧
        MatrixHolds t d (s.rows a) (s.cols a) (fun r c => (s.mat a).e r c + (s.mat b).e r c))

/-- MULM (R129): the exact product; only the final sums must fit. -/
def Obligations.MulmFollowsItsRule : Prop :=
  ∀ (rd ra rb : Selector) (s : State) (d a b : Fin 4) (x : Nat → Nat → Int), d = matSel rd → a = matSel ra →
    b = matSel rb → x = (fun r c => ∑ t ∈ Finset.range (s.cols a), (s.mat a).e r t * (s.mat b).e t c) →
    encode (.mulm rd ra rb) =
      0x11#32 ||| rd.setWidth 32 <<< 8 ||| ra.setWidth 32 <<< 10 ||| rb.setWidth 32 <<< 12 ∧
    (¬ (ShapeValid s a ∧ ShapeValid s b) → exec (.mulm rd ra rb) s = .next (failed .shapeError s)) ∧
    (ShapeValid s a → ShapeValid s b → s.cols a ≠ s.rows b →
      exec (.mulm rd ra rb) s = .next (failed .dimensionMismatch s)) ∧
    (ShapeValid s a → ShapeValid s b → s.cols a = s.rows b →
      ¬ (∀ r < s.rows a, ∀ c < s.cols b, Fits64 (x r c)) → exec (.mulm rd ra rb) s = .next (failed .overflow s)) ∧
    (ShapeValid s a → ShapeValid s b → s.cols a = s.rows b → (∀ r < s.rows a, ∀ c < s.cols b, Fits64 (x r c)) →
      ∃ t, exec (.mulm rd ra rb) s = .next t ∧ Succeeded s t ∧ MatrixFrame s t d ∧ t.res = s.res ∧ t.aux = s.aux ∧
        MatrixHolds t d (s.rows a) (s.cols b) x)

/-- Vector selectors (R93): 0 and 1 select V0 and V1; with a selector of 2 or 3, MULV, ENCB and DECB complete with IllegalCommand,
and their words do not decode. -/
def Obligations.VectorSelectorAboveOneIsIllegal : Prop :=
  ∀ (rd ra rb : Selector) (s : State),
    ((rd.toNat ≤ 1 ∧ rb.toNat ≤ 1) →
      vecSel rd = some ⟨rd.toNat % 2, Nat.mod_lt _ (by decide)⟩ ∧
      decode (encode (.mulv rd ra rb)) = .ok (.mulv rd ra rb) ∧ decode (encode (.encb rd ra rb)) = .ok (.encb rd ra rb) ∧
      decode (encode (.decb rd ra rb)) = .ok (.decb rd ra rb)) ∧
    ((2 ≤ rd.toNat ∨ 2 ≤ rb.toNat) →
      exec (.mulv rd ra rb) s = .next (failed .illegalCommand s) ∧
      exec (.encb rd ra rb) s = .next (failed .illegalCommand s) ∧
      exec (.decb rd ra rb) s = .next (failed .illegalCommand s) ∧
      decode (encode (.mulv rd ra rb)) = .error .vectorSelector ∧ decode (encode (.encb rd ra rb)) = .error .vectorSelector ∧
      decode (encode (.decb rd ra rb)) = .error .vectorSelector)

/-- MULV (R130): modulus-free. -/
def Obligations.MulvFollowsItsRule : Prop :=
  ∀ (rd ra rb : Selector) (s : State) (d b : Fin 2) (a : Fin 4) (x : Nat → Int), rd.toNat = d.val → a = matSel ra →
    rb.toNat = b.val → x = (fun r => ∑ t ∈ Finset.range (s.cols a), (s.mat a).e r t * (s.vec b).e t) →
    encode (.mulv rd ra rb) =
      0x12#32 ||| rd.setWidth 32 <<< 8 ||| ra.setWidth 32 <<< 10 ||| rb.setWidth 32 <<< 12 ∧
    (¬ (ShapeValid s a ∧ LenValid s b) → exec (.mulv rd ra rb) s = .next (failed .shapeError s)) ∧
    (ShapeValid s a → LenValid s b → s.cols a ≠ s.len b →
      exec (.mulv rd ra rb) s = .next (failed .dimensionMismatch s)) ∧
    (ShapeValid s a → LenValid s b → s.cols a = s.len b → ¬ (∀ r < s.rows a, Fits64 (x r)) →
      exec (.mulv rd ra rb) s = .next (failed .overflow s)) ∧
    (ShapeValid s a → LenValid s b → s.cols a = s.len b → (∀ r < s.rows a, Fits64 (x r)) →
      ∃ t, exec (.mulv rd ra rb) s = .next t ∧ Succeeded s t ∧ VectorFrame s t d ∧ VectorHolds t d (s.rows a) x)

/-- DET (R131). -/
def Obligations.DetFollowsItsRule : Prop :=
  ∀ (ra : Selector) (s : State) (a : Fin 4), a = matSel ra →
    encode (.det ra) = 0x13#32 ||| ra.setWidth 32 <<< 10 ∧
    (¬ ShapeValid s a → exec (.det ra) s = .next (failed .shapeError s)) ∧
    (ShapeValid s a → s.rows a ≠ s.cols a → exec (.det ra) s = .next (failed .notSquare s)) ∧
    (SquareValid s a → ¬ Fits64 (det (s.mat a)) → exec (.det ra) s = .next (failed .overflow s)) ∧
    (SquareValid s a → Fits64 (det (s.mat a)) →
      ∃ t, exec (.det ra) s = .next t ∧ Succeeded s t ∧ ScalarFrame s t ∧ t.res.toInt = det (s.mat a))

/-- MINOR (R132, with R120): any shape with two rows and two columns, square or not. -/
def Obligations.MinorFollowsItsRule : Prop :=
  ∀ (rd ra : Selector) (i j : Imm) (s : State) (d a : Fin 4), d = matSel rd → a = matSel ra →
    encode (.minor rd ra i j) =
      0x14#32 ||| rd.setWidth 32 <<< 8 ||| ra.setWidth 32 <<< 10 ||| i.setWidth 32 <<< 16 ||| j.setWidth 32 <<< 20 ∧
    (¬ (ShapeValid s a ∧ 2 ≤ s.rows a ∧ 2 ≤ s.cols a ∧ i.toNat < s.rows a ∧ j.toNat < s.cols a) →
      exec (.minor rd ra i j) s = .next (failed .shapeError s)) ∧
    (ShapeValid s a → 2 ≤ s.rows a → 2 ≤ s.cols a → i.toNat < s.rows a → j.toNat < s.cols a →
      ∃ t, exec (.minor rd ra i j) s = .next t ∧ Succeeded s t ∧ MatrixFrame s t d ∧ t.res = s.res ∧ t.aux = s.aux ∧
        MatrixHolds t d (s.rows a - 1) (s.cols a - 1) (fun r c =>
          (s.mat a).e (r + if i.toNat ≤ r then 1 else 0) (c + if j.toNat ≤ c then 1 else 0)))

/-- ADJ (R133, with R122 and R123): the signed minors, transposed; [[1]] for a 1 × 1 matrix. -/
def Obligations.AdjFollowsItsRule : Prop :=
  ∀ (rd ra : Selector) (s : State) (d a : Fin 4) (x : Nat → Nat → Int), d = matSel rd → a = matSel ra →
    x = (fun i j => if s.rows a = 1 then 1 else (-1) ^ (i + j) * det (minor (s.mat a) j i)) →
    encode (.adj rd ra) = 0x15#32 ||| rd.setWidth 32 <<< 8 ||| ra.setWidth 32 <<< 10 ∧
    (¬ ShapeValid s a → exec (.adj rd ra) s = .next (failed .shapeError s)) ∧
    (ShapeValid s a → s.rows a ≠ s.cols a → exec (.adj rd ra) s = .next (failed .notSquare s)) ∧
    (SquareValid s a → ¬ (∀ r < s.rows a, ∀ c < s.rows a, Fits64 (x r c)) →
      exec (.adj rd ra) s = .next (failed .overflow s)) ∧
    (SquareValid s a → (∀ r < s.rows a, ∀ c < s.rows a, Fits64 (x r c)) →
      ∃ t, exec (.adj rd ra) s = .next t ∧ Succeeded s t ∧ MatrixFrame s t d ∧ t.res = s.res ∧ t.aux = s.aux ∧
        MatrixHolds t d (s.rows a) (s.rows a) x)

/-- TRN (R134, with R124). -/
def Obligations.TrnFollowsItsRule : Prop :=
  ∀ (rd ra : Selector) (s : State) (d a : Fin 4), d = matSel rd → a = matSel ra →
    encode (.trn rd ra) = 0x16#32 ||| rd.setWidth 32 <<< 8 ||| ra.setWidth 32 <<< 10 ∧
    (¬ ShapeValid s a → exec (.trn rd ra) s = .next (failed .shapeError s)) ∧
    (ShapeValid s a →
      ∃ t, exec (.trn rd ra) s = .next t ∧ Succeeded s t ∧ MatrixFrame s t d ∧ t.res = s.res ∧ t.aux = s.aux ∧
        MatrixHolds t d (s.cols a) (s.rows a) (fun r c => (s.mat a).e c r))

/-- INV (R135): the adjugate and the determinant, an exact rational. -/
def Obligations.InvFollowsItsRule : Prop :=
  ∀ (rd ra : Selector) (s : State) (d a : Fin 4) (x : Nat → Nat → Int), d = matSel rd → a = matSel ra →
    x = (fun i j => if s.rows a = 1 then 1 else (-1) ^ (i + j) * det (minor (s.mat a) j i)) →
    encode (.inv rd ra) = 0x17#32 ||| rd.setWidth 32 <<< 8 ||| ra.setWidth 32 <<< 10 ∧
    (¬ ShapeValid s a → exec (.inv rd ra) s = .next (failed .shapeError s)) ∧
    (ShapeValid s a → s.rows a ≠ s.cols a → exec (.inv rd ra) s = .next (failed .notSquare s)) ∧
    (SquareValid s a → det (s.mat a) = 0 → exec (.inv rd ra) s = .next (failed .singularMatrix s)) ∧
    (SquareValid s a → det (s.mat a) ≠ 0 →
      ¬ (Fits64 (det (s.mat a)) ∧ ∀ r < s.rows a, ∀ c < s.rows a, Fits64 (x r c)) →
      exec (.inv rd ra) s = .next (failed .overflow s)) ∧
    (SquareValid s a → det (s.mat a) ≠ 0 → Fits64 (det (s.mat a)) →
      (∀ r < s.rows a, ∀ c < s.rows a, Fits64 (x r c)) →
      ∃ t, exec (.inv rd ra) s = .next t ∧ Succeeded s t ∧ MatrixFrame s t d ∧ t.res.toInt = det (s.mat a) ∧
        t.aux = s.aux ∧ MatrixHolds t d (s.rows a) (s.rows a) x)

/-- The minor (R120) deletes a row and a column, and the determinant (R121) is the element, the 2 × 2 formula, or the cofactor
expansion along row 0. -/
def Obligations.DetIsTheCofactorExpansion : Prop :=
  ∀ A : Mat,
    (∀ i j r c : Nat, (minor A i j).rows = A.rows - 1 ∧ (minor A i j).cols = A.cols - 1 ∧
      (minor A i j).e r c = A.e (r + if i ≤ r then 1 else 0) (c + if j ≤ c then 1 else 0)) ∧
    (A.rows = 1 → A.cols = 1 → det A = A.e 0 0) ∧
    (A.rows = 2 → A.cols = 2 → det A = A.e 0 0 * A.e 1 1 - A.e 0 1 * A.e 1 0) ∧
    (∀ n, 3 ≤ n → A.rows = n → A.cols = n →
      det A = ∑ j ∈ Finset.range n, (-1) ^ j * A.e 0 j * det (minor A 0 j))

/-- The laws of the determinant and the adjugate (R127): (a) A · Adj(A) = Adj(A) · A = Det(A) · I, (b) Det of the transpose,
(c) the Leibniz sum over permutations. -/
def Obligations.DeterminantLaws : Prop :=
  ∀ (A : Mat) (n : Nat), 1 ≤ n → A.rows = n → A.cols = n →
    (∀ r < n, ∀ c < n, (matMul A (adj A)).e r c = (if r = c then det A else 0) ∧
      (matMul (adj A) A).e r c = (if r = c then det A else 0)) ∧
    det (transpose A) = det A ∧
    det A = ∑ p : Equiv.Perm (Fin n), (Equiv.Perm.sign p : Int) * ∏ r : Fin n, A.e r (p r)

/-! ## Modular commands -/

/-- MODINV (R142, with R140 and R141): it succeeds exactly on the twelve units, with the inverse in 1..25. -/
def Obligations.ModinvFollowsItsRule : Prop :=
  encode .modinv = 0x00000020 ∧
  ∀ s : State,
    (Int.gcd (s.sarg.toInt % 26) 26 ≠ 1 → exec .modinv s = .next (failed .noModularInverse s)) ∧
    (Int.gcd (s.sarg.toInt % 26) 26 = 1 →
      ∃ t, exec .modinv s = .next t ∧ Succeeded s t ∧ ScalarFrame s t ∧ 1 ≤ t.res.toNat ∧ t.res.toNat ≤ 25 ∧
        (s.sarg.toInt * (t.res.toNat : Int)) % 26 = 1)

/-- MINVM (R144, with R143): the inverse key, the determinant modulo 26 and its inverse. -/
def Obligations.MinvmFollowsItsRule : Prop :=
  ∀ (rd ra : Selector) (s : State) (d a : Fin 4), d = matSel rd → a = matSel ra →
    encode (.minvm rd ra) = 0x21#32 ||| rd.setWidth 32 <<< 8 ||| ra.setWidth 32 <<< 10 ∧
    (¬ ShapeValid s a → exec (.minvm rd ra) s = .next (failed .shapeError s)) ∧
    (ShapeValid s a → s.rows a ≠ s.cols a → exec (.minvm rd ra) s = .next (failed .notSquare s)) ∧
    (SquareValid s a → ¬ KeyInvertible (s.mat a) → exec (.minvm rd ra) s = .next (failed .singularMatrixMod s)) ∧
    (SquareValid s a → KeyInvertible (s.mat a) →
      ∃ t, exec (.minvm rd ra) s = .next t ∧ Succeeded s t ∧ MatrixFrame s t d ∧
        (t.res.toNat : Int) = det (s.mat a) % 26 ∧ 1 ≤ t.aux.toNat ∧ t.aux.toNat ≤ 25 ∧
        (det (s.mat a) * (t.aux.toNat : Int)) % 26 = 1 ∧
        MatrixHolds t d (s.rows a) (s.rows a) (inverseEntry (s.mat a) t.aux.toNat))

/-- The inverse key (R143) and its law (R145). `ModInvMatrix26` of a square matrix raises SingularMatrixMod where the determinant
modulo 26 is 0 or not prime to 26; otherwise it gives the determinant modulo 26, the inverse of that in 1..25, and the entries
(iv · Adj(A)) mod 26, all in 0..25. Whenever MINVM succeeds, the key times its result, and the result times the key, is the identity
modulo 26. -/
def Obligations.InverseKeyInvertsTheKey : Prop :=
  (∀ (A : Mat) (n : Nat), 1 ≤ n → A.rows = n → A.cols = n →
    (¬ KeyInvertible A → keyInverse A = .error .singularMatrixMod) ∧
    (KeyInvertible A → ∃ (K : Mat) (iv : Nat), keyInverse A = .ok (K, det A % 26, iv) ∧ 1 ≤ iv ∧ iv ≤ 25 ∧
      (det A % 26 * (iv : Int)) % 26 = 1 ∧ K.rows = n ∧ K.cols = n ∧
      ∀ r < n, ∀ c < n, K.e r c = (iv * (adj A).e r c) % 26 ∧ 0 ≤ K.e r c ∧ K.e r c ≤ 25)) ∧
  ∀ (rd ra : Selector) (s t : State), exec (.minvm rd ra) s = .next t → t.ecode = none →
    ∀ r < s.rows (matSel ra), ∀ c < s.rows (matSel ra),
      (∑ k ∈ Finset.range (s.rows (matSel ra)), (s.mat (matSel ra)).e r k * (t.mat (matSel rd)).e k c) % 26 =
        (if r = c then 1 else 0) ∧
      (∑ k ∈ Finset.range (s.rows (matSel ra)), (t.mat (matSel rd)).e r k * (s.mat (matSel ra)).e k c) % 26 =
        (if r = c then 1 else 0) ∧
      0 ≤ (t.mat (matSel rd)).e r c ∧ (t.mat (matSel rd)).e r c ≤ 25

/-! ## Hill cipher commands -/

/-- ENCB (R152, with R150): any key whose column count matches, any int64 elements, no overflow. -/
def Obligations.EncbFollowsItsRule : Prop :=
  ∀ (rd ra rb : Selector) (s : State) (d b : Fin 2) (a : Fin 4), rd.toNat = d.val → a = matSel ra → rb.toNat = b.val →
    encode (.encb rd ra rb) =
      0x30#32 ||| rd.setWidth 32 <<< 8 ||| ra.setWidth 32 <<< 10 ||| rb.setWidth 32 <<< 12 ∧
    (¬ (ShapeValid s a ∧ LenValid s b) → exec (.encb rd ra rb) s = .next (failed .shapeError s)) ∧
    (ShapeValid s a → LenValid s b → s.cols a ≠ s.len b →
      exec (.encb rd ra rb) s = .next (failed .dimensionMismatch s)) ∧
    (ShapeValid s a → LenValid s b → s.cols a = s.len b →
      ∃ t, exec (.encb rd ra rb) s = .next t ∧ Succeeded s t ∧ VectorFrame s t d ∧
        VectorHolds t d (s.rows a)
          (fun r => (∑ q ∈ Finset.range (s.cols a), (s.mat a).e r q * (s.vec b).e q) % 26))

/-- DECB (R153): the key's checks come before the block's length. -/
def Obligations.DecbFollowsItsRule : Prop :=
  ∀ (rd ra rb : Selector) (s : State) (d b : Fin 2) (a : Fin 4), rd.toNat = d.val → a = matSel ra → rb.toNat = b.val →
    encode (.decb rd ra rb) =
      0x31#32 ||| rd.setWidth 32 <<< 8 ||| ra.setWidth 32 <<< 10 ||| rb.setWidth 32 <<< 12 ∧
    (¬ (ShapeValid s a ∧ LenValid s b) → exec (.decb rd ra rb) s = .next (failed .shapeError s)) ∧
    (ShapeValid s a → LenValid s b → s.rows a ≠ s.cols a → exec (.decb rd ra rb) s = .next (failed .notSquare s)) ∧
    (SquareValid s a → LenValid s b → ¬ KeyInvertible (s.mat a) →
      exec (.decb rd ra rb) s = .next (failed .singularMatrixMod s)) ∧
    (SquareValid s a → LenValid s b → KeyInvertible (s.mat a) → s.rows a ≠ s.len b →
      exec (.decb rd ra rb) s = .next (failed .dimensionMismatch s)) ∧
    (SquareValid s a → LenValid s b → KeyInvertible (s.mat a) → s.rows a = s.len b →
      ∃ (t : State) (iv : Nat), exec (.decb rd ra rb) s = .next t ∧ Succeeded s t ∧ VectorFrame s t d ∧
        1 ≤ iv ∧ iv ≤ 25 ∧ (det (s.mat a) * (iv : Int)) % 26 = 1 ∧
        VectorHolds t d (s.rows a)
          (fun r => (∑ q ∈ Finset.range (s.rows a), inverseEntry (s.mat a) iv r q * (s.vec b).e q) % 26))

/-- ENCT (R154, with R151): the checks in order, the order of errors inside the text, and the ciphertext. -/
def Obligations.EnctFollowsItsRule : Prop :=
  ∀ (ra : Selector) (s : State) (a : Fin 4), a = matSel ra →
    encode (.enct ra) = 0x32#32 ||| ra.setWidth 32 <<< 10 ∧
    (¬ ShapeValid s a → exec (.enct ra) s = .next (failed .shapeError s)) ∧
    (ShapeValid s a → s.params.textMax < s.textLen.toNat → exec (.enct ra) s = .next (failed .lengthError s)) ∧
    (ShapeValid s a → s.textLen.toNat ≤ s.params.textMax → s.rows a ≠ s.cols a →
      (∀ i < s.textLen.toNat, i < s.rows a → CipherByte (s.inByte i)) →
      exec (.enct ra) s = .next (failed .dimensionMismatch s)) ∧
    (ShapeValid s a → s.textLen.toNat ≤ s.params.textMax → s.rows a ≠ s.cols a →
      ¬ (∀ i < s.textLen.toNat, i < s.rows a → CipherByte (s.inByte i)) →
      exec (.enct ra) s = .next (failed .invalidCharacter s)) ∧
    (SquareValid s a → s.textLen.toNat ≤ s.params.textMax →
      ¬ (∀ i < s.textLen.toNat, CipherByte (s.inByte i)) →
      exec (.enct ra) s = .next (failed .invalidCharacter s)) ∧
    (SquareValid s a → s.textLen.toNat ≤ s.params.textMax → (∀ i < s.textLen.toNat, CipherByte (s.inByte i)) →
      ∃ t P, exec (.enct ra) s = .next t ∧ Succeeded s t ∧ TextFrame s t P ∧
        (s.rows a ∣ P ∧ s.textLen.toNat ≤ P ∧ 1 ≤ P ∧ P < max 1 s.textLen.toNat + s.rows a) ∧
        OutHolds t P (hillByte (s.rows a) (s.mat a).e s.textLen.toNat s.inByte))

/-- DECT (R155): the key is checked before any character. -/
def Obligations.DectFollowsItsRule : Prop :=
  ∀ (ra : Selector) (s : State) (a : Fin 4), a = matSel ra →
    encode (.dect ra) = 0x33#32 ||| ra.setWidth 32 <<< 10 ∧
    (¬ ShapeValid s a → exec (.dect ra) s = .next (failed .shapeError s)) ∧
    (ShapeValid s a → s.params.textMax < s.textLen.toNat → exec (.dect ra) s = .next (failed .lengthError s)) ∧
    (ShapeValid s a → s.textLen.toNat ≤ s.params.textMax → s.rows a ≠ s.cols a →
      exec (.dect ra) s = .next (failed .notSquare s)) ∧
    (SquareValid s a → s.textLen.toNat ≤ s.params.textMax → ¬ KeyInvertible (s.mat a) →
      exec (.dect ra) s = .next (failed .singularMatrixMod s)) ∧
    (SquareValid s a → s.textLen.toNat ≤ s.params.textMax → KeyInvertible (s.mat a) →
      ¬ (∀ i < s.textLen.toNat, CipherByte (s.inByte i)) →
      exec (.dect ra) s = .next (failed .invalidCharacter s)) ∧
    (SquareValid s a → s.textLen.toNat ≤ s.params.textMax → KeyInvertible (s.mat a) →
      (∀ i < s.textLen.toNat, CipherByte (s.inByte i)) →
      ∃ (t : State) (P iv : Nat), exec (.dect ra) s = .next t ∧ Succeeded s t ∧ TextFrame s t P ∧
        1 ≤ iv ∧ iv ≤ 25 ∧ (det (s.mat a) * (iv : Int)) % 26 = 1 ∧
        (s.rows a ∣ P ∧ s.textLen.toNat ≤ P ∧ 1 ≤ P ∧ P < max 1 s.textLen.toNat + s.rows a) ∧
        OutHolds t P (hillByte (s.rows a) (inverseEntry (s.mat a) iv) s.textLen.toNat s.inByte))

/-- The corrected round trip (R156). Under a square key invertible modulo 26 and a text of letters, spaces and sentinels, ENCT
succeeds; and from any state that holds the same key and, as its text, the bytes ENCT wrote, DECT succeeds with the same length and
gives the upper-cased letters back, and 'A' for every space, sentinel and padding byte. The copy must fit IN_BUF. -/
def Obligations.EncryptThenDecryptGivesTheText : Prop :=
  ∀ (ra : Selector) (s : State) (a : Fin 4), a = matSel ra →
    SquareValid s a → KeyInvertible (s.mat a) → s.textLen.toNat ≤ s.params.textMax →
    (∀ i < s.textLen.toNat, CipherByte (s.inByte i)) →
    ∃ t, exec (.enct ra) s = .next t ∧ t.ecode = none ∧
      ∀ u : State, u.params = s.params → u.rows a = s.rows a → u.cols a = s.cols a →
        (∀ r < s.rows a, ∀ c < s.cols a, (u.mat a).e r c = (s.mat a).e r c) →
        u.textLen = t.outLen → u.textLen.toNat ≤ u.params.textMax →
        (∀ i < t.outLen.toNat, u.inByte i = t.outByte i) →
        ∃ v, exec (.dect ra) u = .next v ∧ v.ecode = none ∧ v.outLen = t.outLen ∧
          ∀ i < t.outLen.toNat, v.outByte i =
            if i < s.textLen.toNat then
              (if 0x61 ≤ s.inByte i ∧ s.inByte i ≤ 0x7A then s.inByte i - 0x20
                else if 0x41 ≤ s.inByte i ∧ s.inByte i ≤ 0x5A then s.inByte i else 0x41)
            else 0x41

/-! ## Rules about all commands -/

/-- Every command runs to completion or to a failure (R119, R176): exec answers a next state in which the engine is IDLE, DONE is
set, and ERR is set if the command failed and kept if it did not; BV is kept. -/
def Obligations.EveryCommandCompletes : Prop :=
  ∀ (i : Instr) (s : State), ∃ t, exec i s = .next t ∧ t.phase = .idle ∧ t.done = true ∧
    t.err = (s.err || decide (t.ecode ≠ none)) ∧ t.bv = s.bv

/-- All or nothing (R172, R175): the state after a failed command is the state before it, except for STATUS and the phase. -/
def Obligations.FailedCommandChangesOnlyStatus : Prop :=
  ∀ (i : Instr) (s t : State) (e : CmdError), exec i s = .next t → t.ecode = some e → t = failed e s

/-- What commands do not write (R22, R25-R30, R32, R34): SARG, TEXT_LEN, CTRL, CMD, the parameters, the bus interface and every byte
of IN_BUF, by no command; vector registers, matrix registers, and OUT_BUF with OUT_LEN, by none but the commands each rule names. -/
def Obligations.NoCommandWritesItsInputs : Prop :=
  ∀ (i : Instr) (s t : State), exec i s = .next t →
    KeepsHostSide s t ∧ (∀ k < 256, t.inByte k = s.inByte k) ∧
    (i.opcode ∉ [Opcode.mulv, .encb, .decb] → t.vlen = s.vlen ∧ ∀ x, 0x100 ≤ x → x < 0x180 → t.byte x = s.byte x) ∧
    (i.opcode ∉ [Opcode.add, .mulm, .minor, .adj, .trn, .inv, .minvm] →
      t.mdim = s.mdim ∧ ∀ x, 0x800 ≤ x → x < 0x1000 → t.byte x = s.byte x) ∧
    (i.opcode ∉ [Opcode.split, .enct, .dect] → t.outLen = s.outLen ∧ ∀ x, 0x600 ≤ x → x < 0x800 → t.byte x = s.byte x)

/-- RES and AUX (R26): only C2N, N2C, DET, INV, MODINV and MINVM write RES, and only MINVM writes AUX. -/
def Obligations.OnlyNamedCommandsWriteResAndAux : Prop :=
  ∀ (i : Instr) (s t : State), exec i s = .next t →
    (i.opcode ∉ [Opcode.c2n, .n2c, .det, .inv, .modinv, .minvm] → t.res = s.res) ∧
    (i.opcode ≠ .minvm → t.aux = s.aux)

/-- No command reads an element outside a valid register's shape (R24, R25), nor a text byte at or above TEXT_LEN: two states that
hold the same data and differ in nothing but such bytes complete every command alike, hold the same data after it, and give the same
output text where the command is SPLIT, ENCT or DECT. -/
def Obligations.BytesOutsideTheShapesAreNotRead : Prop :=
  ∀ (i : Instr) (s t : State) (m : Memory), SameData s { s with mem := m } → exec i s = .next t →
    ∃ m' : Memory, exec i { s with mem := m } = .next { t with mem := m' } ∧ SameData t { t with mem := m' } ∧
      (i.opcode ∈ [Opcode.split, .enct, .dect] → t.ecode = none →
        ∀ k < t.outLen.toNat, State.outByte { t with mem := m' } k = t.outByte k)
end

