-- ==== Sys2Proof/Laws/State.lean ====
section
/-! SUPPORT. What each named update of State does to each field: one lemma per field and update, each by definition, so that no
proof unfolds a record update. -/

namespace Sys2Proof.Machine

variable (s : State)

/-! ### complete -/
@[simp] theorem State.complete_params (c : Option CmdError) : (s.complete c).params = s.params := rfl
@[simp] theorem State.complete_phase (c : Option CmdError) : (s.complete c).phase = .idle := rfl
@[simp] theorem State.complete_cur (c : Option CmdError) : (s.complete c).cur = s.cur := rfl
@[simp] theorem State.complete_cmd (c : Option CmdError) : (s.complete c).cmd = s.cmd := rfl
@[simp] theorem State.complete_done (c : Option CmdError) : (s.complete c).done = true := rfl
@[simp] theorem State.complete_err (c : Option CmdError) : (s.complete c).err = (s.err || c.isSome) := rfl
@[simp] theorem State.complete_bv (c : Option CmdError) : (s.complete c).bv = s.bv := rfl
@[simp] theorem State.complete_ecode (c : Option CmdError) : (s.complete c).ecode = c := rfl
@[simp] theorem State.complete_ie (c : Option CmdError) : (s.complete c).ie = s.ie := rfl
@[simp] theorem State.complete_res (c : Option CmdError) : (s.complete c).res = s.res := rfl
@[simp] theorem State.complete_aux (c : Option CmdError) : (s.complete c).aux = s.aux := rfl
@[simp] theorem State.complete_sarg (c : Option CmdError) : (s.complete c).sarg = s.sarg := rfl
@[simp] theorem State.complete_textLen (c : Option CmdError) : (s.complete c).textLen = s.textLen := rfl
@[simp] theorem State.complete_outLen (c : Option CmdError) : (s.complete c).outLen = s.outLen := rfl
@[simp] theorem State.complete_mdim (c : Option CmdError) : (s.complete c).mdim = s.mdim := rfl
@[simp] theorem State.complete_vlen (c : Option CmdError) : (s.complete c).vlen = s.vlen := rfl
@[simp] theorem State.complete_mem (c : Option CmdError) : (s.complete c).mem = s.mem := rfl
@[simp] theorem State.complete_held (c : Option CmdError) : (s.complete c).held = s.held := rfl
@[simp] theorem State.complete_bus (c : Option CmdError) : (s.complete c).bus = s.bus := rfl
@[simp] theorem State.complete_pending (c : Option CmdError) : (s.complete c).pending = s.pending := rfl
@[simp] theorem State.complete_now (c : Option CmdError) : (s.complete c).now = s.now := rfl
@[simp] theorem State.complete_epoch (c : Option CmdError) : (s.complete c).epoch = s.epoch := rfl

/-! ### clearStatus -/
@[simp] theorem State.clearStatus_params (v : Word) : (s.clearStatus v).params = s.params := rfl
@[simp] theorem State.clearStatus_phase (v : Word) : (s.clearStatus v).phase = s.phase := rfl
@[simp] theorem State.clearStatus_cur (v : Word) : (s.clearStatus v).cur = s.cur := rfl
@[simp] theorem State.clearStatus_cmd (v : Word) : (s.clearStatus v).cmd = s.cmd := rfl
@[simp] theorem State.clearStatus_done (v : Word) : (s.clearStatus v).done = (s.done && !v.getLsbD 1) := rfl
@[simp] theorem State.clearStatus_err (v : Word) : (s.clearStatus v).err = (s.err && !v.getLsbD 2) := rfl
@[simp] theorem State.clearStatus_bv (v : Word) : (s.clearStatus v).bv = (s.bv && !v.getLsbD 3) := rfl
@[simp] theorem State.clearStatus_ecode (v : Word) : (s.clearStatus v).ecode = s.ecode := rfl
@[simp] theorem State.clearStatus_ie (v : Word) : (s.clearStatus v).ie = s.ie := rfl
@[simp] theorem State.clearStatus_res (v : Word) : (s.clearStatus v).res = s.res := rfl
@[simp] theorem State.clearStatus_aux (v : Word) : (s.clearStatus v).aux = s.aux := rfl
@[simp] theorem State.clearStatus_sarg (v : Word) : (s.clearStatus v).sarg = s.sarg := rfl
@[simp] theorem State.clearStatus_textLen (v : Word) : (s.clearStatus v).textLen = s.textLen := rfl
@[simp] theorem State.clearStatus_outLen (v : Word) : (s.clearStatus v).outLen = s.outLen := rfl
@[simp] theorem State.clearStatus_mdim (v : Word) : (s.clearStatus v).mdim = s.mdim := rfl
@[simp] theorem State.clearStatus_vlen (v : Word) : (s.clearStatus v).vlen = s.vlen := rfl
@[simp] theorem State.clearStatus_mem (v : Word) : (s.clearStatus v).mem = s.mem := rfl
@[simp] theorem State.clearStatus_held (v : Word) : (s.clearStatus v).held = s.held := rfl
@[simp] theorem State.clearStatus_bus (v : Word) : (s.clearStatus v).bus = s.bus := rfl
@[simp] theorem State.clearStatus_pending (v : Word) : (s.clearStatus v).pending = s.pending := rfl
@[simp] theorem State.clearStatus_now (v : Word) : (s.clearStatus v).now = s.now := rfl
@[simp] theorem State.clearStatus_epoch (v : Word) : (s.clearStatus v).epoch = s.epoch := rfl

/-! ### setBusyViolation -/
@[simp] theorem State.setBusyViolation_params : (s.setBusyViolation).params = s.params := rfl
@[simp] theorem State.setBusyViolation_phase : (s.setBusyViolation).phase = s.phase := rfl
@[simp] theorem State.setBusyViolation_cur : (s.setBusyViolation).cur = s.cur := rfl
@[simp] theorem State.setBusyViolation_cmd : (s.setBusyViolation).cmd = s.cmd := rfl
@[simp] theorem State.setBusyViolation_done : (s.setBusyViolation).done = s.done := rfl
@[simp] theorem State.setBusyViolation_err : (s.setBusyViolation).err = s.err := rfl
@[simp] theorem State.setBusyViolation_bv : (s.setBusyViolation).bv = true := rfl
@[simp] theorem State.setBusyViolation_ecode : (s.setBusyViolation).ecode = s.ecode := rfl
@[simp] theorem State.setBusyViolation_ie : (s.setBusyViolation).ie = s.ie := rfl
@[simp] theorem State.setBusyViolation_res : (s.setBusyViolation).res = s.res := rfl
@[simp] theorem State.setBusyViolation_aux : (s.setBusyViolation).aux = s.aux := rfl
@[simp] theorem State.setBusyViolation_sarg : (s.setBusyViolation).sarg = s.sarg := rfl
@[simp] theorem State.setBusyViolation_textLen : (s.setBusyViolation).textLen = s.textLen := rfl
@[simp] theorem State.setBusyViolation_outLen : (s.setBusyViolation).outLen = s.outLen := rfl
@[simp] theorem State.setBusyViolation_mdim : (s.setBusyViolation).mdim = s.mdim := rfl
@[simp] theorem State.setBusyViolation_vlen : (s.setBusyViolation).vlen = s.vlen := rfl
@[simp] theorem State.setBusyViolation_mem : (s.setBusyViolation).mem = s.mem := rfl
@[simp] theorem State.setBusyViolation_held : (s.setBusyViolation).held = s.held := rfl
@[simp] theorem State.setBusyViolation_bus : (s.setBusyViolation).bus = s.bus := rfl
@[simp] theorem State.setBusyViolation_pending : (s.setBusyViolation).pending = s.pending := rfl
@[simp] theorem State.setBusyViolation_now : (s.setBusyViolation).now = s.now := rfl
@[simp] theorem State.setBusyViolation_epoch : (s.setBusyViolation).epoch = s.epoch := rfl

/-! ### store -/
@[simp] theorem State.store_params (l : List Nat) (f : Nat → Byte) : (s.store l f).params = s.params := rfl
@[simp] theorem State.store_phase (l : List Nat) (f : Nat → Byte) : (s.store l f).phase = s.phase := rfl
@[simp] theorem State.store_cur (l : List Nat) (f : Nat → Byte) : (s.store l f).cur = s.cur := rfl
@[simp] theorem State.store_cmd (l : List Nat) (f : Nat → Byte) : (s.store l f).cmd = s.cmd := rfl
@[simp] theorem State.store_done (l : List Nat) (f : Nat → Byte) : (s.store l f).done = s.done := rfl
@[simp] theorem State.store_err (l : List Nat) (f : Nat → Byte) : (s.store l f).err = s.err := rfl
@[simp] theorem State.store_bv (l : List Nat) (f : Nat → Byte) : (s.store l f).bv = s.bv := rfl
@[simp] theorem State.store_ecode (l : List Nat) (f : Nat → Byte) : (s.store l f).ecode = s.ecode := rfl
@[simp] theorem State.store_ie (l : List Nat) (f : Nat → Byte) : (s.store l f).ie = s.ie := rfl
@[simp] theorem State.store_res (l : List Nat) (f : Nat → Byte) : (s.store l f).res = s.res := rfl
@[simp] theorem State.store_aux (l : List Nat) (f : Nat → Byte) : (s.store l f).aux = s.aux := rfl
@[simp] theorem State.store_sarg (l : List Nat) (f : Nat → Byte) : (s.store l f).sarg = s.sarg := rfl
@[simp] theorem State.store_textLen (l : List Nat) (f : Nat → Byte) : (s.store l f).textLen = s.textLen := rfl
@[simp] theorem State.store_outLen (l : List Nat) (f : Nat → Byte) : (s.store l f).outLen = s.outLen := rfl
@[simp] theorem State.store_mdim (l : List Nat) (f : Nat → Byte) : (s.store l f).mdim = s.mdim := rfl
@[simp] theorem State.store_vlen (l : List Nat) (f : Nat → Byte) : (s.store l f).vlen = s.vlen := rfl
@[simp] theorem State.store_mem (l : List Nat) (f : Nat → Byte) : (s.store l f).mem = s.mem.writeMany l f := rfl
@[simp] theorem State.store_held (l : List Nat) (f : Nat → Byte) : (s.store l f).held = s.held := rfl
@[simp] theorem State.store_bus (l : List Nat) (f : Nat → Byte) : (s.store l f).bus = s.bus := rfl
@[simp] theorem State.store_pending (l : List Nat) (f : Nat → Byte) : (s.store l f).pending = s.pending := rfl
@[simp] theorem State.store_now (l : List Nat) (f : Nat → Byte) : (s.store l f).now = s.now := rfl
@[simp] theorem State.store_epoch (l : List Nat) (f : Nat → Byte) : (s.store l f).epoch = s.epoch := rfl

/-! ### storeWord -/
@[simp] theorem State.storeWord_params (a : Nat) (v : Word) : (s.storeWord a v).params = s.params := rfl
@[simp] theorem State.storeWord_phase (a : Nat) (v : Word) : (s.storeWord a v).phase = s.phase := rfl
@[simp] theorem State.storeWord_cur (a : Nat) (v : Word) : (s.storeWord a v).cur = s.cur := rfl
@[simp] theorem State.storeWord_cmd (a : Nat) (v : Word) : (s.storeWord a v).cmd = s.cmd := rfl
@[simp] theorem State.storeWord_done (a : Nat) (v : Word) : (s.storeWord a v).done = s.done := rfl
@[simp] theorem State.storeWord_err (a : Nat) (v : Word) : (s.storeWord a v).err = s.err := rfl
@[simp] theorem State.storeWord_bv (a : Nat) (v : Word) : (s.storeWord a v).bv = s.bv := rfl
@[simp] theorem State.storeWord_ecode (a : Nat) (v : Word) : (s.storeWord a v).ecode = s.ecode := rfl
@[simp] theorem State.storeWord_ie (a : Nat) (v : Word) : (s.storeWord a v).ie = s.ie := rfl
@[simp] theorem State.storeWord_res (a : Nat) (v : Word) : (s.storeWord a v).res = s.res := rfl
@[simp] theorem State.storeWord_aux (a : Nat) (v : Word) : (s.storeWord a v).aux = s.aux := rfl
@[simp] theorem State.storeWord_sarg (a : Nat) (v : Word) : (s.storeWord a v).sarg = s.sarg := rfl
@[simp] theorem State.storeWord_textLen (a : Nat) (v : Word) : (s.storeWord a v).textLen = s.textLen := rfl
@[simp] theorem State.storeWord_outLen (a : Nat) (v : Word) : (s.storeWord a v).outLen = s.outLen := rfl
@[simp] theorem State.storeWord_mdim (a : Nat) (v : Word) : (s.storeWord a v).mdim = s.mdim := rfl
@[simp] theorem State.storeWord_vlen (a : Nat) (v : Word) : (s.storeWord a v).vlen = s.vlen := rfl
@[simp] theorem State.storeWord_mem (a : Nat) (v : Word) : (s.storeWord a v).mem = s.mem.writeMany (((List.range 4).map (a + ·)).filter (hasStorage s.params)) (fun x => byteOf v (x - a)) := rfl
@[simp] theorem State.storeWord_held (a : Nat) (v : Word) : (s.storeWord a v).held = s.held := rfl
@[simp] theorem State.storeWord_bus (a : Nat) (v : Word) : (s.storeWord a v).bus = s.bus := rfl
@[simp] theorem State.storeWord_pending (a : Nat) (v : Word) : (s.storeWord a v).pending = s.pending := rfl
@[simp] theorem State.storeWord_now (a : Nat) (v : Word) : (s.storeWord a v).now = s.now := rfl
@[simp] theorem State.storeWord_epoch (a : Nat) (v : Word) : (s.storeWord a v).epoch = s.epoch := rfl

/-! ### setRes -/
@[simp] theorem State.setRes_params (v : Elem) : (s.setRes v).params = s.params := rfl
@[simp] theorem State.setRes_phase (v : Elem) : (s.setRes v).phase = s.phase := rfl
@[simp] theorem State.setRes_cur (v : Elem) : (s.setRes v).cur = s.cur := rfl
@[simp] theorem State.setRes_cmd (v : Elem) : (s.setRes v).cmd = s.cmd := rfl
@[simp] theorem State.setRes_done (v : Elem) : (s.setRes v).done = s.done := rfl
@[simp] theorem State.setRes_err (v : Elem) : (s.setRes v).err = s.err := rfl
@[simp] theorem State.setRes_bv (v : Elem) : (s.setRes v).bv = s.bv := rfl
@[simp] theorem State.setRes_ecode (v : Elem) : (s.setRes v).ecode = s.ecode := rfl
@[simp] theorem State.setRes_ie (v : Elem) : (s.setRes v).ie = s.ie := rfl
@[simp] theorem State.setRes_res (v : Elem) : (s.setRes v).res = v := rfl
@[simp] theorem State.setRes_aux (v : Elem) : (s.setRes v).aux = s.aux := rfl
@[simp] theorem State.setRes_sarg (v : Elem) : (s.setRes v).sarg = s.sarg := rfl
@[simp] theorem State.setRes_textLen (v : Elem) : (s.setRes v).textLen = s.textLen := rfl
@[simp] theorem State.setRes_outLen (v : Elem) : (s.setRes v).outLen = s.outLen := rfl
@[simp] theorem State.setRes_mdim (v : Elem) : (s.setRes v).mdim = s.mdim := rfl
@[simp] theorem State.setRes_vlen (v : Elem) : (s.setRes v).vlen = s.vlen := rfl
@[simp] theorem State.setRes_mem (v : Elem) : (s.setRes v).mem = s.mem := rfl
@[simp] theorem State.setRes_held (v : Elem) : (s.setRes v).held = s.held := rfl
@[simp] theorem State.setRes_bus (v : Elem) : (s.setRes v).bus = s.bus := rfl
@[simp] theorem State.setRes_pending (v : Elem) : (s.setRes v).pending = s.pending := rfl
@[simp] theorem State.setRes_now (v : Elem) : (s.setRes v).now = s.now := rfl
@[simp] theorem State.setRes_epoch (v : Elem) : (s.setRes v).epoch = s.epoch := rfl

/-! ### setAux -/
@[simp] theorem State.setAux_params (v : Word) : (s.setAux v).params = s.params := rfl
@[simp] theorem State.setAux_phase (v : Word) : (s.setAux v).phase = s.phase := rfl
@[simp] theorem State.setAux_cur (v : Word) : (s.setAux v).cur = s.cur := rfl
@[simp] theorem State.setAux_cmd (v : Word) : (s.setAux v).cmd = s.cmd := rfl
@[simp] theorem State.setAux_done (v : Word) : (s.setAux v).done = s.done := rfl
@[simp] theorem State.setAux_err (v : Word) : (s.setAux v).err = s.err := rfl
@[simp] theorem State.setAux_bv (v : Word) : (s.setAux v).bv = s.bv := rfl
@[simp] theorem State.setAux_ecode (v : Word) : (s.setAux v).ecode = s.ecode := rfl
@[simp] theorem State.setAux_ie (v : Word) : (s.setAux v).ie = s.ie := rfl
@[simp] theorem State.setAux_res (v : Word) : (s.setAux v).res = s.res := rfl
@[simp] theorem State.setAux_aux (v : Word) : (s.setAux v).aux = v := rfl
@[simp] theorem State.setAux_sarg (v : Word) : (s.setAux v).sarg = s.sarg := rfl
@[simp] theorem State.setAux_textLen (v : Word) : (s.setAux v).textLen = s.textLen := rfl
@[simp] theorem State.setAux_outLen (v : Word) : (s.setAux v).outLen = s.outLen := rfl
@[simp] theorem State.setAux_mdim (v : Word) : (s.setAux v).mdim = s.mdim := rfl
@[simp] theorem State.setAux_vlen (v : Word) : (s.setAux v).vlen = s.vlen := rfl
@[simp] theorem State.setAux_mem (v : Word) : (s.setAux v).mem = s.mem := rfl
@[simp] theorem State.setAux_held (v : Word) : (s.setAux v).held = s.held := rfl
@[simp] theorem State.setAux_bus (v : Word) : (s.setAux v).bus = s.bus := rfl
@[simp] theorem State.setAux_pending (v : Word) : (s.setAux v).pending = s.pending := rfl
@[simp] theorem State.setAux_now (v : Word) : (s.setAux v).now = s.now := rfl
@[simp] theorem State.setAux_epoch (v : Word) : (s.setAux v).epoch = s.epoch := rfl

/-! ### setSarg -/
@[simp] theorem State.setSarg_params (v : Word) : (s.setSarg v).params = s.params := rfl
@[simp] theorem State.setSarg_phase (v : Word) : (s.setSarg v).phase = s.phase := rfl
@[simp] theorem State.setSarg_cur (v : Word) : (s.setSarg v).cur = s.cur := rfl
@[simp] theorem State.setSarg_cmd (v : Word) : (s.setSarg v).cmd = s.cmd := rfl
@[simp] theorem State.setSarg_done (v : Word) : (s.setSarg v).done = s.done := rfl
@[simp] theorem State.setSarg_err (v : Word) : (s.setSarg v).err = s.err := rfl
@[simp] theorem State.setSarg_bv (v : Word) : (s.setSarg v).bv = s.bv := rfl
@[simp] theorem State.setSarg_ecode (v : Word) : (s.setSarg v).ecode = s.ecode := rfl
@[simp] theorem State.setSarg_ie (v : Word) : (s.setSarg v).ie = s.ie := rfl
@[simp] theorem State.setSarg_res (v : Word) : (s.setSarg v).res = s.res := rfl
@[simp] theorem State.setSarg_aux (v : Word) : (s.setSarg v).aux = s.aux := rfl
@[simp] theorem State.setSarg_sarg (v : Word) : (s.setSarg v).sarg = v := rfl
@[simp] theorem State.setSarg_textLen (v : Word) : (s.setSarg v).textLen = s.textLen := rfl
@[simp] theorem State.setSarg_outLen (v : Word) : (s.setSarg v).outLen = s.outLen := rfl
@[simp] theorem State.setSarg_mdim (v : Word) : (s.setSarg v).mdim = s.mdim := rfl
@[simp] theorem State.setSarg_vlen (v : Word) : (s.setSarg v).vlen = s.vlen := rfl
@[simp] theorem State.setSarg_mem (v : Word) : (s.setSarg v).mem = s.mem := rfl
@[simp] theorem State.setSarg_held (v : Word) : (s.setSarg v).held = s.held := rfl
@[simp] theorem State.setSarg_bus (v : Word) : (s.setSarg v).bus = s.bus := rfl
@[simp] theorem State.setSarg_pending (v : Word) : (s.setSarg v).pending = s.pending := rfl
@[simp] theorem State.setSarg_now (v : Word) : (s.setSarg v).now = s.now := rfl
@[simp] theorem State.setSarg_epoch (v : Word) : (s.setSarg v).epoch = s.epoch := rfl

/-! ### setTextLen -/
@[simp] theorem State.setTextLen_params (v : BitVec 9) : (s.setTextLen v).params = s.params := rfl
@[simp] theorem State.setTextLen_phase (v : BitVec 9) : (s.setTextLen v).phase = s.phase := rfl
@[simp] theorem State.setTextLen_cur (v : BitVec 9) : (s.setTextLen v).cur = s.cur := rfl
@[simp] theorem State.setTextLen_cmd (v : BitVec 9) : (s.setTextLen v).cmd = s.cmd := rfl
@[simp] theorem State.setTextLen_done (v : BitVec 9) : (s.setTextLen v).done = s.done := rfl
@[simp] theorem State.setTextLen_err (v : BitVec 9) : (s.setTextLen v).err = s.err := rfl
@[simp] theorem State.setTextLen_bv (v : BitVec 9) : (s.setTextLen v).bv = s.bv := rfl
@[simp] theorem State.setTextLen_ecode (v : BitVec 9) : (s.setTextLen v).ecode = s.ecode := rfl
@[simp] theorem State.setTextLen_ie (v : BitVec 9) : (s.setTextLen v).ie = s.ie := rfl
@[simp] theorem State.setTextLen_res (v : BitVec 9) : (s.setTextLen v).res = s.res := rfl
@[simp] theorem State.setTextLen_aux (v : BitVec 9) : (s.setTextLen v).aux = s.aux := rfl
@[simp] theorem State.setTextLen_sarg (v : BitVec 9) : (s.setTextLen v).sarg = s.sarg := rfl
@[simp] theorem State.setTextLen_textLen (v : BitVec 9) : (s.setTextLen v).textLen = v := rfl
@[simp] theorem State.setTextLen_outLen (v : BitVec 9) : (s.setTextLen v).outLen = s.outLen := rfl
@[simp] theorem State.setTextLen_mdim (v : BitVec 9) : (s.setTextLen v).mdim = s.mdim := rfl
@[simp] theorem State.setTextLen_vlen (v : BitVec 9) : (s.setTextLen v).vlen = s.vlen := rfl
@[simp] theorem State.setTextLen_mem (v : BitVec 9) : (s.setTextLen v).mem = s.mem := rfl
@[simp] theorem State.setTextLen_held (v : BitVec 9) : (s.setTextLen v).held = s.held := rfl
@[simp] theorem State.setTextLen_bus (v : BitVec 9) : (s.setTextLen v).bus = s.bus := rfl
@[simp] theorem State.setTextLen_pending (v : BitVec 9) : (s.setTextLen v).pending = s.pending := rfl
@[simp] theorem State.setTextLen_now (v : BitVec 9) : (s.setTextLen v).now = s.now := rfl
@[simp] theorem State.setTextLen_epoch (v : BitVec 9) : (s.setTextLen v).epoch = s.epoch := rfl

/-! ### setOutLen -/
@[simp] theorem State.setOutLen_params (v : BitVec 9) : (s.setOutLen v).params = s.params := rfl
@[simp] theorem State.setOutLen_phase (v : BitVec 9) : (s.setOutLen v).phase = s.phase := rfl
@[simp] theorem State.setOutLen_cur (v : BitVec 9) : (s.setOutLen v).cur = s.cur := rfl
@[simp] theorem State.setOutLen_cmd (v : BitVec 9) : (s.setOutLen v).cmd = s.cmd := rfl
@[simp] theorem State.setOutLen_done (v : BitVec 9) : (s.setOutLen v).done = s.done := rfl
@[simp] theorem State.setOutLen_err (v : BitVec 9) : (s.setOutLen v).err = s.err := rfl
@[simp] theorem State.setOutLen_bv (v : BitVec 9) : (s.setOutLen v).bv = s.bv := rfl
@[simp] theorem State.setOutLen_ecode (v : BitVec 9) : (s.setOutLen v).ecode = s.ecode := rfl
@[simp] theorem State.setOutLen_ie (v : BitVec 9) : (s.setOutLen v).ie = s.ie := rfl
@[simp] theorem State.setOutLen_res (v : BitVec 9) : (s.setOutLen v).res = s.res := rfl
@[simp] theorem State.setOutLen_aux (v : BitVec 9) : (s.setOutLen v).aux = s.aux := rfl
@[simp] theorem State.setOutLen_sarg (v : BitVec 9) : (s.setOutLen v).sarg = s.sarg := rfl
@[simp] theorem State.setOutLen_textLen (v : BitVec 9) : (s.setOutLen v).textLen = s.textLen := rfl
@[simp] theorem State.setOutLen_outLen (v : BitVec 9) : (s.setOutLen v).outLen = v := rfl
@[simp] theorem State.setOutLen_mdim (v : BitVec 9) : (s.setOutLen v).mdim = s.mdim := rfl
@[simp] theorem State.setOutLen_vlen (v : BitVec 9) : (s.setOutLen v).vlen = s.vlen := rfl
@[simp] theorem State.setOutLen_mem (v : BitVec 9) : (s.setOutLen v).mem = s.mem := rfl
@[simp] theorem State.setOutLen_held (v : BitVec 9) : (s.setOutLen v).held = s.held := rfl
@[simp] theorem State.setOutLen_bus (v : BitVec 9) : (s.setOutLen v).bus = s.bus := rfl
@[simp] theorem State.setOutLen_pending (v : BitVec 9) : (s.setOutLen v).pending = s.pending := rfl
@[simp] theorem State.setOutLen_now (v : BitVec 9) : (s.setOutLen v).now = s.now := rfl
@[simp] theorem State.setOutLen_epoch (v : BitVec 9) : (s.setOutLen v).epoch = s.epoch := rfl

/-! ### setIe -/
@[simp] theorem State.setIe_params (v : Bool) : (s.setIe v).params = s.params := rfl
@[simp] theorem State.setIe_phase (v : Bool) : (s.setIe v).phase = s.phase := rfl
@[simp] theorem State.setIe_cur (v : Bool) : (s.setIe v).cur = s.cur := rfl
@[simp] theorem State.setIe_cmd (v : Bool) : (s.setIe v).cmd = s.cmd := rfl
@[simp] theorem State.setIe_done (v : Bool) : (s.setIe v).done = s.done := rfl
@[simp] theorem State.setIe_err (v : Bool) : (s.setIe v).err = s.err := rfl
@[simp] theorem State.setIe_bv (v : Bool) : (s.setIe v).bv = s.bv := rfl
@[simp] theorem State.setIe_ecode (v : Bool) : (s.setIe v).ecode = s.ecode := rfl
@[simp] theorem State.setIe_ie (v : Bool) : (s.setIe v).ie = v := rfl
@[simp] theorem State.setIe_res (v : Bool) : (s.setIe v).res = s.res := rfl
@[simp] theorem State.setIe_aux (v : Bool) : (s.setIe v).aux = s.aux := rfl
@[simp] theorem State.setIe_sarg (v : Bool) : (s.setIe v).sarg = s.sarg := rfl
@[simp] theorem State.setIe_textLen (v : Bool) : (s.setIe v).textLen = s.textLen := rfl
@[simp] theorem State.setIe_outLen (v : Bool) : (s.setIe v).outLen = s.outLen := rfl
@[simp] theorem State.setIe_mdim (v : Bool) : (s.setIe v).mdim = s.mdim := rfl
@[simp] theorem State.setIe_vlen (v : Bool) : (s.setIe v).vlen = s.vlen := rfl
@[simp] theorem State.setIe_mem (v : Bool) : (s.setIe v).mem = s.mem := rfl
@[simp] theorem State.setIe_held (v : Bool) : (s.setIe v).held = s.held := rfl
@[simp] theorem State.setIe_bus (v : Bool) : (s.setIe v).bus = s.bus := rfl
@[simp] theorem State.setIe_pending (v : Bool) : (s.setIe v).pending = s.pending := rfl
@[simp] theorem State.setIe_now (v : Bool) : (s.setIe v).now = s.now := rfl
@[simp] theorem State.setIe_epoch (v : Bool) : (s.setIe v).epoch = s.epoch := rfl

/-! ### setMdim -/
@[simp] theorem State.setMdim_params (i : Fin 4) (v : BitVec 8) : (s.setMdim i v).params = s.params := rfl
@[simp] theorem State.setMdim_phase (i : Fin 4) (v : BitVec 8) : (s.setMdim i v).phase = s.phase := rfl
@[simp] theorem State.setMdim_cur (i : Fin 4) (v : BitVec 8) : (s.setMdim i v).cur = s.cur := rfl
@[simp] theorem State.setMdim_cmd (i : Fin 4) (v : BitVec 8) : (s.setMdim i v).cmd = s.cmd := rfl
@[simp] theorem State.setMdim_done (i : Fin 4) (v : BitVec 8) : (s.setMdim i v).done = s.done := rfl
@[simp] theorem State.setMdim_err (i : Fin 4) (v : BitVec 8) : (s.setMdim i v).err = s.err := rfl
@[simp] theorem State.setMdim_bv (i : Fin 4) (v : BitVec 8) : (s.setMdim i v).bv = s.bv := rfl
@[simp] theorem State.setMdim_ecode (i : Fin 4) (v : BitVec 8) : (s.setMdim i v).ecode = s.ecode := rfl
@[simp] theorem State.setMdim_ie (i : Fin 4) (v : BitVec 8) : (s.setMdim i v).ie = s.ie := rfl
@[simp] theorem State.setMdim_res (i : Fin 4) (v : BitVec 8) : (s.setMdim i v).res = s.res := rfl
@[simp] theorem State.setMdim_aux (i : Fin 4) (v : BitVec 8) : (s.setMdim i v).aux = s.aux := rfl
@[simp] theorem State.setMdim_sarg (i : Fin 4) (v : BitVec 8) : (s.setMdim i v).sarg = s.sarg := rfl
@[simp] theorem State.setMdim_textLen (i : Fin 4) (v : BitVec 8) : (s.setMdim i v).textLen = s.textLen := rfl
@[simp] theorem State.setMdim_outLen (i : Fin 4) (v : BitVec 8) : (s.setMdim i v).outLen = s.outLen := rfl
@[simp] theorem State.setMdim_mdim (i : Fin 4) (v : BitVec 8) : (s.setMdim i v).mdim = s.mdim.set i v := rfl
@[simp] theorem State.setMdim_vlen (i : Fin 4) (v : BitVec 8) : (s.setMdim i v).vlen = s.vlen := rfl
@[simp] theorem State.setMdim_mem (i : Fin 4) (v : BitVec 8) : (s.setMdim i v).mem = s.mem := rfl
@[simp] theorem State.setMdim_held (i : Fin 4) (v : BitVec 8) : (s.setMdim i v).held = s.held := rfl
@[simp] theorem State.setMdim_bus (i : Fin 4) (v : BitVec 8) : (s.setMdim i v).bus = s.bus := rfl
@[simp] theorem State.setMdim_pending (i : Fin 4) (v : BitVec 8) : (s.setMdim i v).pending = s.pending := rfl
@[simp] theorem State.setMdim_now (i : Fin 4) (v : BitVec 8) : (s.setMdim i v).now = s.now := rfl
@[simp] theorem State.setMdim_epoch (i : Fin 4) (v : BitVec 8) : (s.setMdim i v).epoch = s.epoch := rfl

/-! ### setVlen -/
@[simp] theorem State.setVlen_params (j : Fin 2) (v : BitVec 4) : (s.setVlen j v).params = s.params := rfl
@[simp] theorem State.setVlen_phase (j : Fin 2) (v : BitVec 4) : (s.setVlen j v).phase = s.phase := rfl
@[simp] theorem State.setVlen_cur (j : Fin 2) (v : BitVec 4) : (s.setVlen j v).cur = s.cur := rfl
@[simp] theorem State.setVlen_cmd (j : Fin 2) (v : BitVec 4) : (s.setVlen j v).cmd = s.cmd := rfl
@[simp] theorem State.setVlen_done (j : Fin 2) (v : BitVec 4) : (s.setVlen j v).done = s.done := rfl
@[simp] theorem State.setVlen_err (j : Fin 2) (v : BitVec 4) : (s.setVlen j v).err = s.err := rfl
@[simp] theorem State.setVlen_bv (j : Fin 2) (v : BitVec 4) : (s.setVlen j v).bv = s.bv := rfl
@[simp] theorem State.setVlen_ecode (j : Fin 2) (v : BitVec 4) : (s.setVlen j v).ecode = s.ecode := rfl
@[simp] theorem State.setVlen_ie (j : Fin 2) (v : BitVec 4) : (s.setVlen j v).ie = s.ie := rfl
@[simp] theorem State.setVlen_res (j : Fin 2) (v : BitVec 4) : (s.setVlen j v).res = s.res := rfl
@[simp] theorem State.setVlen_aux (j : Fin 2) (v : BitVec 4) : (s.setVlen j v).aux = s.aux := rfl
@[simp] theorem State.setVlen_sarg (j : Fin 2) (v : BitVec 4) : (s.setVlen j v).sarg = s.sarg := rfl
@[simp] theorem State.setVlen_textLen (j : Fin 2) (v : BitVec 4) : (s.setVlen j v).textLen = s.textLen := rfl
@[simp] theorem State.setVlen_outLen (j : Fin 2) (v : BitVec 4) : (s.setVlen j v).outLen = s.outLen := rfl
@[simp] theorem State.setVlen_mdim (j : Fin 2) (v : BitVec 4) : (s.setVlen j v).mdim = s.mdim := rfl
@[simp] theorem State.setVlen_vlen (j : Fin 2) (v : BitVec 4) : (s.setVlen j v).vlen = s.vlen.set j v := rfl
@[simp] theorem State.setVlen_mem (j : Fin 2) (v : BitVec 4) : (s.setVlen j v).mem = s.mem := rfl
@[simp] theorem State.setVlen_held (j : Fin 2) (v : BitVec 4) : (s.setVlen j v).held = s.held := rfl
@[simp] theorem State.setVlen_bus (j : Fin 2) (v : BitVec 4) : (s.setVlen j v).bus = s.bus := rfl
@[simp] theorem State.setVlen_pending (j : Fin 2) (v : BitVec 4) : (s.setVlen j v).pending = s.pending := rfl
@[simp] theorem State.setVlen_now (j : Fin 2) (v : BitVec 4) : (s.setVlen j v).now = s.now := rfl
@[simp] theorem State.setVlen_epoch (j : Fin 2) (v : BitVec 4) : (s.setVlen j v).epoch = s.epoch := rfl

/-! ### accept -/
@[simp] theorem State.accept_params (w : Word) (n : Nat) : (s.accept w n).params = s.params := rfl
@[simp] theorem State.accept_phase (w : Word) (n : Nat) : (s.accept w n).phase = .busy (n + 1) := rfl
@[simp] theorem State.accept_cur (w : Word) (n : Nat) : (s.accept w n).cur = w := rfl
@[simp] theorem State.accept_cmd (w : Word) (n : Nat) : (s.accept w n).cmd = w := rfl
@[simp] theorem State.accept_done (w : Word) (n : Nat) : (s.accept w n).done = s.done := rfl
@[simp] theorem State.accept_err (w : Word) (n : Nat) : (s.accept w n).err = s.err := rfl
@[simp] theorem State.accept_bv (w : Word) (n : Nat) : (s.accept w n).bv = s.bv := rfl
@[simp] theorem State.accept_ecode (w : Word) (n : Nat) : (s.accept w n).ecode = s.ecode := rfl
@[simp] theorem State.accept_ie (w : Word) (n : Nat) : (s.accept w n).ie = s.ie := rfl
@[simp] theorem State.accept_res (w : Word) (n : Nat) : (s.accept w n).res = s.res := rfl
@[simp] theorem State.accept_aux (w : Word) (n : Nat) : (s.accept w n).aux = s.aux := rfl
@[simp] theorem State.accept_sarg (w : Word) (n : Nat) : (s.accept w n).sarg = s.sarg := rfl
@[simp] theorem State.accept_textLen (w : Word) (n : Nat) : (s.accept w n).textLen = s.textLen := rfl
@[simp] theorem State.accept_outLen (w : Word) (n : Nat) : (s.accept w n).outLen = s.outLen := rfl
@[simp] theorem State.accept_mdim (w : Word) (n : Nat) : (s.accept w n).mdim = s.mdim := rfl
@[simp] theorem State.accept_vlen (w : Word) (n : Nat) : (s.accept w n).vlen = s.vlen := rfl
@[simp] theorem State.accept_mem (w : Word) (n : Nat) : (s.accept w n).mem = s.mem := rfl
@[simp] theorem State.accept_held (w : Word) (n : Nat) : (s.accept w n).held = s.held := rfl
@[simp] theorem State.accept_bus (w : Word) (n : Nat) : (s.accept w n).bus = s.bus := rfl
@[simp] theorem State.accept_pending (w : Word) (n : Nat) : (s.accept w n).pending = s.pending := rfl
@[simp] theorem State.accept_now (w : Word) (n : Nat) : (s.accept w n).now = s.now := rfl
@[simp] theorem State.accept_epoch (w : Word) (n : Nat) : (s.accept w n).epoch = s.epoch := rfl

/-! ### wait -/
@[simp] theorem State.wait_params (n : Nat) : (s.wait n).params = s.params := rfl
@[simp] theorem State.wait_phase (n : Nat) : (s.wait n).phase = .busy n := rfl
@[simp] theorem State.wait_cur (n : Nat) : (s.wait n).cur = s.cur := rfl
@[simp] theorem State.wait_cmd (n : Nat) : (s.wait n).cmd = s.cmd := rfl
@[simp] theorem State.wait_done (n : Nat) : (s.wait n).done = s.done := rfl
@[simp] theorem State.wait_err (n : Nat) : (s.wait n).err = s.err := rfl
@[simp] theorem State.wait_bv (n : Nat) : (s.wait n).bv = s.bv := rfl
@[simp] theorem State.wait_ecode (n : Nat) : (s.wait n).ecode = s.ecode := rfl
@[simp] theorem State.wait_ie (n : Nat) : (s.wait n).ie = s.ie := rfl
@[simp] theorem State.wait_res (n : Nat) : (s.wait n).res = s.res := rfl
@[simp] theorem State.wait_aux (n : Nat) : (s.wait n).aux = s.aux := rfl
@[simp] theorem State.wait_sarg (n : Nat) : (s.wait n).sarg = s.sarg := rfl
@[simp] theorem State.wait_textLen (n : Nat) : (s.wait n).textLen = s.textLen := rfl
@[simp] theorem State.wait_outLen (n : Nat) : (s.wait n).outLen = s.outLen := rfl
@[simp] theorem State.wait_mdim (n : Nat) : (s.wait n).mdim = s.mdim := rfl
@[simp] theorem State.wait_vlen (n : Nat) : (s.wait n).vlen = s.vlen := rfl
@[simp] theorem State.wait_mem (n : Nat) : (s.wait n).mem = s.mem := rfl
@[simp] theorem State.wait_held (n : Nat) : (s.wait n).held = s.held := rfl
@[simp] theorem State.wait_bus (n : Nat) : (s.wait n).bus = s.bus := rfl
@[simp] theorem State.wait_pending (n : Nat) : (s.wait n).pending = s.pending := rfl
@[simp] theorem State.wait_now (n : Nat) : (s.wait n).now = s.now := rfl
@[simp] theorem State.wait_epoch (n : Nat) : (s.wait n).epoch = s.epoch := rfl

/-! ### softReset -/
@[simp] theorem State.softReset_params : (s.softReset).params = s.params := rfl
@[simp] theorem State.softReset_phase : (s.softReset).phase = .idle := rfl
@[simp] theorem State.softReset_cur : (s.softReset).cur = 0 := rfl
@[simp] theorem State.softReset_cmd : (s.softReset).cmd = 0 := rfl
@[simp] theorem State.softReset_done : (s.softReset).done = false := rfl
@[simp] theorem State.softReset_err : (s.softReset).err = false := rfl
@[simp] theorem State.softReset_bv : (s.softReset).bv = false := rfl
@[simp] theorem State.softReset_ecode : (s.softReset).ecode = none := rfl
@[simp] theorem State.softReset_ie : (s.softReset).ie = false := rfl
@[simp] theorem State.softReset_res : (s.softReset).res = 0 := rfl
@[simp] theorem State.softReset_aux : (s.softReset).aux = 0 := rfl
@[simp] theorem State.softReset_sarg : (s.softReset).sarg = 0 := rfl
@[simp] theorem State.softReset_textLen : (s.softReset).textLen = 0 := rfl
@[simp] theorem State.softReset_outLen : (s.softReset).outLen = 0 := rfl
@[simp] theorem State.softReset_mdim : (s.softReset).mdim = #v[0, 0, 0, 0] := rfl
@[simp] theorem State.softReset_vlen : (s.softReset).vlen = #v[0, 0] := rfl
@[simp] theorem State.softReset_mem : (s.softReset).mem = s.mem := rfl
@[simp] theorem State.softReset_held : (s.softReset).held = s.held := rfl
@[simp] theorem State.softReset_bus : (s.softReset).bus = s.bus := rfl
@[simp] theorem State.softReset_pending : (s.softReset).pending = s.pending := rfl
@[simp] theorem State.softReset_now : (s.softReset).now = s.now := rfl
@[simp] theorem State.softReset_epoch : (s.softReset).epoch = s.epoch := rfl

/-! ### powerOn -/
@[simp] theorem State.powerOn_params : (s.powerOn).params = s.params := rfl
@[simp] theorem State.powerOn_phase : (s.powerOn).phase = .idle := rfl
@[simp] theorem State.powerOn_cur : (s.powerOn).cur = 0 := rfl
@[simp] theorem State.powerOn_cmd : (s.powerOn).cmd = 0 := rfl
@[simp] theorem State.powerOn_done : (s.powerOn).done = false := rfl
@[simp] theorem State.powerOn_err : (s.powerOn).err = false := rfl
@[simp] theorem State.powerOn_bv : (s.powerOn).bv = false := rfl
@[simp] theorem State.powerOn_ecode : (s.powerOn).ecode = none := rfl
@[simp] theorem State.powerOn_ie : (s.powerOn).ie = false := rfl
@[simp] theorem State.powerOn_res : (s.powerOn).res = 0 := rfl
@[simp] theorem State.powerOn_aux : (s.powerOn).aux = 0 := rfl
@[simp] theorem State.powerOn_sarg : (s.powerOn).sarg = 0 := rfl
@[simp] theorem State.powerOn_textLen : (s.powerOn).textLen = 0 := rfl
@[simp] theorem State.powerOn_outLen : (s.powerOn).outLen = 0 := rfl
@[simp] theorem State.powerOn_mdim : (s.powerOn).mdim = #v[0, 0, 0, 0] := rfl
@[simp] theorem State.powerOn_vlen : (s.powerOn).vlen = #v[0, 0] := rfl
@[simp] theorem State.powerOn_mem : (s.powerOn).mem = [] := rfl
@[simp] theorem State.powerOn_held : (s.powerOn).held = none := rfl
@[simp] theorem State.powerOn_bus : (s.powerOn).bus = none := rfl
@[simp] theorem State.powerOn_pending : (s.powerOn).pending = s.pending := rfl
@[simp] theorem State.powerOn_now : (s.powerOn).now = s.now := rfl
@[simp] theorem State.powerOn_epoch : (s.powerOn).epoch = s.epoch + 1 := rfl

/-! ### writeMat -/
@[simp] theorem State.writeMat_params (d : Fin 4) (X : Mat) : (s.writeMat d X).params = s.params := rfl
@[simp] theorem State.writeMat_phase (d : Fin 4) (X : Mat) : (s.writeMat d X).phase = s.phase := rfl
@[simp] theorem State.writeMat_cur (d : Fin 4) (X : Mat) : (s.writeMat d X).cur = s.cur := rfl
@[simp] theorem State.writeMat_cmd (d : Fin 4) (X : Mat) : (s.writeMat d X).cmd = s.cmd := rfl
@[simp] theorem State.writeMat_done (d : Fin 4) (X : Mat) : (s.writeMat d X).done = s.done := rfl
@[simp] theorem State.writeMat_err (d : Fin 4) (X : Mat) : (s.writeMat d X).err = s.err := rfl
@[simp] theorem State.writeMat_bv (d : Fin 4) (X : Mat) : (s.writeMat d X).bv = s.bv := rfl
@[simp] theorem State.writeMat_ecode (d : Fin 4) (X : Mat) : (s.writeMat d X).ecode = s.ecode := rfl
@[simp] theorem State.writeMat_ie (d : Fin 4) (X : Mat) : (s.writeMat d X).ie = s.ie := rfl
@[simp] theorem State.writeMat_res (d : Fin 4) (X : Mat) : (s.writeMat d X).res = s.res := rfl
@[simp] theorem State.writeMat_aux (d : Fin 4) (X : Mat) : (s.writeMat d X).aux = s.aux := rfl
@[simp] theorem State.writeMat_sarg (d : Fin 4) (X : Mat) : (s.writeMat d X).sarg = s.sarg := rfl
@[simp] theorem State.writeMat_textLen (d : Fin 4) (X : Mat) : (s.writeMat d X).textLen = s.textLen := rfl
@[simp] theorem State.writeMat_outLen (d : Fin 4) (X : Mat) : (s.writeMat d X).outLen = s.outLen := rfl
@[simp] theorem State.writeMat_mdim (d : Fin 4) (X : Mat) : (s.writeMat d X).mdim = s.mdim.set d X.dims := rfl
@[simp] theorem State.writeMat_vlen (d : Fin 4) (X : Mat) : (s.writeMat d X).vlen = s.vlen := rfl
@[simp] theorem State.writeMat_mem (d : Fin 4) (X : Mat) : (s.writeMat d X).mem = s.mem.writeMany (matBytes s.params d) X.byteAt := rfl
@[simp] theorem State.writeMat_held (d : Fin 4) (X : Mat) : (s.writeMat d X).held = s.held := rfl
@[simp] theorem State.writeMat_bus (d : Fin 4) (X : Mat) : (s.writeMat d X).bus = s.bus := rfl
@[simp] theorem State.writeMat_pending (d : Fin 4) (X : Mat) : (s.writeMat d X).pending = s.pending := rfl
@[simp] theorem State.writeMat_now (d : Fin 4) (X : Mat) : (s.writeMat d X).now = s.now := rfl
@[simp] theorem State.writeMat_epoch (d : Fin 4) (X : Mat) : (s.writeMat d X).epoch = s.epoch := rfl

/-! ### writeVec -/
@[simp] theorem State.writeVec_params (d : Fin 2) (x : Vec) : (s.writeVec d x).params = s.params := rfl
@[simp] theorem State.writeVec_phase (d : Fin 2) (x : Vec) : (s.writeVec d x).phase = s.phase := rfl
@[simp] theorem State.writeVec_cur (d : Fin 2) (x : Vec) : (s.writeVec d x).cur = s.cur := rfl
@[simp] theorem State.writeVec_cmd (d : Fin 2) (x : Vec) : (s.writeVec d x).cmd = s.cmd := rfl
@[simp] theorem State.writeVec_done (d : Fin 2) (x : Vec) : (s.writeVec d x).done = s.done := rfl
@[simp] theorem State.writeVec_err (d : Fin 2) (x : Vec) : (s.writeVec d x).err = s.err := rfl
@[simp] theorem State.writeVec_bv (d : Fin 2) (x : Vec) : (s.writeVec d x).bv = s.bv := rfl
@[simp] theorem State.writeVec_ecode (d : Fin 2) (x : Vec) : (s.writeVec d x).ecode = s.ecode := rfl
@[simp] theorem State.writeVec_ie (d : Fin 2) (x : Vec) : (s.writeVec d x).ie = s.ie := rfl
@[simp] theorem State.writeVec_res (d : Fin 2) (x : Vec) : (s.writeVec d x).res = s.res := rfl
@[simp] theorem State.writeVec_aux (d : Fin 2) (x : Vec) : (s.writeVec d x).aux = s.aux := rfl
@[simp] theorem State.writeVec_sarg (d : Fin 2) (x : Vec) : (s.writeVec d x).sarg = s.sarg := rfl
@[simp] theorem State.writeVec_textLen (d : Fin 2) (x : Vec) : (s.writeVec d x).textLen = s.textLen := rfl
@[simp] theorem State.writeVec_outLen (d : Fin 2) (x : Vec) : (s.writeVec d x).outLen = s.outLen := rfl
@[simp] theorem State.writeVec_mdim (d : Fin 2) (x : Vec) : (s.writeVec d x).mdim = s.mdim := rfl
@[simp] theorem State.writeVec_vlen (d : Fin 2) (x : Vec) : (s.writeVec d x).vlen = s.vlen.set d (BitVec.ofNat 4 x.len) := rfl
@[simp] theorem State.writeVec_mem (d : Fin 2) (x : Vec) : (s.writeVec d x).mem = s.mem.writeMany (vecBytes s.params d) x.byteAt := rfl
@[simp] theorem State.writeVec_held (d : Fin 2) (x : Vec) : (s.writeVec d x).held = s.held := rfl
@[simp] theorem State.writeVec_bus (d : Fin 2) (x : Vec) : (s.writeVec d x).bus = s.bus := rfl
@[simp] theorem State.writeVec_pending (d : Fin 2) (x : Vec) : (s.writeVec d x).pending = s.pending := rfl
@[simp] theorem State.writeVec_now (d : Fin 2) (x : Vec) : (s.writeVec d x).now = s.now := rfl
@[simp] theorem State.writeVec_epoch (d : Fin 2) (x : Vec) : (s.writeVec d x).epoch = s.epoch := rfl

/-! ### writeOut -/
@[simp] theorem State.writeOut_params (t : List Byte) : (s.writeOut t).params = s.params := rfl
@[simp] theorem State.writeOut_phase (t : List Byte) : (s.writeOut t).phase = s.phase := rfl
@[simp] theorem State.writeOut_cur (t : List Byte) : (s.writeOut t).cur = s.cur := rfl
@[simp] theorem State.writeOut_cmd (t : List Byte) : (s.writeOut t).cmd = s.cmd := rfl
@[simp] theorem State.writeOut_done (t : List Byte) : (s.writeOut t).done = s.done := rfl
@[simp] theorem State.writeOut_err (t : List Byte) : (s.writeOut t).err = s.err := rfl
@[simp] theorem State.writeOut_bv (t : List Byte) : (s.writeOut t).bv = s.bv := rfl
@[simp] theorem State.writeOut_ecode (t : List Byte) : (s.writeOut t).ecode = s.ecode := rfl
@[simp] theorem State.writeOut_ie (t : List Byte) : (s.writeOut t).ie = s.ie := rfl
@[simp] theorem State.writeOut_res (t : List Byte) : (s.writeOut t).res = s.res := rfl
@[simp] theorem State.writeOut_aux (t : List Byte) : (s.writeOut t).aux = s.aux := rfl
@[simp] theorem State.writeOut_sarg (t : List Byte) : (s.writeOut t).sarg = s.sarg := rfl
@[simp] theorem State.writeOut_textLen (t : List Byte) : (s.writeOut t).textLen = s.textLen := rfl
@[simp] theorem State.writeOut_outLen (t : List Byte) : (s.writeOut t).outLen = BitVec.ofNat 9 t.length := rfl
@[simp] theorem State.writeOut_mdim (t : List Byte) : (s.writeOut t).mdim = s.mdim := rfl
@[simp] theorem State.writeOut_vlen (t : List Byte) : (s.writeOut t).vlen = s.vlen := rfl
@[simp] theorem State.writeOut_mem (t : List Byte) : (s.writeOut t).mem = s.mem.writeMany (outBytes t.length) (fun a => t.getD (a - outBase) 0) := rfl
@[simp] theorem State.writeOut_held (t : List Byte) : (s.writeOut t).held = s.held := rfl
@[simp] theorem State.writeOut_bus (t : List Byte) : (s.writeOut t).bus = s.bus := rfl
@[simp] theorem State.writeOut_pending (t : List Byte) : (s.writeOut t).pending = s.pending := rfl
@[simp] theorem State.writeOut_now (t : List Byte) : (s.writeOut t).now = s.now := rfl
@[simp] theorem State.writeOut_epoch (t : List Byte) : (s.writeOut t).epoch = s.epoch := rfl

/-! ### begin -/
@[simp] theorem State.begin_params : (s.begin).params = s.params := rfl
@[simp] theorem State.begin_phase : (s.begin).phase = s.phase := rfl
@[simp] theorem State.begin_cur : (s.begin).cur = s.cur := rfl
@[simp] theorem State.begin_cmd : (s.begin).cmd = s.cmd := rfl
@[simp] theorem State.begin_done : (s.begin).done = s.done := rfl
@[simp] theorem State.begin_err : (s.begin).err = s.err := rfl
@[simp] theorem State.begin_bv : (s.begin).bv = s.bv := rfl
@[simp] theorem State.begin_ecode : (s.begin).ecode = s.ecode := rfl
@[simp] theorem State.begin_ie : (s.begin).ie = s.ie := rfl
@[simp] theorem State.begin_res : (s.begin).res = s.res := rfl
@[simp] theorem State.begin_aux : (s.begin).aux = s.aux := rfl
@[simp] theorem State.begin_sarg : (s.begin).sarg = s.sarg := rfl
@[simp] theorem State.begin_textLen : (s.begin).textLen = s.textLen := rfl
@[simp] theorem State.begin_outLen : (s.begin).outLen = s.outLen := rfl
@[simp] theorem State.begin_mdim : (s.begin).mdim = s.mdim := rfl
@[simp] theorem State.begin_vlen : (s.begin).vlen = s.vlen := rfl
@[simp] theorem State.begin_mem : (s.begin).mem = s.mem := rfl
@[simp] theorem State.begin_held : (s.begin).held = s.held := rfl
@[simp] theorem State.begin_bus : (s.begin).bus = none := rfl
@[simp] theorem State.begin_pending : (s.begin).pending = s.pending.tail := rfl
@[simp] theorem State.begin_now : (s.begin).now = s.now + 1 := rfl
@[simp] theorem State.begin_epoch : (s.begin).epoch = s.epoch := rfl

/-! ### hold -/
@[simp] theorem State.hold_params (h : Held) : (s.hold h).params = s.params := rfl
@[simp] theorem State.hold_phase (h : Held) : (s.hold h).phase = s.phase := rfl
@[simp] theorem State.hold_cur (h : Held) : (s.hold h).cur = s.cur := rfl
@[simp] theorem State.hold_cmd (h : Held) : (s.hold h).cmd = s.cmd := rfl
@[simp] theorem State.hold_done (h : Held) : (s.hold h).done = s.done := rfl
@[simp] theorem State.hold_err (h : Held) : (s.hold h).err = s.err := rfl
@[simp] theorem State.hold_bv (h : Held) : (s.hold h).bv = s.bv := rfl
@[simp] theorem State.hold_ecode (h : Held) : (s.hold h).ecode = s.ecode := rfl
@[simp] theorem State.hold_ie (h : Held) : (s.hold h).ie = s.ie := rfl
@[simp] theorem State.hold_res (h : Held) : (s.hold h).res = s.res := rfl
@[simp] theorem State.hold_aux (h : Held) : (s.hold h).aux = s.aux := rfl
@[simp] theorem State.hold_sarg (h : Held) : (s.hold h).sarg = s.sarg := rfl
@[simp] theorem State.hold_textLen (h : Held) : (s.hold h).textLen = s.textLen := rfl
@[simp] theorem State.hold_outLen (h : Held) : (s.hold h).outLen = s.outLen := rfl
@[simp] theorem State.hold_mdim (h : Held) : (s.hold h).mdim = s.mdim := rfl
@[simp] theorem State.hold_vlen (h : Held) : (s.hold h).vlen = s.vlen := rfl
@[simp] theorem State.hold_mem (h : Held) : (s.hold h).mem = s.mem := rfl
@[simp] theorem State.hold_held (h : Held) : (s.hold h).held = some h := rfl
@[simp] theorem State.hold_bus (h : Held) : (s.hold h).bus = s.bus := rfl
@[simp] theorem State.hold_pending (h : Held) : (s.hold h).pending = s.pending := rfl
@[simp] theorem State.hold_now (h : Held) : (s.hold h).now = s.now := rfl
@[simp] theorem State.hold_epoch (h : Held) : (s.hold h).epoch = s.epoch := rfl

/-! ### acknowledge -/
@[simp] theorem State.acknowledge_params (r : Request) (extra : Nat) : (s.acknowledge r extra).params = (transactState r extra s).params := rfl
@[simp] theorem State.acknowledge_phase (r : Request) (extra : Nat) : (s.acknowledge r extra).phase = (transactState r extra s).phase := rfl
@[simp] theorem State.acknowledge_cur (r : Request) (extra : Nat) : (s.acknowledge r extra).cur = (transactState r extra s).cur := rfl
@[simp] theorem State.acknowledge_cmd (r : Request) (extra : Nat) : (s.acknowledge r extra).cmd = (transactState r extra s).cmd := rfl
@[simp] theorem State.acknowledge_done (r : Request) (extra : Nat) : (s.acknowledge r extra).done = (transactState r extra s).done := rfl
@[simp] theorem State.acknowledge_err (r : Request) (extra : Nat) : (s.acknowledge r extra).err = (transactState r extra s).err := rfl
@[simp] theorem State.acknowledge_bv (r : Request) (extra : Nat) : (s.acknowledge r extra).bv = (transactState r extra s).bv := rfl
@[simp] theorem State.acknowledge_ecode (r : Request) (extra : Nat) : (s.acknowledge r extra).ecode = (transactState r extra s).ecode := rfl
@[simp] theorem State.acknowledge_ie (r : Request) (extra : Nat) : (s.acknowledge r extra).ie = (transactState r extra s).ie := rfl
@[simp] theorem State.acknowledge_res (r : Request) (extra : Nat) : (s.acknowledge r extra).res = (transactState r extra s).res := rfl
@[simp] theorem State.acknowledge_aux (r : Request) (extra : Nat) : (s.acknowledge r extra).aux = (transactState r extra s).aux := rfl
@[simp] theorem State.acknowledge_sarg (r : Request) (extra : Nat) : (s.acknowledge r extra).sarg = (transactState r extra s).sarg := rfl
@[simp] theorem State.acknowledge_textLen (r : Request) (extra : Nat) : (s.acknowledge r extra).textLen = (transactState r extra s).textLen := rfl
@[simp] theorem State.acknowledge_outLen (r : Request) (extra : Nat) : (s.acknowledge r extra).outLen = (transactState r extra s).outLen := rfl
@[simp] theorem State.acknowledge_mdim (r : Request) (extra : Nat) : (s.acknowledge r extra).mdim = (transactState r extra s).mdim := rfl
@[simp] theorem State.acknowledge_vlen (r : Request) (extra : Nat) : (s.acknowledge r extra).vlen = (transactState r extra s).vlen := rfl
@[simp] theorem State.acknowledge_mem (r : Request) (extra : Nat) : (s.acknowledge r extra).mem = (transactState r extra s).mem := rfl
@[simp] theorem State.acknowledge_held (r : Request) (extra : Nat) : (s.acknowledge r extra).held = none := rfl
@[simp] theorem State.acknowledge_bus (r : Request) (extra : Nat) : (s.acknowledge r extra).bus = some (transactResponse r s) := rfl
@[simp] theorem State.acknowledge_pending (r : Request) (extra : Nat) : (s.acknowledge r extra).pending = (transactState r extra s).pending := rfl
@[simp] theorem State.acknowledge_now (r : Request) (extra : Nat) : (s.acknowledge r extra).now = (transactState r extra s).now := rfl
@[simp] theorem State.acknowledge_epoch (r : Request) (extra : Nat) : (s.acknowledge r extra).epoch = (transactState r extra s).epoch := rfl

/-! ### latch -/
@[simp] theorem State.latch_params (w : Word) : (s.latch w).params = s.params := rfl
@[simp] theorem State.latch_phase (w : Word) : (s.latch w).phase = .busy 1 := rfl
@[simp] theorem State.latch_cur (w : Word) : (s.latch w).cur = w := rfl
@[simp] theorem State.latch_cmd (w : Word) : (s.latch w).cmd = w := rfl
@[simp] theorem State.latch_done (w : Word) : (s.latch w).done = s.done := rfl
@[simp] theorem State.latch_err (w : Word) : (s.latch w).err = s.err := rfl
@[simp] theorem State.latch_bv (w : Word) : (s.latch w).bv = s.bv := rfl
@[simp] theorem State.latch_ecode (w : Word) : (s.latch w).ecode = s.ecode := rfl
@[simp] theorem State.latch_ie (w : Word) : (s.latch w).ie = s.ie := rfl
@[simp] theorem State.latch_res (w : Word) : (s.latch w).res = s.res := rfl
@[simp] theorem State.latch_aux (w : Word) : (s.latch w).aux = s.aux := rfl
@[simp] theorem State.latch_sarg (w : Word) : (s.latch w).sarg = s.sarg := rfl
@[simp] theorem State.latch_textLen (w : Word) : (s.latch w).textLen = s.textLen := rfl
@[simp] theorem State.latch_outLen (w : Word) : (s.latch w).outLen = s.outLen := rfl
@[simp] theorem State.latch_mdim (w : Word) : (s.latch w).mdim = s.mdim := rfl
@[simp] theorem State.latch_vlen (w : Word) : (s.latch w).vlen = s.vlen := rfl
@[simp] theorem State.latch_mem (w : Word) : (s.latch w).mem = s.mem := rfl
@[simp] theorem State.latch_held (w : Word) : (s.latch w).held = none := rfl
@[simp] theorem State.latch_bus (w : Word) : (s.latch w).bus = s.bus := rfl
@[simp] theorem State.latch_pending (w : Word) : (s.latch w).pending = [] := rfl
@[simp] theorem State.latch_now (w : Word) : (s.latch w).now = s.now := rfl
@[simp] theorem State.latch_epoch (w : Word) : (s.latch w).epoch = s.epoch := rfl

/-! ### The request on the bus -/
@[simp] theorem Cycle.raise_request (c : Cycle) (r : Request) : (c.raise r).request = r := rfl
@[simp] theorem Cycle.raise_remaining (c : Cycle) (r : Request) : (c.raise r).remaining = c.extraAck + 1 := rfl
@[simp] theorem Cycle.raise_extraLatency (c : Cycle) (r : Request) : (c.raise r).extraLatency = c.extraLatency := rfl
@[simp] theorem Held.wait_request (h : Held) : h.wait.request = h.request := rfl
@[simp] theorem Held.wait_remaining (h : Held) : h.wait.remaining = h.remaining - 1 := rfl
@[simp] theorem Held.wait_extraLatency (h : Held) : h.wait.extraLatency = h.extraLatency := rfl

end Sys2Proof.Machine
end

