-- ==== Sys2Proof/Laws/Memory.lean ====
section
/-! SUPPORT. The laws of the byte list, of byte order, and of the layout of the storage arrays: read after write, the canonical
form, and which offsets each array covers. -/

namespace Sys2Proof.Machine

/-! ## The byte list -/

@[simp] theorem Memory.read?_nil (a : Nat) : Memory.read? [] a = none := rfl

theorem Memory.read?_write (m : Memory) (a : Nat) (v : Byte) (b : Nat) :
    (m.write a v).read? b = if b = a then some v else m.read? b := by
  induction m with
  | nil => simp [Memory.write, Memory.read?, eq_comm]
  | cons c m ih =>
    obtain ⟨k, w⟩ := c
    simp only [Memory.write]
    split
    · simp [Memory.read?, eq_comm]
    · split
      · rename_i h; subst h
        by_cases hb : b = a
        · simp [Memory.read?, hb]
        · simp [Memory.read?, hb, Ne.symm hb]
      · rename_i h1 h2
        by_cases hk : k = b
        · subst hk
          have : k ≠ a := fun h => h2 h.symm
          simp [Memory.read?, this]
        · simp [Memory.read?, hk, ih]

theorem Memory.read?_writeMany (l : List Nat) (f : Nat → Byte) (m : Memory) (b : Nat) :
    (m.writeMany l f).read? b = if b ∈ l then some (f b) else m.read? b := by
  unfold Memory.writeMany
  induction l generalizing m with
  | nil => simp
  | cons a l ih =>
    rw [List.foldl_cons, ih, Memory.read?_write]
    by_cases hl : b ∈ l
    · simp [hl]
    · by_cases hb : b = a <;> simp [hl, hb]

theorem Memory.mem_write {m : Memory} {a : Nat} {v : Byte} {c : Host.Cell} (h : c ∈ m.write a v) : c = (a, v) ∨ c ∈ m := by
  induction m with
  | nil => simpa [Memory.write] using h
  | cons d m ih =>
    obtain ⟨k, w⟩ := d
    simp only [Memory.write] at h
    split at h
    · simpa using h
    · split at h
      · simp only [List.mem_cons] at h ⊢; tauto
      · simp only [List.mem_cons] at h ⊢
        rcases h with h | h
        · tauto
        · rcases ih h with h | h <;> tauto

theorem Memory.wf_write {m : Memory} (a : Nat) (v : Byte) (h : m.wf) : (m.write a v).wf := by
  induction m with
  | nil => simp [Memory.write, Memory.wf]
  | cons d m ih =>
    obtain ⟨k, w⟩ := d
    rw [Memory.wf, List.pairwise_cons] at h
    simp only [Memory.write]
    split
    · rename_i hk
      refine List.pairwise_cons.mpr ⟨?_, List.pairwise_cons.mpr h⟩
      intro c hc
      rcases List.mem_cons.mp hc with rfl | hc
      · exact hk
      · exact lt_trans hk (h.1 c hc)
    · split
      · rename_i hk; subst hk; exact List.pairwise_cons.mpr h
      · refine List.pairwise_cons.mpr ⟨?_, ih h.2⟩
        intro c hc
        rcases Memory.mem_write hc with rfl | hc
        · show k < a; omega
        · exact h.1 c hc

theorem Memory.wf_writeMany {m : Memory} (l : List Nat) (f : Nat → Byte) (h : m.wf) : (m.writeMany l f).wf := by
  unfold Memory.writeMany
  induction l generalizing m with
  | nil => exact h
  | cons a l ih => exact ih (Memory.wf_write a _ h)

theorem Memory.mem_writeMany {m : Memory} {l : List Nat} {f : Nat → Byte} {c : Host.Cell} (h : c ∈ m.writeMany l f) :
    c.1 ∈ l ∨ c ∈ m := by
  unfold Memory.writeMany at h
  induction l generalizing m with
  | nil => exact .inr h
  | cons a l ih =>
    rcases ih h with h | h
    · exact .inl (List.mem_cons_of_mem _ h)
    · rcases Memory.mem_write h with rfl | h
      · exact .inl List.mem_cons_self
      · exact .inr h

theorem Memory.wf_reset : Memory.wf State.reset.mem := List.Pairwise.nil

/-! ## Byte order -/

/-- Eight bytes of a 64-bit value, least significant first, make the value again (R68). -/
theorem ofNat_leNat_byteOf (v : Elem) : BitVec.ofNat 64 (leNat ((List.range 8).map (byteOf v))) = v := by
  apply BitVec.eq_of_toNat_eq
  have h : v.toNat < 2 ^ 64 := v.isLt
  simp [List.range_succ, leNat, byteOf, BitVec.extractLsb'_toNat, Nat.shiftRight_eq_div_pow]
  omega

/-- Four bytes of a 32-bit value (R67). -/
theorem ofNat_leNat_byteOf_word (v : Word) : BitVec.ofNat 32 (leNat ((List.range 4).map (byteOf v))) = v := by
  apply BitVec.eq_of_toNat_eq
  have h : v.toNat < 2 ^ 32 := v.isLt
  simp [List.range_succ, leNat, byteOf, BitVec.extractLsb'_toNat, Nat.shiftRight_eq_div_pow]
  omega

/-! ## The parameters -/

theorem nMax_pos (p : Params) : 1 ≤ p.nMax := Nat.le_add_left 1 _
theorem nMax_le (p : Params) : p.nMax ≤ 8 := p.nMaxLessOne.isLt
theorem textMax_pos (p : Params) : 1 ≤ p.textMax := Nat.le_add_left 1 _
theorem textMax_le (p : Params) : p.textMax ≤ 256 := p.textMaxLessOne.isLt
theorem outCap_le (p : Params) : p.outCap ≤ 263 := by
  have := nMax_le p; have := textMax_le p; unfold Params.outCap; omega

/-! ## Which offsets an array covers -/

/-- The storage bytes of Mi are those of its slots (R72): row bits [8:6], column bits [5:3]. -/
theorem mem_matBytes {p : Params} {i a : Nat} :
    a ∈ matBytes p i ↔
      matBase i ≤ a ∧ a < matBase i + 0x200 ∧ (a - matBase i) / 64 < p.nMax ∧ (a - matBase i) % 64 / 8 < p.nMax := by
  have hN := nMax_le p
  simp only [matBytes, List.mem_flatMap, List.mem_map, List.mem_range, matAddr]
  constructor
  · rintro ⟨r, hr, c, hc, k, hk, rfl⟩
    omega
  · rintro ⟨h1, h2, h3, h4⟩
    exact ⟨(a - matBase i) / 64, h3, (a - matBase i) % 64 / 8, h4, a % 8, Nat.mod_lt _ (by omega), by
      unfold matBase at *; omega⟩

/-- The storage bytes of Vj are those of its slots (R72). -/
theorem mem_vecBytes {p : Params} {j a : Nat} :
    a ∈ vecBytes p j ↔ vecBase j ≤ a ∧ a < vecBase j + 0x40 ∧ (a - vecBase j) / 8 < p.nMax := by
  have hN := nMax_le p
  simp only [vecBytes, List.mem_flatMap, List.mem_map, List.mem_range, vecAddr]
  constructor
  · rintro ⟨e, he, k, hk, rfl⟩
    omega
  · rintro ⟨h1, h2, h3⟩
    exact ⟨(a - vecBase j) / 8, h3, a % 8, Nat.mod_lt _ (by omega), by unfold vecBase at *; omega⟩

theorem mem_outBytes {n a : Nat} : a ∈ outBytes n ↔ outBase ≤ a ∧ a < outBase + n := by
  simp only [outBytes, List.mem_map, List.mem_range]
  constructor
  · rintro ⟨i, hi, rfl⟩; omega
  · rintro ⟨h1, h2⟩; exact ⟨a - outBase, by omega, by omega⟩

/-- An element byte of a matrix register is one of its storage bytes. -/
theorem matAddr_mem {p : Params} {i r c k : Nat} (hr : r < p.nMax) (hc : c < p.nMax) (hk : k < 8) :
    matAddr i r c + k ∈ matBytes p i := by
  have hN := nMax_le p
  rw [mem_matBytes, matAddr]
  omega

theorem vecAddr_mem {p : Params} {j e k : Nat} (he : e < p.nMax) (hk : k < 8) : vecAddr j e + k ∈ vecBytes p j := by
  have hN := nMax_le p
  rw [mem_vecBytes, vecAddr]
  omega

/-- A matrix register's bytes are storage (R73). -/
theorem hasStorage_matBytes {p : Params} {i : Fin 4} {a : Nat} (h : a ∈ matBytes p i) : hasStorage p a = true := by
  rw [mem_matBytes] at h
  have hi := i.isLt
  unfold matBase at h
  obtain ⟨h1, h2, h3, h4⟩ := h
  have e1 : ¬ (0x100 ≤ a ∧ a < 0x180) := by omega
  have e2 : ¬ (0x400 ≤ a ∧ a < 0x500) := by omega
  have e3 : ¬ (0x600 ≤ a ∧ a < 0x800) := by omega
  have e4 : 0x800 ≤ a ∧ a < 0x1000 := by omega
  have e5 : a % 0x200 / 64 = (a - (0x800 + 0x200 * (i : Nat))) / 64 := by omega
  have e6 : a % 64 / 8 = (a - (0x800 + 0x200 * (i : Nat))) % 64 / 8 := by omega
  rw [hasStorage, if_neg e1, if_neg e2, if_neg e3, if_pos e4, e5, e6]
  simp [h3, h4]

/-- A vector register's bytes are storage (R73). -/
theorem hasStorage_vecBytes {p : Params} {j : Fin 2} {a : Nat} (h : a ∈ vecBytes p j) : hasStorage p a = true := by
  rw [mem_vecBytes] at h
  have hj := j.isLt
  unfold vecBase at h
  obtain ⟨h1, h2, h3⟩ := h
  have e1 : 0x100 ≤ a ∧ a < 0x180 := by omega
  have e5 : a % 0x40 / 8 = (a - (0x100 + 0x40 * (j : Nat))) / 8 := by omega
  rw [hasStorage, if_pos e1, e5]
  simp [h3]

/-- The first OUT_CAP bytes of OUT_BUF are storage (R73). -/
theorem hasStorage_outBytes {p : Params} {n a : Nat} (hn : n ≤ p.outCap) (h : a ∈ outBytes n) : hasStorage p a = true := by
  rw [mem_outBytes, outBase] at h
  have := outCap_le p
  have e1 : ¬ (0x100 ≤ a ∧ a < 0x180) := by omega
  have e2 : ¬ (0x400 ≤ a ∧ a < 0x500) := by omega
  have e3 : 0x600 ≤ a ∧ a < 0x800 := by omega
  rw [hasStorage, if_neg e1, if_neg e2, if_pos e3, outBase]
  simp; omega

end Sys2Proof.Machine
end

