-- ==== Sys2Proof/Laws/Registers.lean ====
section
/-! SUPPORT. What the reads of State see after its writes: bytes, elements, whole matrix and vector registers, and the text
buffers. Proofs about commands cite these and never unfold the storage. -/

namespace Sys2Proof.Machine

/-! ## Bytes -/

theorem State.byte_eq_of_mem {s t : State} (hm : t.mem = s.mem) (he : t.epoch = s.epoch) (a : Nat) : t.byte a = s.byte a := by
  simp only [State.byte, hm, he]

theorem State.byte_store (s : State) (l : List Nat) (f : Nat → Byte) (a : Nat) :
    (s.store l f).byte a = if a ∈ l then f a else s.byte a := by
  simp only [State.byte, State.store_mem, State.store_epoch, Memory.read?_writeMany]
  split <;> rfl

@[simp] theorem State.byte_complete (s : State) (c : Option CmdError) (a : Nat) : (s.complete c).byte a = s.byte a := rfl
@[simp] theorem State.byte_setRes (s : State) (v : Elem) (a : Nat) : (s.setRes v).byte a = s.byte a := rfl
@[simp] theorem State.byte_setAux (s : State) (v : Word) (a : Nat) : (s.setAux v).byte a = s.byte a := rfl
@[simp] theorem State.byte_setOutLen (s : State) (v : BitVec 9) (a : Nat) : (s.setOutLen v).byte a = s.byte a := rfl
@[simp] theorem State.byte_setMdim (s : State) (i : Fin 4) (v : BitVec 8) (a : Nat) : (s.setMdim i v).byte a = s.byte a := rfl
@[simp] theorem State.byte_setVlen (s : State) (j : Fin 2) (v : BitVec 4) (a : Nat) : (s.setVlen j v).byte a = s.byte a := rfl

theorem State.byte_writeMat (s : State) (d : Fin 4) (X : Mat) (a : Nat) :
    (s.writeMat d X).byte a = if a ∈ matBytes s.params d then X.byteAt a else s.byte a := by
  rw [State.writeMat, State.byte_setMdim, State.byte_store]

theorem State.byte_writeVec (s : State) (d : Fin 2) (x : Vec) (a : Nat) :
    (s.writeVec d x).byte a = if a ∈ vecBytes s.params d then x.byteAt a else s.byte a := by
  rw [State.writeVec, State.byte_setVlen, State.byte_store]

theorem State.byte_writeOut (s : State) (t : List Byte) (a : Nat) :
    (s.writeOut t).byte a = if a ∈ outBytes t.length then t.getD (a - outBase) 0 else s.byte a := by
  rw [State.writeOut, State.byte_setOutLen, State.byte_store]

/-! The bytes a register or buffer write leaves alone, by the windows of R71. -/

theorem State.byte_writeMat_of_lt (s : State) (d : Fin 4) (X : Mat) {a : Nat} (h : a < 0x800) :
    (s.writeMat d X).byte a = s.byte a := by
  rw [State.byte_writeMat, if_neg (by rw [mem_matBytes]; unfold matBase; omega)]

theorem State.byte_writeVec_of_ge (s : State) (d : Fin 2) (x : Vec) {a : Nat} (h : 0x180 ≤ a) :
    (s.writeVec d x).byte a = s.byte a := by
  have := d.isLt
  rw [State.byte_writeVec, if_neg (by rw [mem_vecBytes]; unfold vecBase; omega)]

theorem State.byte_writeOut_of_lt (s : State) (t : List Byte) {a : Nat} (h : a < 0x600) : (s.writeOut t).byte a = s.byte a := by
  rw [State.byte_writeOut, if_neg (by rw [mem_outBytes]; unfold outBase; omega)]

theorem State.byte_writeOut_of_ge (s : State) {t : List Byte} (ht : t.length ≤ s.params.outCap) {a : Nat} (h : 0x800 ≤ a) :
    (s.writeOut t).byte a = s.byte a := by
  have := outCap_le s.params
  rw [State.byte_writeOut, if_neg (by rw [mem_outBytes]; unfold outBase; omega)]

/-! ## Elements -/

theorem State.elem_congr {s t : State} {a : Nat} (h : ∀ k < 8, t.byte (a + k) = s.byte (a + k)) : t.elem a = s.elem a := by
  unfold State.elem
  congr 2
  exact List.map_congr_left fun k hk => h k (List.mem_range.mp hk)

/-- An element whose eight bytes are those of a value is that value (R68). -/
theorem State.elem_eq_of_bytes {s : State} {a : Nat} {v : Elem} (h : ∀ k < 8, s.byte (a + k) = byteOf v k) : s.elem a = v := by
  rw [← ofNat_leNat_byteOf v]
  unfold State.elem
  congr 2
  exact List.map_congr_left fun k hk => h k (List.mem_range.mp hk)

theorem Mat.byteAt_matAddr (X : Mat) (i : Fin 4) {r c k : Nat} (hr : r < 8) (hc : c < 8) (hk : k < 8) :
    X.byteAt (matAddr i r c + k) = byteOf (X.slot r c) k := by
  have hi := i.isLt
  have e1 : (matAddr i r c + k) % 0x200 / 64 = r := by unfold matAddr matBase; omega
  have e2 : (matAddr i r c + k) % 64 / 8 = c := by unfold matAddr matBase; omega
  have e3 : (matAddr i r c + k) % 8 = k := by unfold matAddr matBase; omega
  rw [Mat.byteAt, e1, e2, e3]

theorem Vec.byteAt_vecAddr (x : Vec) (j : Fin 2) {e k : Nat} (he : e < 8) (hk : k < 8) :
    x.byteAt (vecAddr j e + k) = byteOf (x.slot e) k := by
  have hj := j.isLt
  have e1 : (vecAddr j e + k) % 0x40 / 8 = e := by unfold vecAddr vecBase; omega
  have e2 : (vecAddr j e + k) % 8 = k := by unfold vecAddr vecBase; omega
  rw [Vec.byteAt, e1, e2]

/-- A slot of a matrix register just written (R31). -/
theorem State.elem_writeMat_self (s : State) (d : Fin 4) (X : Mat) {r c : Nat} (hr : r < s.params.nMax) (hc : c < s.params.nMax) :
    (s.writeMat d X).elem (matAddr d r c) = X.slot r c := by
  have hN := nMax_le s.params
  refine State.elem_eq_of_bytes fun k hk => ?_
  rw [State.byte_writeMat, if_pos (matAddr_mem hr hc hk), Mat.byteAt_matAddr X d (by omega) (by omega) hk]

/-- A slot of a vector register just written (R31). -/
theorem State.elem_writeVec_self (s : State) (d : Fin 2) (x : Vec) {e : Nat} (he : e < s.params.nMax) :
    (s.writeVec d x).elem (vecAddr d e) = x.slot e := by
  have hN := nMax_le s.params
  refine State.elem_eq_of_bytes fun k hk => ?_
  rw [State.byte_writeVec, if_pos (vecAddr_mem he hk), Vec.byteAt_vecAddr x d (by omega) hk]

/-- An element of a matrix register is the element stored at its address (R72). -/
theorem State.mat_e (s : State) (i : Fin 4) (r c : Nat) : (s.mat i).e r c = (s.elem (matAddr i r c)).toInt := by
  rw [State.mat]

/-- An element of a vector register is the element stored at its address (R72). -/
theorem State.vec_e (s : State) (j : Fin 2) (k : Nat) : (s.vec j).e k = (s.elem (vecAddr j k)).toInt := by
  rw [State.vec]

@[simp] theorem State.elem_complete (s : State) (c : Option CmdError) (a : Nat) : (s.complete c).elem a = s.elem a :=
  State.elem_congr fun _ _ => rfl
@[simp] theorem State.elem_setRes (s : State) (v : Elem) (a : Nat) : (s.setRes v).elem a = s.elem a :=
  State.elem_congr fun _ _ => rfl
@[simp] theorem State.elem_setAux (s : State) (v : Word) (a : Nat) : (s.setAux v).elem a = s.elem a :=
  State.elem_congr fun _ _ => rfl

/-! ## Values that fit are read back -/

theorem fits64_iff {x : Int} : fits64 x = true ↔ -2 ^ 63 ≤ x ∧ x ≤ 2 ^ 63 - 1 := by
  simp [fits64]

theorem toInt_ofInt_of_fits {x : Int} (h : fits64 x = true) : (BitVec.ofInt 64 x).toInt = x := by
  rw [fits64_iff] at h
  rw [BitVec.toInt_ofInt, Int.bmod_def]
  omega

theorem fits64_toInt (v : Elem) : fits64 v.toInt = true := by
  rw [fits64_iff]
  have h1 := BitVec.le_toInt v
  have h2 := BitVec.toInt_lt (x := v)
  omega

/-- An element of a register always fits. -/
theorem State.fits64_mat (s : State) (i : Fin 4) (r c : Nat) : fits64 ((s.mat i).e r c) = true := by
  rw [State.mat_e]; exact fits64_toInt _

theorem Mat.fits_iff {X : Mat} : X.fits = true ↔ ∀ r < X.rows, ∀ c < X.cols, fits64 (X.e r c) = true := by
  simp [Mat.fits]

theorem Vec.fits_iff {x : Vec} : x.fits = true ↔ ∀ k < x.len, fits64 (x.e k) = true := by
  simp [Vec.fits]

theorem Mat.slot_toInt {X : Mat} (h : X.fits = true) (r c : Nat) :
    (X.slot r c).toInt = if r < X.rows ∧ c < X.cols then X.e r c else 0 := by
  unfold Mat.slot
  split
  · rename_i hrc
    exact toInt_ofInt_of_fits (Mat.fits_iff.mp h r hrc.1 c hrc.2)
  · rfl

theorem Vec.slot_toInt {x : Vec} (h : x.fits = true) (k : Nat) : (x.slot k).toInt = if k < x.len then x.e k else 0 := by
  unfold Vec.slot
  split
  · rename_i hk
    exact toInt_ofInt_of_fits (Vec.fits_iff.mp h k hk)
  · rfl

/-! ## Shapes -/

theorem State.rows_lt (s : State) (i : Fin 4) : s.rows i < 16 := (s.mdim[i].extractLsb' 0 4).isLt
theorem State.cols_lt (s : State) (i : Fin 4) : s.cols i < 16 := (s.mdim[i].extractLsb' 4 4).isLt
theorem State.len_lt (s : State) (j : Fin 2) : s.len j < 16 := s.vlen[j].isLt

theorem State.rows_congr {s t : State} {i : Fin 4} (h : t.mdim[i] = s.mdim[i]) : t.rows i = s.rows i := by
  rw [State.rows, State.rows, h]

theorem State.cols_congr {s t : State} {i : Fin 4} (h : t.mdim[i] = s.mdim[i]) : t.cols i = s.cols i := by
  rw [State.cols, State.cols, h]

theorem State.mdim_writeMat_self (s : State) (d : Fin 4) (X : Mat) : (s.writeMat d X).mdim[d] = X.dims := by
  simp [State.writeMat_mdim]

theorem State.mdim_writeMat_ne (s : State) {d i : Fin 4} (X : Mat) (h : i ≠ d) : (s.writeMat d X).mdim[i] = s.mdim[i] := by
  simp only [State.writeMat_mdim, Fin.getElem_fin]
  exact Vector.getElem_set_ne _ _ (fun e => h (Fin.ext e.symm))

theorem State.vlen_writeVec_ne (s : State) {d j : Fin 2} (x : Vec) (h : j ≠ d) : (s.writeVec d x).vlen[j] = s.vlen[j] := by
  simp only [State.writeVec_vlen, Fin.getElem_fin]
  exact Vector.getElem_set_ne _ _ (fun e => h (Fin.ext e.symm))

/-- MDIM's ROWS of a shape that fits its field (R22, R31). -/
theorem State.rows_writeMat_self (s : State) (d : Fin 4) {X : Mat} (h : X.rows < 16) : (s.writeMat d X).rows d = X.rows := by
  rw [State.rows, State.mdim_writeMat_self, Mat.dims]
  have : (BitVec.ofNat 4 X.cols ++ BitVec.ofNat 4 X.rows).extractLsb' 0 4 = BitVec.ofNat 4 X.rows := by
    rw [BitVec.extractLsb'_append_eq_of_add_le (by omega)]
    simp
  rw [this, BitVec.toNat_ofNat]
  omega

/-- MDIM's COLS of a shape that fits its field (R22, R31). -/
theorem State.cols_writeMat_self (s : State) (d : Fin 4) {X : Mat} (h : X.cols < 16) : (s.writeMat d X).cols d = X.cols := by
  rw [State.cols, State.mdim_writeMat_self, Mat.dims]
  have : (BitVec.ofNat 4 X.cols ++ BitVec.ofNat 4 X.rows).extractLsb' 4 4 = BitVec.ofNat 4 X.cols := by
    rw [BitVec.extractLsb'_append_eq_of_le (by omega)]
    simp
  rw [this, BitVec.toNat_ofNat]
  omega

theorem State.len_writeVec_self (s : State) (d : Fin 2) {x : Vec} (h : x.len < 16) : (s.writeVec d x).len d = x.len := by
  simp only [State.len, State.writeVec_vlen, Fin.getElem_fin, Vector.getElem_set_self, BitVec.toNat_ofNat]
  omega

/-! ## Limit checks -/

theorem sizeOk_iff {p : Params} {n : Nat} : sizeOk p n = true ↔ 1 ≤ n ∧ n ≤ p.nMax := by simp [sizeOk]

theorem State.validMat_iff {s : State} {i : Fin 4} :
    s.validMat i = true ↔ (1 ≤ s.rows i ∧ s.rows i ≤ s.params.nMax) ∧ (1 ≤ s.cols i ∧ s.cols i ≤ s.params.nMax) := by
  simp [State.validMat, sizeOk_iff]

theorem State.validVec_iff {s : State} {j : Fin 2} : s.validVec j = true ↔ 1 ≤ s.len j ∧ s.len j ≤ s.params.nMax := by
  simp [State.validVec, sizeOk_iff]

theorem State.textOk_iff {s : State} : s.textOk = true ↔ s.textLen.toNat ≤ s.params.textMax := by simp [State.textOk]

@[simp] theorem vecSel_zero : vecSel 0 = some 0 := rfl
@[simp] theorem vecSel_one : vecSel 1 = some 1 := rfl

theorem vecSel_cases (f : BitVec 2) :
    (f = 0 ∧ vecSel f = some 0) ∨ (f = 1 ∧ vecSel f = some 1) ∨ (2 ≤ f.toNat ∧ vecSel f = none) := by
  revert f; decide

/-! ## The text buffers -/

theorem State.outByte_writeOut (s : State) (t : List Byte) {i : Nat} (h : i < t.length) :
    (s.writeOut t).outByte i = t.getD i 0 := by
  have hm : outBase + i ∈ outBytes t.length := mem_outBytes.mpr ⟨by omega, by omega⟩
  rw [State.outByte, State.byte_writeOut, if_pos hm, Nat.add_sub_cancel_left]

@[simp] theorem State.length_text (s : State) : s.text.length = s.textLen.toNat := by simp [State.text]

theorem State.getD_text (s : State) {i : Nat} (h : i < s.textLen.toNat) : s.text.getD i 0 = s.inByte i := by
  simp [State.text, List.getD_eq_getElem?_getD, h]

/-! ## The end of a command -/

@[simp] theorem finish_ok (s t : State) : finish s (.ok t) = .next (t.complete none) := rfl
@[simp] theorem finish_error (s : State) (e : CmdError) : finish s (.error e) = .next (s.complete (some e)) := rfl

/-- All a command's end can do (R172, R176): the commit of a success, or nothing but STATUS. -/
theorem finish_cases {s t : State} {α : Type} {r : Except CmdError α} {f : α → State}
    (h : finish s (r.map f) = .next t) :
    (∃ v, r = .ok v ∧ t = (f v).complete none) ∨ (∃ e, r = .error e ∧ t = s.complete (some e)) := by
  cases r with
  | ok v => exact .inl ⟨v, rfl, by simpa [Except.map] using h.symm⟩
  | error e => exact .inr ⟨e, rfl, by simpa [Except.map] using h.symm⟩

end Sys2Proof.Machine
end

