-- ==== Sys2Proof/Laws/Cycle.lean ====
section
/-! SUPPORT. What one step can do: inversion lemmas for the bus side and the engine side of a cycle and for the address map, and the
terms of Safety.lean tied to the machine's operations. -/

namespace Sys2Proof.Machine

/-! ## How a command ends -/

/-- A failed completion is `failed` (R172, R176): ERR is set whatever it was. -/
@[simp] theorem State.complete_some (e : CmdError) (s : State) : s.complete (some e) = failed e s := by
  simp [State.complete, failed]

theorem exec_finish_error (s : State) (e : CmdError) : finish s (.error e) = .next (failed e s) := by
  rw [finish_error, State.complete_some]

/-- A commit that leaves ERR and BV alone succeeds. -/
theorem succeeded_complete {s u : State} (he : u.err = s.err) (hb : u.bv = s.bv) : Succeeded s (u.complete none) where
  idle := rfl
  done := rfl
  ecode := rfl
  err := by simp [he]
  bv := hb

/-! ## The address map -/

theorem targetOf_vecWord {a : Nat} (h : 0x100 ≤ a ∧ a < 0x180) : targetOf a = .vecWord := by
  unfold targetOf
  repeat' first | (rw [if_pos h]) | (rw [if_neg (by omega)])

theorem targetOf_inWord {a : Nat} (h : 0x400 ≤ a ∧ a < 0x500) : targetOf a = .inWord := by
  unfold targetOf
  repeat' first | (rw [if_pos h]) | (rw [if_neg (by omega)])

theorem targetOf_outWord {a : Nat} (h : 0x600 ≤ a ∧ a < 0x800) : targetOf a = .outWord := by
  unfold targetOf
  repeat' first | (rw [if_pos h]) | (rw [if_neg (by omega)])

theorem targetOf_matWord {a : Nat} (h : 0x800 ≤ a ∧ a < 0x1000) : targetOf a = .matWord := by
  unfold targetOf
  repeat' first | (rw [if_pos h]) | (rw [if_neg (by omega)])

/-- The register addresses of R71 and what each names. -/
theorem targetOf_cases {a : Nat} (h4 : a % 4 = 0) (ha : a < 0x1000) :
    (a = 0x000 ∧ targetOf a = .id) ∨ (a = 0x004 ∧ targetOf a = .version) ∨ (a = 0x008 ∧ targetOf a = .param) ∨
    (a = 0x010 ∧ targetOf a = .cmd) ∨ (a = 0x014 ∧ targetOf a = .status) ∨ (a = 0x018 ∧ targetOf a = .ctrl) ∨
    (a = 0x020 ∧ targetOf a = .resLo) ∨ (a = 0x024 ∧ targetOf a = .resHi) ∨ (a = 0x028 ∧ targetOf a = .aux) ∨
    (a = 0x030 ∧ targetOf a = .sarg) ∨ (a = 0x034 ∧ targetOf a = .textLen) ∨ (a = 0x038 ∧ targetOf a = .outLen) ∨
    ((0x040 ≤ a ∧ a ≤ 0x04C) ∧ ∃ i : Fin 4, targetOf a = .mdim i) ∨ ((0x050 ≤ a ∧ a ≤ 0x054) ∧ ∃ j : Fin 2, targetOf a = .vlen j) ∨
    ((0x100 ≤ a ∧ a < 0x180) ∧ targetOf a = .vecWord) ∨ ((0x400 ≤ a ∧ a < 0x500) ∧ targetOf a = .inWord) ∨
    ((0x600 ≤ a ∧ a < 0x800) ∧ targetOf a = .outWord) ∨ ((0x800 ≤ a ∧ a < 0x1000) ∧ targetOf a = .matWord) ∨
    ((a = 0x00C ∨ a = 0x01C ∨ a = 0x02C ∨ a = 0x03C ∨ (0x058 ≤ a ∧ a ≤ 0x0FF) ∨ (0x180 ≤ a ∧ a ≤ 0x3FF) ∨
        (0x500 ≤ a ∧ a ≤ 0x5FF)) ∧ targetOf a = .reserved) := by
  by_cases hr : a = 0x00C ∨ a = 0x01C ∨ a = 0x02C ∨ a = 0x03C ∨ (0x058 ≤ a ∧ a ≤ 0x0FF) ∨ (0x180 ≤ a ∧ a ≤ 0x3FF) ∨
      (0x500 ≤ a ∧ a ≤ 0x5FF)
  · have : targetOf a = .reserved := by
      unfold targetOf
      repeat' first | rfl | (rw [if_neg (by omega)])
    simp only [this]
    simp [hr]
  · by_cases h1 : 0x100 ≤ a ∧ a < 0x180
    · simp [targetOf_vecWord h1, h1]
    by_cases h2 : 0x400 ≤ a ∧ a < 0x500
    · simp [targetOf_inWord h2, h2]
    by_cases h3 : 0x600 ≤ a ∧ a < 0x800
    · simp [targetOf_outWord h3, h3]
    by_cases h5 : 0x800 ≤ a ∧ a < 0x1000
    · simp [targetOf_matWord h5, h5]
    have hs : a = 0x000 ∨ a = 0x004 ∨ a = 0x008 ∨ a = 0x010 ∨ a = 0x014 ∨ a = 0x018 ∨ a = 0x020 ∨ a = 0x024 ∨ a = 0x028 ∨
        a = 0x030 ∨ a = 0x034 ∨ a = 0x038 ∨ a = 0x040 ∨ a = 0x044 ∨ a = 0x048 ∨ a = 0x04C ∨ a = 0x050 ∨ a = 0x054 := by
      omega
    rcases hs with rfl | rfl | rfl | rfl | rfl | rfl | rfl | rfl | rfl | rfl | rfl | rfl | rfl | rfl | rfl | rfl | rfl | rfl <;>
      simp [targetOf]

/-- R71's reserved addresses, among the aligned ones. -/
theorem targetOf_reserved_iff {a : Nat} (h4 : a % 4 = 0) (ha : a < 0x1000) :
    targetOf a = .reserved ↔
      (a = 0x00C ∨ a = 0x01C ∨ a = 0x02C ∨ a = 0x03C ∨ (0x058 ≤ a ∧ a ≤ 0x0FF) ∨ (0x180 ≤ a ∧ a ≤ 0x3FF) ∨
        (0x500 ≤ a ∧ a ≤ 0x5FF)) := by
  constructor
  · intro h
    have := targetOf_cases h4 ha
    simp only [h, reduceCtorEq, and_false, false_or, exists_const, and_true] at this
    exact this
  · intro h
    unfold targetOf
    repeat' first | rfl | (rw [if_neg (by omega)])

/-- Of the mapped addresses only 0x014 is STATUS and only 0x018 is CTRL. -/
theorem writableBusy_iff {a : Nat} (h4 : a % 4 = 0) (ha : a < 0x1000) :
    (targetOf a).writableBusy = true ↔ a = 0x014 ∨ a = 0x018 := by
  rcases targetOf_cases h4 ha with h | h | h | h | h | h | h | h | h | h | h | h | h | h | h | h | h | h | h
  all_goals obtain ⟨h1, h2⟩ := h
  all_goals first | obtain ⟨i, h2⟩ := h2 | skip
  all_goals rw [h2]; simp only [Target.writableBusy]
  all_goals (simp; omega)

/-! ## Transactions -/

/-- Everything a transaction can do to the state (R63-R66, R71). -/
theorem transactState_cases (r : Request) (extra : Nat) (s : State) :
    transactState r extra s = s ∨
    (s.phase.isBusy = true ∧ transactState r extra s = s.setBusyViolation) ∨
    (r.we = true ∧ r.addr.toNat % 4 = 0 ∧ (s.phase.isBusy = true → (targetOf r.addr.toNat).writableBusy = true) ∧
      transactState r extra s = s.writeTarget (targetOf r.addr.toNat) r.addr.toNat r.wdata extra) := by
  cases hw : r.we with
  | false => left; simp [transactState, hw]
  | true =>
    simp only [transactState, hw, busWriteState, if_true]
    split
    · exact .inl rfl
    · rename_i h4
      split
      · exact .inl rfl
      · split
        · rename_i h
          simp only [Bool.and_eq_true] at h
          exact .inr (.inl ⟨h.1, rfl⟩)
        · rename_i h
          refine .inr (.inr ⟨trivial, not_not.mp h4, fun hb => ?_, rfl⟩)
          simpa [hb] using h

/-! ## A cycle -/

theorem State.nextCycle_cons {s : State} {c : Cycle} {rest : List Cycle} (h : s.pending = c :: rest) : s.nextCycle = c := by
  simp [State.nextCycle, h]

/-- Where the inputs have run out, the pins stay as they are. -/
theorem State.nextCycle_nil {s : State} (h : s.pending = []) :
    s.nextCycle = { rstN := true, req := s.held.map Held.request, extraAck := 0, extraLatency := 0 } := by
  simp [State.nextCycle, h]

/-- Everything the bus side of a cycle can do (R61, R216): nothing, a request raised, a cycle of waiting for the ack, the ack, or a
broken handshake. -/
theorem busCycle_cases (c : Cycle) (s : State) :
    (s.held = none ∧ c.req = none ∧ busCycle c s = .ok s) ∨
    (∃ r, s.held = none ∧ c.req = some r ∧ busCycle c s = .ok (s.hold (c.raise r))) ∨
    (∃ h, s.held = some h ∧ c.req = some h.request ∧ 1 < h.remaining ∧ busCycle c s = .ok (s.hold h.wait)) ∨
    (∃ h, s.held = some h ∧ c.req = some h.request ∧ h.remaining ≤ 1 ∧
      busCycle c s = .ok (s.acknowledge h.request h.extraLatency)) ∨
    (∃ h, s.held = some h ∧ c.req ≠ some h.request ∧ busCycle c s = .error .handshakeBroken) := by
  cases hh : s.held with
  | none =>
    cases hr : c.req with
    | none => left; simp [busCycle, hh, hr]
    | some r => right; left; exact ⟨r, rfl, rfl, by simp [busCycle, hh, hr]⟩
  | some h =>
    right; right
    cases hr : c.req with
    | none => right; right; exact ⟨h, rfl, by simp, by simp [busCycle, hh, hr]⟩
    | some r =>
      by_cases hrr : h.request = r
      · subst hrr
        by_cases hn : h.remaining ≤ 1
        · right; left; exact ⟨h, rfl, rfl, hn, by simp [busCycle, hh, hr, hn]⟩
        · left; exact ⟨h, rfl, rfl, Nat.not_le.mp hn, by simp [busCycle, hh, hr, hn]⟩
      · right; right
        exact ⟨h, rfl, by simp [Ne.symm hrr], by simp [busCycle, hh, hr, hrr]⟩

/-- Whether the outstanding request is live depends on it alone. -/
theorem State.heldLive_congr {s t : State} (h : t.held = s.held) (hs : s.heldLive) : t.heldLive :=
  fun r hr => hs r (h ▸ hr)

/-- No request is outstanding. -/
theorem State.heldLive_of_none {s : State} (h : s.held = none) : s.heldLive := fun r hr => by simp [h] at hr

/-- Everything the engine side of a cycle can do (R38): nothing, one cycle of waiting, or the completion. -/
theorem engineCycle_cases (before : Phase) (s : State) :
    (engineCycle before s = .next s ∧ (before = .idle ∨ s.phase = .idle)) ∨
    (∃ n m, before = .busy n ∧ s.phase = .busy m ∧ 1 < n ∧ engineCycle before s = .next (s.wait (n - 1))) ∨
    (∃ n m, before = .busy n ∧ s.phase = .busy m ∧ n ≤ 1 ∧ engineCycle before s = completeCurrent s) := by
  cases before with
  | idle => left; simp [engineCycle]
  | busy n =>
    cases hp : s.phase with
    | idle => left; simp [engineCycle, hp]
    | busy m =>
      right
      by_cases hn : n ≤ 1
      · right; exact ⟨n, m, rfl, rfl, hn, by simp [engineCycle, hp, hn]⟩
      · left; exact ⟨n, m, rfl, rfl, by omega, by simp [engineCycle, hp, hn]⟩

/-- A step with rst_n = 1 whose bus side goes through is the engine side of the result. -/
theorem step_of_busCycle {s t : State} (hr : s.nextCycle.rstN = true) (hb : busCycle s.nextCycle s.begin = .ok t) :
    step s = engineCycle s.phase t := by
  simp [step, clockCycle, hr, hb]

/-- The completion of the latched command: a command's own meaning, or IllegalCommand (R99). -/
theorem completeCurrent_cases (s : State) :
    (∃ i, decode s.cur = .ok i ∧ completeCurrent s = exec i s) ∨
    (∃ e, decode s.cur = .error e ∧ completeCurrent s = .next (failed .illegalCommand s)) := by
  cases h : decode s.cur with
  | ok i => exact .inl ⟨i, rfl, by simp [completeCurrent, h]⟩
  | error e => exact .inr ⟨e, rfl, by simp [completeCurrent, h]⟩

end Sys2Proof.Machine
end

