-- ==== Sys2Proof/Laws/Linear.lean ====
section
/-! SUPPORT. The laws of the integer matrix functions: the model's sums, determinant and adjugate are Mathlib's, on the leading
n × n part of a matrix. -/

namespace Sys2Proof.Machine

theorem sumTo_eq_sum (n : Nat) (f : Nat → Int) : sumTo n f = ∑ k ∈ Finset.range n, f k := by
  induction n with
  | zero => rfl
  | succ n ih => rw [sumTo, ih, Finset.sum_range_succ]

theorem sumTo_congr {n : Nat} {f g : Nat → Int} (h : ∀ k < n, f k = g k) : sumTo n f = sumTo n g := by
  rw [sumTo_eq_sum, sumTo_eq_sum]
  exact Finset.sum_congr rfl fun k hk => h k (Finset.mem_range.mp hk)

theorem sign_eq_pow (n : Nat) : sign n = (-1) ^ n := by
  unfold sign
  split
  · rename_i h; exact (Even.neg_one_pow (Nat.even_iff.mpr h)).symm
  · rename_i h; exact (Odd.neg_one_pow (Nat.odd_iff.mpr (by omega))).symm

/-! ## The determinant is Mathlib's -/

/-- The leading n × n part of an element function as a Mathlib matrix. -/
def toMatrix (n : Nat) (a : Nat → Nat → Int) : Matrix (Fin n) (Fin n) Int := Matrix.of fun r c => a r c

@[simp] theorem toMatrix_apply (n : Nat) (a : Nat → Nat → Int) (r c : Fin n) : toMatrix n a r c = a r c := rfl

/-- The index that a deletion skips is the one `Fin.succAbove` skips. -/
theorem val_succAbove_eq_skip {n : Nat} (p : Fin (n + 1)) (i : Fin n) : (p.succAbove i : Nat) = skip p i := by
  unfold skip Fin.succAbove
  simp only [Fin.lt_def, Fin.val_castSucc]
  split
  · rw [if_neg (by omega)]; rfl
  · rw [if_pos (by omega)]; rfl

/-- A minor of the leading part is the leading part of the minor. -/
theorem toMatrix_submatrix {n : Nat} (a : Nat → Nat → Int) (i j : Fin (n + 1)) :
    (toMatrix (n + 1) a).submatrix i.succAbove j.succAbove = toMatrix n fun r c => a (skip i r) (skip j c) := by
  ext r c
  simp [val_succAbove_eq_skip]

/-- The cofactor expansion of R121 is the determinant. -/
theorem detOf_eq_det (n : Nat) (a : Nat → Nat → Int) : detOf n a = (toMatrix n a).det := by
  induction n generalizing a with
  | zero => simp [detOf]
  | succ n ih =>
    match n, ih with
    | 0, _ => simp [detOf]
    | 1, _ => simp [detOf, Matrix.det_fin_two]
    | n + 2, ih =>
      rw [detOf, sumTo_eq_sum, Matrix.det_succ_row_zero, ← Fin.sum_univ_eq_sum_range
        (fun j => sign j * a 0 j * detOf (n + 2) fun r c => a (skip 0 r) (skip j c)) (n + 3)]
      refine Finset.sum_congr rfl fun j _ => ?_
      have h := toMatrix_submatrix (n := n + 2) a 0 j
      rw [Fin.succAbove_zero] at h
      rw [sign_eq_pow, ih, h]
      rfl

theorem det_eq_det {A : Mat} {n : Nat} (h : A.rows = n) : det A = (toMatrix n A.e).det := by
  rw [det, h, detOf_eq_det]

/-- The adjugate of R123, element by element. -/
theorem adj_e (A : Mat) (r c : Nat) : (adj A).e r c = if A.rows = 1 then 1 else (-1) ^ (r + c) * det (minor A c r) := by
  simp only [adj, transpose, cof, sign_eq_pow, add_comm]

/-- The adjugate of R123 is Mathlib's. -/
theorem adj_eq_adjugate {A : Mat} {n : Nat} (hr : A.rows = n) (r c : Fin n) :
    (adj A).e r c = (toMatrix n A.e).adjugate r c := by
  obtain ⟨m, rfl⟩ : ∃ m, n = m + 1 := ⟨n - 1, by have := r.isLt; omega⟩
  rw [adj_e, Matrix.adjugate_fin_succ_eq_det_submatrix, toMatrix_submatrix, hr]
  by_cases hm : m = 0
  · subst hm
    have h0 : r = 0 := Fin.ext (by omega)
    have h1 : c = 0 := Fin.ext (by omega)
    subst h0 h1
    simp
  · rw [if_neg (by omega), det_eq_det (n := m) (by simp [minor, hr]), add_comm (c : Nat)]
    rfl

/-- The product of R125 is Mathlib's, for square factors. -/
theorem matMul_eq_mul {A B : Mat} {n : Nat} (hc : A.cols = n) (r c : Fin n) :
    (matMul A B).e r c = (toMatrix n A.e * toMatrix n B.e) r c := by
  simp only [Matrix.mul_apply, matMul, sumTo_eq_sum, hc]
  exact (Fin.sum_univ_eq_sum_range (fun t => A.e r t * B.e t c) n).symm

/-- The adjugate law, element by element (spec/41_matrix.md R127 (a)): the key times its adjugate. -/
theorem sum_mul_adj {A : Mat} {n : Nat} (hr : A.rows = n) (hc : A.cols = n) {r c : Nat} (hrn : r < n) (hcn : c < n) :
    ∑ k ∈ Finset.range n, A.e r k * (adj A).e k c = if r = c then det A else 0 := by
  have hadj : toMatrix n (adj A).e = (toMatrix n A.e).adjugate := by
    ext i j; exact adj_eq_adjugate hr i j
  have h := matMul_eq_mul (A := A) (B := adj A) hc ⟨r, hrn⟩ ⟨c, hcn⟩
  rw [hadj, Matrix.mul_adjugate] at h
  simp only [matMul, sumTo_eq_sum, hc] at h
  rw [h, det_eq_det hr]
  simp [Matrix.one_apply]

/-- The other side. -/
theorem sum_adj_mul {A : Mat} {n : Nat} (hr : A.rows = n) {r c : Nat} (hrn : r < n) (hcn : c < n) :
    ∑ k ∈ Finset.range n, (adj A).e r k * A.e k c = if r = c then det A else 0 := by
  have hadj : toMatrix n (adj A).e = (toMatrix n A.e).adjugate := by
    ext i j; exact adj_eq_adjugate hr i j
  have hcols : (adj A).cols = n := hr
  have h := matMul_eq_mul (A := adj A) (B := A) hcols ⟨r, hrn⟩ ⟨c, hcn⟩
  rw [hadj, Matrix.adjugate_mul] at h
  simp only [matMul, sumTo_eq_sum, hcols] at h
  rw [h, det_eq_det hr]
  simp [Matrix.one_apply]

end Sys2Proof.Machine
end

