-- ==== Sys2Proof/Laws/Text.lean ====
section
/-! SUPPORT. The laws of the text functions: the padded length, the padded text, the codec of one byte, and the blocks of
`HillText`. Proofs about SPLIT, ENCT and DECT cite these and never unfold the recursion over blocks. -/

namespace Sys2Proof.Machine

/-! ## The padded length (spec/40_control_codec.md R116) -/

theorem paddedLen_dvd (n k : Nat) : k ∣ paddedLen n k := by
  unfold paddedLen
  split
  · exact dvd_refl k
  · exact dvd_mul_right k _

theorem le_paddedLen {k : Nat} (n : Nat) (hk : 1 ≤ k) : n ≤ paddedLen n k := by
  unfold paddedLen
  split
  · omega
  · have h := Nat.div_add_mod (n + k - 1) k
    have h' := Nat.mod_lt (n + k - 1) hk
    omega

theorem paddedLen_pos {k : Nat} (n : Nat) (hk : 1 ≤ k) : 1 ≤ paddedLen n k := by
  by_cases h : n = 0
  · simpa [paddedLen, h] using hk
  · exact le_trans (Nat.one_le_iff_ne_zero.mpr h) (le_paddedLen n hk)

theorem paddedLen_lt {k : Nat} (n : Nat) (hk : 1 ≤ k) : paddedLen n k < max 1 n + k := by
  unfold paddedLen
  split
  · omega
  · have h := Nat.div_mul_le_self (n + k - 1) k
    rw [mul_comm] at h
    omega

/-- P is the least positive multiple of `k` at or above the text's length. -/
theorem paddedLen_least {k n q : Nat} (hq : k ∣ q) (hn : n ≤ q) (h1 : 1 ≤ q) : paddedLen n k ≤ q := by
  obtain ⟨m, rfl⟩ := hq
  have hk : 1 ≤ k := Nat.pos_of_ne_zero fun h => by simp [h] at h1
  have hm : 1 ≤ m := Nat.pos_of_ne_zero fun h => by simp [h] at h1
  have hlt := paddedLen_lt n hk
  obtain ⟨p, hp⟩ := paddedLen_dvd n k
  rw [hp] at hlt ⊢
  refine Nat.mul_le_mul_left k ?_
  by_contra hlt'
  have h2 : k * (m + 1) ≤ k * p := Nat.mul_le_mul_left k (by omega)
  rw [Nat.mul_succ] at h2
  omega

/-- The padded text fits OUT_BUF (R117). -/
theorem paddedLen_le_outCap {p : Params} {n k : Nat} (h1 : 1 ≤ k) (hk : k ≤ p.nMax) (hn : n ≤ p.textMax) :
    paddedLen n k ≤ p.outCap := by
  have h2 := paddedLen_lt n h1
  have h3 := textMax_pos p
  unfold Params.outCap
  omega

/-! ## The padded text -/

@[simp] theorem length_splitPad (t : List Byte) {k : Nat} (hk : 1 ≤ k) : (splitPad t k).length = paddedLen t.length k := by
  have := le_paddedLen t.length hk
  simp [splitPad]
  omega

theorem getD_splitPad (t : List Byte) {k i : Nat} (hi : i < paddedLen t.length k) :
    (splitPad t k).getD i 0 = if i < t.length then normalize (t.getD i 0) else padChar := by
  rw [splitPad, List.getD_eq_getElem?_getD]
  split
  · rename_i h
    simp [List.getElem?_append_left, h, List.getD_eq_getElem?_getD]
  · rename_i h
    rw [List.getElem?_append_right (by simpa using h), List.getElem?_replicate, if_pos (by simp; omega)]
    rfl

/-! ## The codec of one byte (R111, R112) -/

/-- The code of a normalised text byte: `cipherCode` where the codec accepts it, `none` where it does not. -/
theorem c2nf_normalize (b : Byte) :
    c2nf (normalize b) = if CipherByte b then some (cipherCode b).toNat else none := by
  revert b; decide +kernel

theorem c2nf_normalize_eq_none {b : Byte} : c2nf (normalize b) = none ↔ ¬ CipherByte b := by
  rw [c2nf_normalize]
  split <;> simp_all

theorem c2nf_padChar : c2nf padChar = some 26 := by decide

/-- A number below 26 as a letter: the final replacement leaves it alone. -/
theorem unpad_n2cf {x : Int} (h0 : 0 ≤ x) (h : x < 26) : unpad (n2cf x) = BitVec.ofInt 8 (0x41 + x) := by
  obtain ⟨n, rfl⟩ := Int.eq_ofNat_of_zero_le h0
  have hn : n < 26 := by omega
  interval_cases n <;> decide

theorem cipherCode_nonneg (b : Byte) : 0 ≤ cipherCode b := by revert b; decide +kernel

/-! ## Codes of a block -/

theorem codes_eq_some {bs : List Byte} (f : Nat → Nat) (h : ∀ i < bs.length, c2nf (bs.getD i 0) = some (f i)) :
    codes bs = some ((List.range bs.length).map f) := by
  induction bs generalizing f with
  | nil => rfl
  | cons b bs ih =>
    have h0 : c2nf b = some (f 0) := by simpa using h 0 (by simp)
    have h1 := ih (fun i => f (i + 1)) fun i hi => by simpa using h (i + 1) (by simpa using hi)
    simp [codes, h0, h1, List.range_succ_eq_map, Function.comp_def]

theorem codes_eq_none {bs : List Byte} {i : Nat} (hi : i < bs.length) (h : c2nf (bs.getD i 0) = none) : codes bs = none := by
  induction bs generalizing i with
  | nil => simp at hi
  | cons b bs ih =>
    cases i with
    | zero =>
      have : c2nf b = none := by simpa using h
      simp [codes, this]
    | succ i =>
      have : codes bs = none := ih (by simpa using hi) (by simpa using h)
      simp [codes, this]

@[simp] theorem length_letters (y : Vec) : (letters y).length = y.len := by simp [letters]

theorem getD_letters (y : Vec) {r : Nat} (h : r < y.len) : (letters y).getD r 0 = n2cf (y.e r) := by
  simp [letters, List.getD_eq_getElem?_getD, h]

/-! ## The block loop of HillText (spec/43_hill.md R151) -/

/-- Every success of the loop gives as many bytes as the blocks have rows. -/
theorem length_hillBlocks {T : Mat} {n : Nat} {t o : List Byte} (h : hillBlocks T n t = .ok o) : o.length = n * T.rows := by
  induction n generalizing t o with
  | zero => simp only [hillBlocks, Except.ok.injEq] at h; simp [← h]
  | succ n ih =>
    simp only [hillBlocks] at h
    split at h
    · cases h
    · split at h
      · cases h
      · split at h
        · cases h
        · rename_i rest hr
          cases h
          rw [List.length_append, length_letters, ih hr, Nat.succ_mul, Nat.add_comm]
          rfl

/-- The first block decides before any other is looked at: an invalid character in it. -/
theorem hillBlocks_first_invalid {T : Mat} {n i : Nat} {t : List Byte} (hi : i < T.rows) (hl : i < t.length)
    (h : c2nf (t.getD i 0) = none) : hillBlocks T (n + 1) t = .error .invalidCharacter := by
  have : codes (t.take T.rows) = none := by
    refine codes_eq_none (i := i) (by simp; omega) ?_
    rw [List.getD_eq_getElem?_getD, List.getElem?_take_of_lt hi, ← List.getD_eq_getElem?_getD]
    exact h
  simp [hillBlocks, this]

/-- The first block decides before any other is looked at: a valid first block under a key that is not square. -/
theorem hillBlocks_not_square {T : Mat} {n : Nat} {t : List Byte} (hs : T.cols ≠ T.rows)
    (h : ∀ i < T.rows, i < t.length → c2nf (t.getD i 0) ≠ none) : hillBlocks T (n + 1) t = .error .dimensionMismatch := by
  have : codes (t.take T.rows) = some ((List.range (t.take T.rows).length).map fun i => (c2nf (t.getD i 0)).getD 0) := by
    refine codes_eq_some _ fun i hi => ?_
    rw [List.length_take] at hi
    have hi' : i < T.rows := by omega
    rw [List.getD_eq_getElem?_getD, List.getElem?_take_of_lt hi', ← List.getD_eq_getElem?_getD]
    cases hc : c2nf (t.getD i 0) with
    | none => exact absurd hc (h i hi' (by omega))
    | some x => rfl
  simp [hillBlocks, this, hs]

/-- An invalid character anywhere, under a square key. -/
theorem hillBlocks_invalid {T : Mat} {n i : Nat} {t : List Byte} (hs : T.cols = T.rows) (ht : t.length = n * T.rows)
    (hi : i < t.length) (h : c2nf (t.getD i 0) = none) : hillBlocks T n t = .error .invalidCharacter := by
  induction n generalizing t i with
  | zero => simp at ht; simp [ht] at hi
  | succ n ih =>
    by_cases hir : i < T.rows
    · exact hillBlocks_first_invalid hir hi h
    · have hd : hillBlocks T n (t.drop T.rows) = .error .invalidCharacter := by
        refine ih (i := i - T.rows) (by rw [List.length_drop, ht, Nat.succ_mul]; omega) (by rw [List.length_drop]; omega) ?_
        rw [List.getD_eq_getElem?_getD, List.getElem?_drop, ← List.getD_eq_getElem?_getD, Nat.add_sub_cancel' (by omega)]
        exact h
      simp only [hillBlocks]
      split
      · rfl
      · simp [hs, hd]

/-- A text whose codes are given, under a square key: the ciphertext byte by byte. -/
theorem hillBlocks_ok {T : Mat} {n : Nat} {t : List Byte} (f : Nat → Nat) (hs : T.cols = T.rows) (ht : t.length = n * T.rows)
    (h : ∀ i < t.length, c2nf (t.getD i 0) = some (f i)) :
    ∃ o, hillBlocks T n t = .ok o ∧ o.length = n * T.rows ∧ ∀ i < n * T.rows,
      o.getD i 0 = n2cf (sumTo T.rows (fun q => T.e (i % T.rows) q * (f (i / T.rows * T.rows + q) : Int)) % 26) := by
  induction n generalizing t f with
  | zero => exact ⟨[], rfl, by simp, by simp⟩
  | succ n ih =>
    rw [Nat.succ_mul] at ht
    have hlen : (t.take T.rows).length = T.rows := by rw [List.length_take]; omega
    have hcodes : codes (t.take T.rows) = some ((List.range T.rows).map f) := by
      have := codes_eq_some (bs := t.take T.rows) f fun i hi => by
        rw [hlen] at hi
        rw [List.getD_eq_getElem?_getD, List.getElem?_take_of_lt hi, ← List.getD_eq_getElem?_getD]
        exact h i (by omega)
      rwa [hlen] at this
    obtain ⟨o, ho, hol, hoe⟩ := ih (t := t.drop T.rows) (fun i => f (i + T.rows)) (by rw [List.length_drop]; omega) fun i hi => by
      rw [List.length_drop] at hi
      rw [List.getD_eq_getElem?_getD, List.getElem?_drop, ← List.getD_eq_getElem?_getD, Nat.add_comm]
      exact h _ (by omega)
    refine ⟨letters (hillBlock T (codeVec ((List.range T.rows).map f))) ++ o, by simp [hillBlocks, hcodes, hs, ho], ?_, ?_⟩
    · rw [List.length_append, length_letters, hol, Nat.succ_mul, Nat.add_comm]
      rfl
    · intro i hi
      rw [Nat.succ_mul] at hi
      have hl : (letters (hillBlock T (codeVec ((List.range T.rows).map f)))).length = T.rows := by simp [hillBlock]
      by_cases hir : i < T.rows
      · rw [List.getD_append _ _ _ _ (by rw [hl]; exact hir), getD_letters _ (by simpa [hillBlock] using hir)]
        have hq : ∀ q < T.rows, (codeVec ((List.range T.rows).map f)).e q = (f q : Int) := by
          intro q hq
          simp [codeVec, List.getD_eq_getElem?_getD, hq]
        rw [Nat.mod_eq_of_lt hir, Nat.div_eq_of_lt hir]
        simp only [hillBlock, hs, modulus, Nat.zero_mul, Nat.zero_add]
        congr 2
        exact sumTo_congr fun q hq' => by rw [hq q hq']
      · rw [List.getD_append_right _ _ _ _ (by rw [hl]; omega), hl, hoe _ (by omega)]
        have hk : 0 < T.rows := by
          rcases Nat.eq_zero_or_pos T.rows with h0 | h0
          · rw [h0] at hi; simp at hi
          · exact h0
        have e1 : (i - T.rows) % T.rows = i % T.rows := by
          conv_rhs => rw [← Nat.sub_add_cancel (show T.rows ≤ i by omega), Nat.add_mod_right]
        have e2 : (i - T.rows) / T.rows * T.rows + T.rows = i / T.rows * T.rows := by
          conv_rhs => rw [← Nat.sub_add_cancel (show T.rows ≤ i by omega), Nat.add_div_right _ hk, Nat.succ_mul]
        rw [e1]
        congr 2
        refine sumTo_congr fun q _ => ?_
        rw [← e2]
        congr 3
        omega

/-! ## HillText -/

theorem blocks_mul {n k : Nat} : paddedLen n k / k * k = paddedLen n k := Nat.div_mul_cancel (paddedLen_dvd n k)

theorem blocks_pos {n k : Nat} (hk : 1 ≤ k) : ∃ m, paddedLen n k / k = m + 1 := by
  have h1 := paddedLen_pos n hk
  have h2 : 0 < paddedLen n k / k := Nat.div_pos (Nat.le_of_dvd h1 (paddedLen_dvd n k)) hk
  exact ⟨paddedLen n k / k - 1, by omega⟩

/-- A text HillText returns has the padded length. -/
theorem length_hillText {T : Mat} {t o : List Byte} (h : hillText T t = .ok o) : o.length = paddedLen t.length T.rows := by
  unfold hillText at h
  cases hb : hillBlocks T (paddedLen t.length T.rows / T.rows) (splitPad t T.rows) with
  | error e => simp [hb, Except.map] at h
  | ok o' =>
    simp only [hb, Except.map, Except.ok.injEq] at h
    rw [← h, List.length_map, length_hillBlocks hb, blocks_mul]

/-- The code of each byte of the padded text. -/
theorem c2nf_splitPad {t : List Byte} {k i : Nat} (hi : i < paddedLen t.length k)
    (hc : i < t.length → CipherByte (t.getD i 0)) :
    c2nf ((splitPad t k).getD i 0) = some (codeAt t.length (fun j => t.getD j 0) i).toNat := by
  rw [getD_splitPad t hi, codeAt]
  split
  · rename_i h; rw [c2nf_normalize, if_pos (hc h)]
  · exact c2nf_padChar

theorem codeAt_nonneg (n : Nat) (f : Nat → Byte) (i : Nat) : 0 ≤ codeAt n f i := by
  unfold codeAt
  split
  · exact cipherCode_nonneg _
  · omega

/-- A key that is not square, and a first block of valid characters. -/
theorem hillText_not_square {T : Mat} {t : List Byte} (hk : 1 ≤ T.rows) (hs : T.cols ≠ T.rows)
    (h : ∀ i < t.length, i < T.rows → CipherByte (t.getD i 0)) : hillText T t = .error .dimensionMismatch := by
  obtain ⟨m, hm⟩ := blocks_pos (n := t.length) hk
  unfold hillText
  rw [hm, hillBlocks_not_square hs fun i hi hl => by
    rw [length_splitPad t hk] at hl
    rw [c2nf_splitPad hl fun ht => h i ht hi]
    simp]
  rfl

/-- Any key, and an invalid character in the first block. -/
theorem hillText_first_invalid {T : Mat} {t : List Byte} {i : Nat} (hk : 1 ≤ T.rows) (hi : i < t.length) (hr : i < T.rows)
    (hc : ¬ CipherByte (t.getD i 0)) : hillText T t = .error .invalidCharacter := by
  obtain ⟨m, hm⟩ := blocks_pos (n := t.length) hk
  have hle := le_paddedLen t.length hk
  unfold hillText
  rw [hm, hillBlocks_first_invalid (i := i) hr (by rw [length_splitPad t hk]; omega) (by
    rw [getD_splitPad t (by omega), if_pos hi]; exact c2nf_normalize_eq_none.mpr hc)]
  rfl

/-- A square key and an invalid character anywhere in the text. -/
theorem hillText_invalid {T : Mat} {t : List Byte} {i : Nat} (hk : 1 ≤ T.rows) (hs : T.cols = T.rows) (hi : i < t.length)
    (hc : ¬ CipherByte (t.getD i 0)) : hillText T t = .error .invalidCharacter := by
  have hle := le_paddedLen t.length hk
  unfold hillText
  rw [hillBlocks_invalid (i := i) hs (by rw [length_splitPad t hk, blocks_mul]) (by rw [length_splitPad t hk]; omega) (by
    rw [getD_splitPad t (by omega), if_pos hi]; exact c2nf_normalize_eq_none.mpr hc)]
  rfl

/-- A square key and a valid text: the text of `hillByte`, of the padded length. -/
theorem hillText_ok {T : Mat} {t : List Byte} (hk : 1 ≤ T.rows) (hs : T.cols = T.rows)
    (hc : ∀ i < t.length, CipherByte (t.getD i 0)) :
    ∃ o, hillText T t = .ok o ∧ o.length = paddedLen t.length T.rows ∧
      ∀ i < o.length, o.getD i 0 = hillByte T.rows T.e t.length (fun j => t.getD j 0) i := by
  obtain ⟨o, ho, hl, he⟩ := hillBlocks_ok (T := T) (n := paddedLen t.length T.rows / T.rows) (t := splitPad t T.rows)
    (fun i => (codeAt t.length (fun j => t.getD j 0) i).toNat) hs (by rw [length_splitPad t hk, blocks_mul]) fun i hi => by
      rw [length_splitPad t hk] at hi
      exact c2nf_splitPad hi (hc i)
  refine ⟨o.map unpad, by simp [hillText, ho, Except.map], by rw [List.length_map, hl, blocks_mul], fun i hi => ?_⟩
  rw [List.length_map] at hi
  have hu : (o.map unpad).getD i 0 = unpad (o.getD i 0) := by simp [List.getD_eq_getElem?_getD, hi]
  rw [hu, he i (by omega), unpad_n2cf (Int.emod_nonneg _ (by omega)) (Int.emod_lt_of_pos _ (by omega)), hillByte, sumTo_eq_sum]
  congr 3
  refine Finset.sum_congr rfl fun q _ => ?_
  rw [Int.toNat_of_nonneg (codeAt_nonneg _ _ _)]

/-! ## The text of a state -/

theorem forall_text {s : State} {p : Byte → Prop} :
    (∀ i < s.text.length, p (s.text.getD i 0)) ↔ ∀ i < s.textLen.toNat, p (s.inByte i) := by
  rw [State.length_text]
  refine forall₂_congr fun i hi => ?_
  rw [State.getD_text s hi]

theorem hillByte_congr {k n : Nat} {key : Nat → Nat → Int} {f g : Nat → Byte} (h : ∀ i < n, f i = g i) (i : Nat) :
    hillByte k key n f i = hillByte k key n g i := by
  unfold hillByte
  congr 3
  refine Finset.sum_congr rfl fun q _ => ?_
  congr 1
  unfold codeAt
  split
  · rename_i hq; rw [h _ hq]
  · rfl

theorem hillByte_text (s : State) (k : Nat) (key : Nat → Nat → Int) (i : Nat) :
    hillByte k key s.text.length (fun j => s.text.getD j 0) i = hillByte k key s.textLen.toNat s.inByte i := by
  rw [State.length_text]
  exact hillByte_congr (fun j hj => State.getD_text s hj) i

end Sys2Proof.Machine
end

