-- ==== Sys2Proof/Laws/Commands.lean ====
section
/-! SUPPORT. Everything a command can do, said once: it fails with one of the error codes, or it commits one of seven kinds of
write. Proofs about all commands cite `exec_cases` and never unfold a meaning. -/

namespace Sys2Proof.Machine

/-- What the success of a command commits: the kind of write each command makes. -/
def Commit (i : Instr) (s u : State) : Prop :=
  match i with
  | .nop => u = s
  | .c2n | .n2c | .det _ | .modinv => ∃ v, u = s.setRes v
  | .split _ | .enct _ | .dect _ => ∃ t : List Byte, t.length ≤ s.params.outCap ∧ u = s.writeOut t
  | .add rd _ _ | .mulm rd _ _ | .minor rd _ _ _ | .adj rd _ | .trn rd _ => ∃ X, u = s.writeMat (matSel rd) X
  | .mulv rd _ _ | .encb rd _ _ | .decb rd _ _ => ∃ d x, vecSel rd = some d ∧ u = s.writeVec d x
  | .inv rd _ => ∃ X v, u = (s.writeMat (matSel rd) X).setRes v
  | .minvm rd _ => ∃ X v w, u = ((s.writeMat (matSel rd) X).setRes v).setAux w

theorem finish_map {α : Type} (s : State) (r : Except CmdError α) (f : α → State) :
    (∃ e, r = .error e ∧ finish s (r.map f) = .next (failed e s)) ∨
    (∃ v, r = .ok v ∧ finish s (r.map f) = .next ((f v).complete none)) := by
  cases r with
  | error e => exact .inl ⟨e, rfl, exec_finish_error s e⟩
  | ok v => exact .inr ⟨v, rfl, rfl⟩

/-- The inverse key has the transposed shape of the key. -/
theorem keyInverse_shape {A : Mat} {k : Mat × Int × Nat} (h : keyInverse A = .ok k) : k.1.rows = A.cols ∧ k.1.cols = A.rows := by
  unfold keyInverse modInvMatrix26 at h
  simp only at h
  split at h
  · rename_i h'
    split at h'
    · cases h'
    · split at h'
      · cases h'
      · cases h'; cases h; exact ⟨rfl, rfl⟩
  · cases h

theorem splitResult_length {k : BitVec 4} {s : State} {t : List Byte} (h : splitResult k s = .ok t) :
    t.length ≤ s.params.outCap := by
  unfold splitResult at h
  split at h
  · cases h
  · split at h
    · cases h
    · rename_i h1 h2
      simp only [Bool.not_eq_true', Bool.not_eq_false, sizeOk_iff, State.textOk_iff] at h1 h2
      cases h
      rw [length_splitPad _ h1.1, State.length_text]
      exact paddedLen_le_outCap h1.1 h1.2 h2

theorem enctResult_length {a : Fin 4} {s : State} {t : List Byte} (h : enctResult a s = .ok t) :
    t.length ≤ s.params.outCap := by
  unfold enctResult at h
  split at h
  · cases h
  · split at h
    · cases h
    · rename_i h1 h2
      simp only [Bool.not_eq_true', Bool.not_eq_false, State.validMat_iff, State.textOk_iff] at h1 h2
      rw [length_hillText h, State.length_text]
      exact paddedLen_le_outCap h1.1.1 h1.1.2 h2

theorem dectResult_length {a : Fin 4} {s : State} {t : List Byte} (h : dectResult a s = .ok t) :
    t.length ≤ s.params.outCap := by
  unfold dectResult at h
  split at h
  · cases h
  · split at h
    · cases h
    · split at h
      · cases h
      · rename_i h1 h2 h3
        simp only [Bool.not_eq_true', Bool.not_eq_false, State.validMat_iff, State.textOk_iff] at h1 h2
        split at h
        · cases h
        · rename_i k hk
          rw [length_hillText h, State.length_text, (keyInverse_shape hk).1]
          exact paddedLen_le_outCap h1.2.1 h1.2.2 h2

/-- Everything a command can do (R172, R176): it fails and changes STATUS alone, or it commits its own kind of write. -/
theorem exec_cases (i : Instr) (s : State) :
    (∃ e, exec i s = .next (failed e s)) ∨ (∃ u, exec i s = .next (u.complete none) ∧ Commit i s u) := by
  cases i with
  | nop => exact .inr ⟨s, rfl, rfl⟩
  | c2n =>
    rcases finish_map s (c2nResult s) (fun n => s.setRes (BitVec.ofNat 64 n)) with ⟨e, _, h⟩ | ⟨v, _, h⟩
    · exact .inl ⟨e, h⟩
    · exact .inr ⟨_, h, _, rfl⟩
  | n2c => exact .inr ⟨_, rfl, _, rfl⟩
  | split k =>
    rcases finish_map s (splitResult k s) (fun t => s.writeOut t) with ⟨e, _, h⟩ | ⟨v, hv, h⟩
    · exact .inl ⟨e, h⟩
    · exact .inr ⟨_, h, v, splitResult_length hv, rfl⟩
  | add rd ra rb =>
    rcases finish_map s (addResult (matSel ra) (matSel rb) s) (fun X => s.writeMat (matSel rd) X) with ⟨e, _, h⟩ | ⟨v, _, h⟩
    · exact .inl ⟨e, h⟩
    · exact .inr ⟨_, h, v, rfl⟩
  | mulm rd ra rb =>
    rcases finish_map s (mulmResult (matSel ra) (matSel rb) s) (fun X => s.writeMat (matSel rd) X) with ⟨e, _, h⟩ | ⟨v, _, h⟩
    · exact .inl ⟨e, h⟩
    · exact .inr ⟨_, h, v, rfl⟩
  | mulv rd ra rb =>
    simp only [exec, execMulv]
    split
    · rename_i d b hd hb
      rcases finish_map s (mulvResult (matSel ra) b s) (fun x => s.writeVec d x) with ⟨e, _, h⟩ | ⟨v, _, h⟩
      · exact .inl ⟨e, h⟩
      · exact .inr ⟨_, h, d, v, hd, rfl⟩
    · exact .inl ⟨_, exec_finish_error s _⟩
  | det ra =>
    rcases finish_map s (detResult (matSel ra) s) (fun d => s.setRes (BitVec.ofInt 64 d)) with ⟨e, _, h⟩ | ⟨v, _, h⟩
    · exact .inl ⟨e, h⟩
    · exact .inr ⟨_, h, _, rfl⟩
  | minor rd ra r c =>
    rcases finish_map s (minorResult (matSel ra) r.toNat c.toNat s) (fun X => s.writeMat (matSel rd) X)
      with ⟨e, _, h⟩ | ⟨v, _, h⟩
    · exact .inl ⟨e, h⟩
    · exact .inr ⟨_, h, v, rfl⟩
  | adj rd ra =>
    rcases finish_map s (adjResult (matSel ra) s) (fun X => s.writeMat (matSel rd) X) with ⟨e, _, h⟩ | ⟨v, _, h⟩
    · exact .inl ⟨e, h⟩
    · exact .inr ⟨_, h, v, rfl⟩
  | trn rd ra =>
    rcases finish_map s (trnResult (matSel ra) s) (fun X => s.writeMat (matSel rd) X) with ⟨e, _, h⟩ | ⟨v, _, h⟩
    · exact .inl ⟨e, h⟩
    · exact .inr ⟨_, h, v, rfl⟩
  | inv rd ra =>
    rcases finish_map s (invResult (matSel ra) s) (fun p => (s.writeMat (matSel rd) p.1).setRes (BitVec.ofInt 64 p.2))
      with ⟨e, _, h⟩ | ⟨v, _, h⟩
    · exact .inl ⟨e, h⟩
    · exact .inr ⟨_, h, v.1, _, rfl⟩
  | modinv =>
    rcases finish_map s (modinvResult s) (fun x => s.setRes (BitVec.ofNat 64 x)) with ⟨e, _, h⟩ | ⟨v, _, h⟩
    · exact .inl ⟨e, h⟩
    · exact .inr ⟨_, h, _, rfl⟩
  | minvm rd ra =>
    rcases finish_map s (minvmResult (matSel ra) s)
      (fun k => ((s.writeMat (matSel rd) k.1).setRes (BitVec.ofInt 64 k.2.1)).setAux (BitVec.ofNat 32 k.2.2))
      with ⟨e, _, h⟩ | ⟨v, _, h⟩
    · exact .inl ⟨e, h⟩
    · exact .inr ⟨_, h, v.1, _, _, rfl⟩
  | encb rd ra rb =>
    simp only [exec, execEncb]
    split
    · rename_i d b hd hb
      rcases finish_map s (encbResult (matSel ra) b s) (fun x => s.writeVec d x) with ⟨e, _, h⟩ | ⟨v, _, h⟩
      · exact .inl ⟨e, h⟩
      · exact .inr ⟨_, h, d, v, hd, rfl⟩
    · exact .inl ⟨_, exec_finish_error s _⟩
  | decb rd ra rb =>
    simp only [exec, execDecb]
    split
    · rename_i d b hd hb
      rcases finish_map s (decbResult (matSel ra) b s) (fun x => s.writeVec d x) with ⟨e, _, h⟩ | ⟨v, _, h⟩
      · exact .inl ⟨e, h⟩
      · exact .inr ⟨_, h, d, v, hd, rfl⟩
    · exact .inl ⟨_, exec_finish_error s _⟩
  | enct ra =>
    rcases finish_map s (enctResult (matSel ra) s) (fun o => s.writeOut o) with ⟨e, _, h⟩ | ⟨v, hv, h⟩
    · exact .inl ⟨e, h⟩
    · exact .inr ⟨_, h, v, enctResult_length hv, rfl⟩
  | dect ra =>
    rcases finish_map s (dectResult (matSel ra) s) (fun o => s.writeOut o) with ⟨e, _, h⟩ | ⟨v, hv, h⟩
    · exact .inl ⟨e, h⟩
    · exact .inr ⟨_, h, v, dectResult_length hv, rfl⟩

/-- A commit leaves the bus interface and the inputs alone. -/
theorem Commit.bus {i : Instr} {s u : State} (h : Commit i s u) : u.held = s.held ∧ u.bus = s.bus ∧ u.pending = s.pending := by
  cases i with
  | nop => cases h; exact ⟨rfl, rfl, rfl⟩
  | c2n | n2c | det _ | modinv => obtain ⟨_, rfl⟩ := h; exact ⟨rfl, rfl, rfl⟩
  | add _ _ _ | mulm _ _ _ | minor _ _ _ _ | adj _ _ | trn _ _ => obtain ⟨_, rfl⟩ := h; exact ⟨rfl, rfl, rfl⟩
  | split _ | enct _ | dect _ => obtain ⟨_, -, rfl⟩ := h; exact ⟨rfl, rfl, rfl⟩
  | mulv _ _ _ | encb _ _ _ | decb _ _ _ => obtain ⟨_, _, -, rfl⟩ := h; exact ⟨rfl, rfl, rfl⟩
  | inv _ _ => obtain ⟨_, _, rfl⟩ := h; simp
  | minvm _ _ => obtain ⟨_, _, _, rfl⟩ := h; simp

/-- The engine side of a cycle never stops, and leaves the bus interface and the inputs alone. -/
theorem engineCycle_next (before : Phase) (s : State) : ∃ t, engineCycle before s = .next t ∧ t.held = s.held ∧ t.bus = s.bus ∧
    t.pending = s.pending := by
  rcases engineCycle_cases before s with ⟨h, -⟩ | ⟨_, _, -, -, -, h⟩ | ⟨_, _, -, -, -, h⟩
  · exact ⟨_, h, rfl, rfl, rfl⟩
  · exact ⟨_, h, rfl, rfl, rfl⟩
  · rcases completeCurrent_cases s with ⟨i, -, hc⟩ | ⟨_, -, hc⟩
    · rcases exec_cases i s with ⟨_, he⟩ | ⟨u, he, hu⟩
      · exact ⟨_, h.trans (hc.trans he), rfl, rfl, rfl⟩
      · exact ⟨_, h.trans (hc.trans he), hu.bus⟩
    · exact ⟨_, h.trans hc, rfl, rfl, rfl⟩

/-! ## The frame of each kind of write -/

theorem keepsHostSide_refl (s : State) : KeepsHostSide s s := ⟨rfl, rfl, rfl, rfl, rfl, rfl, rfl, rfl, rfl, rfl, rfl⟩

theorem keepsHostSide_failed (e : CmdError) (s : State) : KeepsHostSide s (failed e s) :=
  ⟨rfl, rfl, rfl, rfl, rfl, rfl, rfl, rfl, rfl, rfl, rfl⟩

theorem scalarFrame_setRes (s : State) (v : Elem) : ScalarFrame s ((s.setRes v).complete none) where
  hostSide := ⟨rfl, rfl, rfl, rfl, rfl, rfl, rfl, rfl, rfl, rfl, rfl⟩
  mdim := rfl
  vlen := rfl
  aux := rfl
  outLen := rfl
  bytes := fun _ _ => rfl

theorem matrixFrame_writeMat (s : State) (d : Fin 4) (X : Mat) : MatrixFrame s ((s.writeMat d X).complete none) d where
  hostSide := ⟨rfl, rfl, rfl, rfl, rfl, rfl, rfl, rfl, rfl, rfl, rfl⟩
  otherShapes := fun _ hi => State.mdim_writeMat_ne s X hi
  vlen := rfl
  outLen := rfl
  bytes := fun a ha => by rw [State.byte_complete, State.byte_writeMat, if_neg ha]

theorem vectorFrame_writeVec (s : State) (d : Fin 2) (x : Vec) : VectorFrame s ((s.writeVec d x).complete none) d where
  hostSide := ⟨rfl, rfl, rfl, rfl, rfl, rfl, rfl, rfl, rfl, rfl, rfl⟩
  mdim := rfl
  otherLens := fun _ hj => State.vlen_writeVec_ne s x hj
  res := rfl
  aux := rfl
  outLen := rfl
  bytes := fun a ha => by rw [State.byte_complete, State.byte_writeVec, if_neg ha]

theorem textFrame_writeOut (s : State) (t : List Byte) : TextFrame s ((s.writeOut t).complete none) t.length where
  hostSide := ⟨rfl, rfl, rfl, rfl, rfl, rfl, rfl, rfl, rfl, rfl, rfl⟩
  mdim := rfl
  vlen := rfl
  res := rfl
  aux := rfl
  bytes := fun a ha => by rw [State.byte_complete, State.byte_writeOut, if_neg ha]

/-- The frame of a matrix destination says nothing of RES: it may be set afterwards. -/
theorem MatrixFrame.setRes {s u : State} {d : Fin 4} (h : MatrixFrame s (u.complete none) d) (v : Elem) :
    MatrixFrame s ((u.setRes v).complete none) d where
  hostSide := ⟨h.1.1, h.1.2, h.1.3, h.1.4, h.1.5, h.1.6, h.1.7, h.1.8, h.1.9, h.1.10, h.1.11⟩
  otherShapes := h.2
  vlen := h.3
  outLen := h.4
  bytes := h.5

/-- Nor does it of AUX. -/
theorem MatrixFrame.setAux {s u : State} {d : Fin 4} (h : MatrixFrame s (u.complete none) d) (w : Word) :
    MatrixFrame s ((u.setAux w).complete none) d where
  hostSide := ⟨h.1.1, h.1.2, h.1.3, h.1.4, h.1.5, h.1.6, h.1.7, h.1.8, h.1.9, h.1.10, h.1.11⟩
  otherShapes := h.2
  vlen := h.3
  outLen := h.4
  bytes := h.5

theorem Succeeded.setRes {s u : State} (h : Succeeded s (u.complete none)) (v : Elem) :
    Succeeded s ((u.setRes v).complete none) :=
  ⟨rfl, rfl, rfl, h.err, h.bv⟩

theorem Succeeded.setAux {s u : State} (h : Succeeded s (u.complete none)) (w : Word) :
    Succeeded s ((u.setAux w).complete none) :=
  ⟨rfl, rfl, rfl, h.err, h.bv⟩

/-! ## The value of each kind of write -/

theorem matrixHolds_writeMat (s : State) (d : Fin 4) {X : Mat} (hr : X.rows < 16) (hc : X.cols < 16) (hf : X.fits = true) :
    MatrixHolds ((s.writeMat d X).complete none) d X.rows X.cols X.e := by
  refine ⟨State.rows_writeMat_self s d hr, State.cols_writeMat_self s d hc, fun r hr' c hc' => ?_⟩
  rw [State.mat_e, State.elem_complete, State.elem_writeMat_self s d X hr' hc', Mat.slot_toInt hf]

theorem vectorHolds_writeVec (s : State) (d : Fin 2) {x : Vec} (hl : x.len < 16) (hf : x.fits = true) :
    VectorHolds ((s.writeVec d x).complete none) d x.len x.e := by
  refine ⟨State.len_writeVec_self s d hl, fun k hk => ?_⟩
  rw [State.vec_e, State.elem_complete, State.elem_writeVec_self s d x hk, Vec.slot_toInt hf]

theorem outHolds_writeOut (s : State) {t : List Byte} (h : t.length ≤ s.params.outCap) :
    OutHolds ((s.writeOut t).complete none) t.length (fun i => t.getD i 0) := by
  have := outCap_le s.params
  refine ⟨?_, fun i hi => State.outByte_writeOut s t hi⟩
  show (BitVec.ofNat 9 t.length).toNat = _
  rw [BitVec.toNat_ofNat]
  omega

theorem MatrixHolds.congr {t : State} {i : Fin 4} {rows cols : Nat} {f g : Nat → Nat → Int} (h : MatrixHolds t i rows cols f)
    (hfg : ∀ r < rows, ∀ c < cols, f r c = g r c) : MatrixHolds t i rows cols g := by
  refine ⟨h.1, h.2.1, fun r hr c hc => ?_⟩
  rw [h.2.2 r hr c hc]
  split
  · rename_i hrc; exact hfg r hrc.1 c hrc.2
  · rfl

/-- What a matrix register holds does not depend on RES or AUX. -/
theorem MatrixHolds.setRes {u : State} {i : Fin 4} {rows cols : Nat} {f : Nat → Nat → Int}
    (h : MatrixHolds (u.complete none) i rows cols f) (v : Elem) : MatrixHolds ((u.setRes v).complete none) i rows cols f := by
  refine ⟨h.1, h.2.1, fun r hr c hc => ?_⟩
  have h' := h.2.2 r hr c hc
  rw [State.mat_e, State.elem_complete] at h' ⊢
  rwa [State.elem_setRes]

theorem MatrixHolds.setAux {u : State} {i : Fin 4} {rows cols : Nat} {f : Nat → Nat → Int}
    (h : MatrixHolds (u.complete none) i rows cols f) (w : Word) : MatrixHolds ((u.setAux w).complete none) i rows cols f := by
  refine ⟨h.1, h.2.1, fun r hr c hc => ?_⟩
  have h' := h.2.2 r hr c hc
  rw [State.mat_e, State.elem_complete] at h' ⊢
  rwa [State.elem_setAux]

theorem VectorHolds.congr {t : State} {j : Fin 2} {len : Nat} {f g : Nat → Int} (h : VectorHolds t j len f)
    (hfg : ∀ k < len, f k = g k) : VectorHolds t j len g := by
  refine ⟨h.1, fun k hk => ?_⟩
  rw [h.2 k hk]
  split
  · rename_i hk'; exact hfg k hk'
  · rfl

theorem OutHolds.congr {t : State} {n : Nat} {f g : Nat → Byte} (h : OutHolds t n f) (hfg : ∀ i < n, f i = g i) :
    OutHolds t n g :=
  ⟨h.1, fun i hi => by rw [h.2 i hi, hfg i hi]⟩

/-! ## A whole commit -/

/-- Everything the commit of a matrix result does: the register, the frame, the status (R31, R176). -/
theorem commit_matrix (s : State) (d : Fin 4) {X : Mat} {rows cols : Nat} {f : Nat → Nat → Int} (hr : X.rows = rows)
    (hc : X.cols = cols) (hr16 : rows < 16) (hc16 : cols < 16) (he : ∀ r < rows, ∀ c < cols, X.e r c = f r c)
    (hf : X.fits = true) :
    Succeeded s ((s.writeMat d X).complete none) ∧ MatrixFrame s ((s.writeMat d X).complete none) d ∧
      ((s.writeMat d X).complete none).res = s.res ∧ ((s.writeMat d X).complete none).aux = s.aux ∧
      MatrixHolds ((s.writeMat d X).complete none) d rows cols f := by
  subst hr hc
  exact ⟨succeeded_complete (State.writeMat_err s d X) (State.writeMat_bv s d X), matrixFrame_writeMat s d X,
    State.writeMat_res s d X, State.writeMat_aux s d X, (matrixHolds_writeMat s d hr16 hc16 hf).congr he⟩

/-- Everything the commit of a vector result does (R31, R176). -/
theorem commit_vector (s : State) (d : Fin 2) {x : Vec} {len : Nat} {f : Nat → Int} (hl : x.len = len) (h16 : len < 16)
    (he : ∀ k < len, x.e k = f k) (hf : x.fits = true) :
    Succeeded s ((s.writeVec d x).complete none) ∧ VectorFrame s ((s.writeVec d x).complete none) d ∧
      VectorHolds ((s.writeVec d x).complete none) d len f := by
  subst hl
  exact ⟨succeeded_complete (State.writeVec_err s d x) (State.writeVec_bv s d x), vectorFrame_writeVec s d x,
    (vectorHolds_writeVec s d h16 hf).congr he⟩

/-- Everything the commit of a text does (R118, R176). -/
theorem commit_text (s : State) {t : List Byte} {n : Nat} {f : Nat → Byte} (hn : t.length = n) (hcap : n ≤ s.params.outCap)
    (he : ∀ i < n, t.getD i 0 = f i) :
    Succeeded s ((s.writeOut t).complete none) ∧ TextFrame s ((s.writeOut t).complete none) n ∧
      OutHolds ((s.writeOut t).complete none) n f := by
  subst hn
  exact ⟨succeeded_complete (State.writeOut_err s t) (State.writeOut_bv s t), textFrame_writeOut s t,
    (outHolds_writeOut s hcap).congr he⟩

/-! ## Shapes of operands and the tests on them -/

@[simp] theorem State.mat_rows (s : State) (i : Fin 4) : (s.mat i).rows = s.rows i := rfl
@[simp] theorem State.mat_cols (s : State) (i : Fin 4) : (s.mat i).cols = s.cols i := rfl
@[simp] theorem State.vec_len (s : State) (j : Fin 2) : (s.vec j).len = s.len j := rfl

theorem validMat_eq_false {s : State} {i : Fin 4} (h : ¬ ShapeValid s i) : s.validMat i = false := by
  rw [Bool.eq_false_iff, ne_eq, State.validMat_iff]; exact h

theorem validVec_eq_false {s : State} {j : Fin 2} (h : ¬ LenValid s j) : s.validVec j = false := by
  rw [Bool.eq_false_iff, ne_eq, State.validVec_iff]; exact h

/-- A rearrangement of a register's elements always fits: TRN and MINOR cannot overflow. -/
theorem fits_transpose_mat (s : State) (i : Fin 4) : (transpose (s.mat i)).fits = true := by
  rw [Mat.fits_iff]
  intro r _ c _
  simp only [transpose, State.fits64_mat]

theorem fits_minor_mat (s : State) (a : Fin 4) (i j : Nat) : (minor (s.mat a) i j).fits = true := by
  rw [Mat.fits_iff]
  intro r _ c _
  simp only [minor, State.fits64_mat]

theorem vecSel_of_toNat {f : BitVec 2} {d : Fin 2} (h : f.toNat = d.val) : vecSel f = some d := by
  unfold vecSel; rw [h]; fin_cases d <;> rfl

/-- The overflow test, on any description of the elements (R11). -/
theorem Mat.fits_of {X : Mat} {rows cols : Nat} {f : Nat → Nat → Int} (hr : X.rows = rows) (hc : X.cols = cols)
    (he : ∀ r < rows, ∀ c < cols, X.e r c = f r c) : X.fits = true ↔ ∀ r < rows, ∀ c < cols, Fits64 (f r c) := by
  subst hr hc
  rw [Mat.fits_iff]
  refine forall₂_congr fun r hr => forall₂_congr fun c hc => ?_
  rw [he r hr c hc, fits64_iff]

theorem Vec.fits_of {x : Vec} {len : Nat} {f : Nat → Int} (hl : x.len = len) (he : ∀ k < len, x.e k = f k) :
    x.fits = true ↔ ∀ k < len, Fits64 (f k) := by
  subst hl
  rw [Vec.fits_iff]
  refine forall₂_congr fun k hk => ?_
  rw [he k hk, fits64_iff]

end Sys2Proof.Machine
end

