-- ==== Sys2Proof/Laws/Encoding.lean ====
section
/-! SUPPORT. The command word as a number, its fields read back, and the word built with shifts and ors as spec/30_encoding.md R90
writes it. -/

namespace Sys2Proof

theorem append_toNat {m n : Nat} (x : BitVec m) (y : BitVec n) : (x ++ y).toNat = x.toNat * 2 ^ n + y.toNat := by
  rw [BitVec.toNat_append, ← Nat.shiftLeft_add_eq_or_of_lt y.isLt, Nat.shiftLeft_eq]

section fields

variable (opc : BitVec 8) (rd ra rb : Selector) (i j : Imm)

theorem formatF_toNat : (formatF opc rd ra rb i j).toNat =
    opc.toNat + 2 ^ 8 * rd.toNat + 2 ^ 10 * ra.toNat + 2 ^ 12 * rb.toNat + 2 ^ 16 * i.toNat + 2 ^ 20 * j.toNat := by
  refine (append_toNat (0#8 ++ j ++ i ++ 0#2 ++ rb ++ ra ++ rd) opc).trans ?_
  rw [append_toNat, append_toNat, append_toNat, append_toNat, append_toNat, append_toNat]
  simp only [BitVec.toNat_ofNat]
  omega

@[simp] theorem fieldOPC_formatF : fieldOPC (formatF opc rd ra rb i j) = opc := by
  apply BitVec.eq_of_toNat_eq
  rw [fieldOPC, BitVec.extractLsb'_toNat, formatF_toNat, Nat.shiftRight_eq_div_pow]
  omega

@[simp] theorem fieldRD_formatF : fieldRD (formatF opc rd ra rb i j) = rd := by
  apply BitVec.eq_of_toNat_eq
  rw [fieldRD, BitVec.extractLsb'_toNat, formatF_toNat, Nat.shiftRight_eq_div_pow]
  omega

@[simp] theorem fieldRA_formatF : fieldRA (formatF opc rd ra rb i j) = ra := by
  apply BitVec.eq_of_toNat_eq
  rw [fieldRA, BitVec.extractLsb'_toNat, formatF_toNat, Nat.shiftRight_eq_div_pow]
  omega

@[simp] theorem fieldRB_formatF : fieldRB (formatF opc rd ra rb i j) = rb := by
  apply BitVec.eq_of_toNat_eq
  rw [fieldRB, BitVec.extractLsb'_toNat, formatF_toNat, Nat.shiftRight_eq_div_pow]
  omega

@[simp] theorem fieldReservedLow_formatF : fieldReservedLow (formatF opc rd ra rb i j) = 0 := by
  apply BitVec.eq_of_toNat_eq
  rw [fieldReservedLow, BitVec.extractLsb'_toNat, formatF_toNat, Nat.shiftRight_eq_div_pow]
  change _ = 0
  omega

@[simp] theorem fieldI_formatF : fieldI (formatF opc rd ra rb i j) = i := by
  apply BitVec.eq_of_toNat_eq
  rw [fieldI, BitVec.extractLsb'_toNat, formatF_toNat, Nat.shiftRight_eq_div_pow]
  omega

@[simp] theorem fieldJ_formatF : fieldJ (formatF opc rd ra rb i j) = j := by
  apply BitVec.eq_of_toNat_eq
  rw [fieldJ, BitVec.extractLsb'_toNat, formatF_toNat, Nat.shiftRight_eq_div_pow]
  omega

@[simp] theorem fieldReservedHigh_formatF : fieldReservedHigh (formatF opc rd ra rb i j) = 0 := by
  apply BitVec.eq_of_toNat_eq
  rw [fieldReservedHigh, BitVec.extractLsb'_toNat, formatF_toNat, Nat.shiftRight_eq_div_pow]
  change _ = 0
  omega

end fields

/-- A field put above a shorter number: or is addition. -/
theorem or_shiftLeft_toNat {n k : Nat} (x : Word) (y : BitVec n) (hx : x.toNat < 2 ^ k) (hk : k + n ≤ 32) :
    (x ||| y.setWidth 32 <<< k).toNat = x.toNat + 2 ^ k * y.toNat := by
  have hy : y.toNat < 2 ^ n := y.isLt
  have hp : (2 : Nat) ^ (k + n) ≤ 2 ^ 32 := Nat.pow_le_pow_right (by omega) hk
  have hn : (2 : Nat) ^ n ≤ 2 ^ 32 := Nat.pow_le_pow_right (by omega) (by omega)
  have h1 : y.toNat * 2 ^ k < 2 ^ 32 := by
    calc y.toNat * 2 ^ k < 2 ^ n * 2 ^ k := Nat.mul_lt_mul_of_pos_right hy (by positivity)
      _ = 2 ^ (k + n) := by rw [pow_add, mul_comm]
      _ ≤ 2 ^ 32 := hp
  rw [BitVec.toNat_or, BitVec.toNat_shiftLeft, BitVec.toNat_setWidth, Nat.mod_eq_of_lt (lt_of_lt_of_le hy hn),
    Nat.shiftLeft_eq, Nat.mod_eq_of_lt h1, Nat.or_comm, ← Nat.shiftLeft_eq, ← Nat.shiftLeft_add_eq_or_of_lt hx, Nat.shiftLeft_eq]
  ring

/-- The word of R90 built with shifts and ors: `OPC | RD<<8 | RA<<10 | RB<<12 | I<<16 | J<<20`. -/
theorem formatF_eq_or (opc : BitVec 8) (rd ra rb : Selector) (i j : Imm) :
    formatF opc rd ra rb i j =
      opc.setWidth 32 ||| rd.setWidth 32 <<< 8 ||| ra.setWidth 32 <<< 10 ||| rb.setWidth 32 <<< 12 |||
        i.setWidth 32 <<< 16 ||| j.setWidth 32 <<< 20 := by
  have h0 : (opc.setWidth 32).toNat = opc.toNat := by rw [BitVec.toNat_setWidth]; omega
  have h1 := or_shiftLeft_toNat (k := 8) (opc.setWidth 32) rd (by omega) (by omega)
  have h2 := or_shiftLeft_toNat (k := 10) _ ra (by rw [h1]; omega) (by omega)
  have h3 := or_shiftLeft_toNat (k := 12) _ rb (by rw [h2, h1]; omega) (by omega)
  have h4 := or_shiftLeft_toNat (k := 16) _ i (by rw [h3, h2, h1]; omega) (by omega)
  have h5 := or_shiftLeft_toNat (k := 20) _ j (by rw [h4, h3, h2, h1]; omega) (by omega)
  apply BitVec.eq_of_toNat_eq
  rw [h5, h4, h3, h2, h1, h0, formatF_toNat]

/-! ## The opcode map -/

@[simp] theorem opcodeOf_code (o : Opcode) : opcodeOf o.code = some o := by cases o <;> decide

theorem code_of_opcodeOf {b : BitVec 8} {o : Opcode} (h : opcodeOf b = some o) : o.code = b := by
  have := List.find?_some h
  simpa using this

/-- Everything a successful decoding says of its word (R97). -/
theorem decode_ok_iff {w : Word} {ins : Instr} : decode w = .ok ins ↔
    fieldReservedLow w = 0 ∧ fieldReservedHigh w = 0 ∧
      ∃ o, opcodeOf (fieldOPC w) = some o ∧ unusedFieldsZero o w = true ∧ vectorFieldsOk o w = true ∧
        o.build (fieldRD w) (fieldRA w) (fieldRB w) (fieldI w) (fieldJ w) = ins := by
  unfold decode
  by_cases hr : fieldReservedLow w ≠ 0 ∨ fieldReservedHigh w ≠ 0
  · rw [if_pos hr]
    constructor
    · intro h; cases h
    · rintro ⟨h1, h2, -⟩; tauto
  · rw [if_neg hr]
    rw [not_or, not_not, not_not] at hr
    cases ho : opcodeOf (fieldOPC w) with
    | none => simp
    | some o =>
      by_cases h1 : unusedFieldsZero o w = true <;> by_cases h2 : vectorFieldsOk o w = true <;> simp [h1, h2, hr]

/-- A word is its fields (R90). -/
theorem word_eq_formatF {w : Word} (hl : fieldReservedLow w = 0) (hh : fieldReservedHigh w = 0) :
    w = formatF (fieldOPC w) (fieldRD w) (fieldRA w) (fieldRB w) (fieldI w) (fieldJ w) := by
  have e1 : w.toNat >>> 14 % 2 ^ 2 = 0 := (BitVec.extractLsb'_toNat 14 2 w).symm.trans (congrArg BitVec.toNat hl)
  have e2 : w.toNat >>> 24 % 2 ^ 8 = 0 := (BitVec.extractLsb'_toNat 24 8 w).symm.trans (congrArg BitVec.toNat hh)
  have hw := w.isLt
  rw [Nat.shiftRight_eq_div_pow] at e1 e2
  apply BitVec.eq_of_toNat_eq
  rw [formatF_toNat]
  simp only [fieldOPC, fieldRD, fieldRA, fieldRB, fieldI, fieldJ, BitVec.extractLsb'_toNat, Nat.shiftRight_eq_div_pow]
  omega

end Sys2Proof
end

