-- ==== Sys2Proof/Laws/Bus.lean ====
section
/-! SUPPORT. What one bus transaction does at the addresses the statements name, the values of the registers as words, and that the
writes of storage keep the canonical form. -/

namespace Sys2Proof.Machine

/-! ## Transactions at STATUS, CTRL and the storage arrays -/

theorem transactState_status (s : State) (v : Word) (extra : Nat) :
    transactState { we := true, addr := 0x014, wdata := v } extra s = s.clearStatus v := by
  simp [transactState, busWriteState, targetOf, Target.writableBusy, State.writeTarget]

theorem transactState_ctrl (s : State) (v : Word) (extra : Nat) :
    transactState { we := true, addr := 0x018, wdata := v } extra s = s.writeCtrl v := by
  simp [transactState, busWriteState, targetOf, Target.writableBusy, State.writeTarget]

theorem busRead_storage {s : State} {a : Addr} (hp : s.phase = .idle) (h4 : a.toNat % 4 = 0)
    (h : (0x100 ≤ a.toNat ∧ a.toNat ≤ 0x17F) ∨ (0x400 ≤ a.toNat ∧ a.toNat ≤ 0x4FF) ∨
      (0x600 ≤ a.toNat ∧ a.toNat ≤ 0x7FF) ∨ 0x800 ≤ a.toNat) :
    busRead a s = { rdata := some (s.busWord a.toNat), berr := false } := by
  have ha := a.isLt
  rcases h with h | h | h | h
  · simp [busRead, h4, targetOf_vecWord (a := a.toNat) (by omega), hp, Phase.isBusy, State.readTarget]
  · simp [busRead, h4, targetOf_inWord (a := a.toNat) (by omega), hp, Phase.isBusy, State.readTarget]
  · simp [busRead, h4, targetOf_outWord (a := a.toNat) (by omega), hp, Phase.isBusy, State.readTarget]
  · simp [busRead, h4, targetOf_matWord (a := a.toNat) (by omega), hp, Phase.isBusy, State.readTarget]

theorem transactState_storage {s : State} {a : Addr} {v : Word} {extra : Nat} (hp : s.phase = .idle) (h4 : a.toNat % 4 = 0)
    (h : (0x100 ≤ a.toNat ∧ a.toNat ≤ 0x17F) ∨ (0x400 ≤ a.toNat ∧ a.toNat ≤ 0x4FF) ∨ 0x800 ≤ a.toNat) :
    transactState { we := true, addr := a, wdata := v } extra s = s.storeWord a.toNat v := by
  have ha := a.isLt
  rcases h with h | h | h
  · simp [transactState, busWriteState, h4, targetOf_vecWord (a := a.toNat) (by omega), hp, Phase.isBusy, State.writeTarget]
  · simp [transactState, busWriteState, h4, targetOf_inWord (a := a.toNat) (by omega), hp, Phase.isBusy, State.writeTarget]
  · simp [transactState, busWriteState, h4, targetOf_matWord (a := a.toNat) (by omega), hp, Phase.isBusy, State.writeTarget]

theorem transactState_pending (r : Request) (extra : Nat) (s : State) : (transactState r extra s).pending = s.pending := by
  rcases transactState_cases r extra s with h | ⟨_, h⟩ | ⟨_, _, _, h⟩ <;> rw [h]
  · rfl
  · cases targetOf r.addr.toNat <;> simp only [State.writeTarget]
    all_goals first | rfl | skip
    unfold State.writeCtrl; split <;> rfl

/-! ## Registers as words -/

theorem State.statusWord_getLsbD (s : State) {k : Nat} (hk : k < 32) : s.statusWord.getLsbD k =
    if k = 0 then s.phase.isBusy else if k = 1 then s.done else if k = 2 then s.err else if k = 3 then s.bv
    else if k < 8 then false else if k < 12 then (errorCode s.ecode).getLsbD (k - 8) else false := by
  unfold State.statusWord
  generalize errorCode s.ecode = e
  generalize s.phase.isBusy = a
  generalize s.done = b
  generalize s.err = c
  generalize s.bv = d
  simp only [BitVec.getLsbD_append, BitVec.getLsbD_ofBool, BitVec.getLsbD_ofNat]
  interval_cases k <;> simp

theorem paramWord_eq (p : Params) : paramWord p = BitVec.ofNat 32 (p.nMax + 0x1A00 + 0x10000 * p.textMax) := by
  have h1 := nMax_le p
  have h2 := textMax_le p
  apply BitVec.eq_of_toNat_eq
  unfold paramWord
  refine (append_toNat (0#7 ++ BitVec.ofNat 9 p.textMax ++ 0x1A#8 ++ 0#4) (BitVec.ofNat 4 p.nMax)).trans ?_
  rw [append_toNat, append_toNat, append_toNat]
  simp only [BitVec.toNat_ofNat]
  omega

theorem mdimWord_eq (x : BitVec 8) :
    x.setWidth 32 = BitVec.ofNat 32 ((x.extractLsb' 0 4).toNat + 16 * (x.extractLsb' 4 4).toNat) := by
  apply BitVec.eq_of_toNat_eq
  have := x.isLt
  simp [BitVec.extractLsb'_toNat, Nat.shiftRight_eq_div_pow]
  omega

/-! ## Storage words -/

/-- Byte `k` of a little-endian word is the byte it was built from (R67). -/
theorem extractLsb'_leNat (b : Nat → Byte) {k : Nat} (hk : k < 4) :
    (BitVec.ofNat 32 (leNat ((List.range 4).map b))).extractLsb' (8 * k) 8 = b k := by
  apply BitVec.eq_of_toNat_eq
  have h0 := (b 0).isLt
  have h1 := (b 1).isLt
  have h2 := (b 2).isLt
  have h3 := (b 3).isLt
  simp only [BitVec.extractLsb'_toNat, Nat.shiftRight_eq_div_pow, List.range_succ, List.range_zero, List.nil_append,
    List.map_cons, List.map_nil, List.cons_append, leNat, BitVec.toNat_ofNat]
  interval_cases k <;> omega

theorem State.byte_storeWord (s : State) (a : Nat) (v : Word) (x : Nat) : (s.storeWord a v).byte x =
    if (a ≤ x ∧ x < a + 4) ∧ hasStorage s.params x = true then v.extractLsb' (8 * (x - a)) 8 else s.byte x := by
  rw [State.storeWord, State.byte_store]
  have : x ∈ ((List.range 4).map (a + ·)).filter (hasStorage s.params) ↔
      (a ≤ x ∧ x < a + 4) ∧ hasStorage s.params x = true := by
    simp only [List.mem_filter, List.mem_map, List.mem_range]
    constructor
    · rintro ⟨⟨k, hk, rfl⟩, h⟩
      exact ⟨by omega, h⟩
    · rintro ⟨h1, h⟩
      exact ⟨⟨x - a, by omega, by omega⟩, h⟩
  simp only [this]
  rfl

/-- An element is the concatenation of its high and low words (R68). -/
theorem State.elem_of_words {s : State} {a : Nat} {lo hi : Word} (h : ∀ k < 4, s.byte (a + k) = lo.extractLsb' (8 * k) 8)
    (h' : ∀ k < 4, s.byte (a + 4 + k) = hi.extractLsb' (8 * k) 8) : s.elem a = hi ++ lo := by
  refine State.elem_eq_of_bytes fun k hk => ?_
  unfold byteOf
  by_cases hk4 : k < 4
  · rw [h k hk4, BitVec.extractLsb'_append_eq_of_add_le (by omega)]
  · have := h' (k - 4) (by omega)
    rw [show a + 4 + (k - 4) = a + k by omega] at this
    rw [this, BitVec.extractLsb'_append_eq_of_le (by omega)]
    congr 1
    omega

/-! ## Every write of storage keeps the canonical form -/

theorem State.wf_store {s : State} (l : List Nat) (f : Nat → Byte) (h : s.mem.wf) : (s.store l f).mem.wf :=
  Memory.wf_writeMany l f h

theorem State.wf_storeWord {s : State} (a : Nat) (v : Word) (h : s.mem.wf) : (s.storeWord a v).mem.wf :=
  Memory.wf_writeMany _ _ h

theorem State.wf_writeMat {s : State} (d : Fin 4) (X : Mat) (h : s.mem.wf) : (s.writeMat d X).mem.wf :=
  Memory.wf_writeMany _ _ h

theorem State.wf_writeVec {s : State} (d : Fin 2) (x : Vec) (h : s.mem.wf) : (s.writeVec d x).mem.wf :=
  Memory.wf_writeMany _ _ h

theorem State.wf_writeOut {s : State} (t : List Byte) (h : s.mem.wf) : (s.writeOut t).mem.wf :=
  Memory.wf_writeMany _ _ h

end Sys2Proof.Machine
end

