-- ==== Sys2Proof/Laws/Modular.lean ====
section
/-! SUPPORT. Arithmetic modulo 26: when an inverse exists, what it is, and the two outcomes of the key inversion. -/

namespace Sys2Proof.Machine

theorem emod_mul_emod (a b : Int) : a % 26 * b % 26 = a * b % 26 := by
  rw [Int.mul_emod, Int.emod_emod_of_dvd _ (dvd_refl 26), ← Int.mul_emod]

/-- An inverse exists for every number prime to 26, is in 1..25, and is an inverse (spec/42_modular.md R140, R141). -/
theorem modInv26_of_unit {a : Int} (h : Int.gcd (a % 26) 26 = 1) :
    ∃ x : Nat, modInv26 a = some x ∧ 1 ≤ x ∧ x ≤ 25 ∧ a * (x : Int) % 26 = 1 := by
  have key : ∀ m : Fin 26, Int.gcd ((m : Nat) : Int) 26 = 1 → ∃ x : Fin 26,
      ((List.range' 1 25).find? fun (y : Nat) => (((m : Nat) : Int) * (y : Int)) % 26 == 1) = some (x : Nat) ∧
        1 ≤ (x : Nat) ∧ ((m : Nat) : Int) * (x : Nat) % 26 = 1 := by
    decide +kernel
  have h0 : 0 ≤ a % 26 := Int.emod_nonneg _ (by omega)
  have hlt : a % 26 < 26 := Int.emod_lt_of_pos _ (by omega)
  obtain ⟨n, hn⟩ := Int.eq_ofNat_of_zero_le h0
  obtain ⟨x, h1, h2, h3⟩ := key ⟨n, by omega⟩ (by rw [← hn]; exact h)
  refine ⟨x, ?_, h2, by omega, ?_⟩
  · rw [modInv26, modulus, hn]; exact h1
  · rw [← emod_mul_emod, hn]; exact h3

/-- No other number has one. -/
theorem modInv26_of_not_unit {a : Int} (h : Int.gcd (a % 26) 26 ≠ 1) : modInv26 a = none := by
  have key : ∀ m : Fin 26, Int.gcd ((m : Nat) : Int) 26 ≠ 1 →
      ((List.range' 1 25).find? fun (y : Nat) => (((m : Nat) : Int) * (y : Int)) % 26 == 1) = none := by
    decide +kernel
  have h0 : 0 ≤ a % 26 := Int.emod_nonneg _ (by omega)
  have hlt : a % 26 < 26 := Int.emod_lt_of_pos _ (by omega)
  obtain ⟨n, hn⟩ := Int.eq_ofNat_of_zero_le h0
  rw [modInv26, modulus, hn]
  exact key ⟨n, by omega⟩ (by rw [← hn]; exact h)

/-- The inverse key as a matrix, for the inverse `iv` of the determinant (R143). -/
def inverseKey (A : Mat) (iv : Nat) : Mat := { rows := (adj A).rows, cols := (adj A).cols, e := inverseEntry A iv }

/-- The inversion of an invertible key, given the inverse of its determinant (R143). -/
theorem keyInverse_eq_ok {A : Mat} {iv : Nat} (h : KeyInvertible A) (hiv : modInv26 (det A % 26) = some iv) :
    keyInverse A = .ok (inverseKey A iv, det A % 26, iv) := by
  have hz : ¬ (det A % modulus = 0 ∨ Int.gcd (det A % modulus) modulus ≠ 1) := by
    rw [not_or, not_not]
    refine ⟨fun h0 => ?_, h⟩
    have h0' : det A % 26 = 0 := h0
    rw [KeyInvertible, h0'] at h
    exact absurd h (by decide)
  have h1 : modInv26 (det A % modulus) = some iv := hiv
  simp only [keyInverse, modInvMatrix26, if_neg hz, h1]
  rfl

/-- An invertible key (R143). -/
theorem keyInverse_of_invertible {A : Mat} (h : KeyInvertible A) :
    ∃ iv : Nat, keyInverse A = .ok (inverseKey A iv, det A % 26, iv) ∧ 1 ≤ iv ∧ iv ≤ 25 ∧ det A * (iv : Int) % 26 = 1 := by
  obtain ⟨iv, h1, h2, h3, h4⟩ := modInv26_of_unit (a := det A % 26) (by rwa [Int.emod_emod_of_dvd _ (dvd_refl 26)])
  exact ⟨iv, keyInverse_eq_ok h h1, h2, h3, by rw [← emod_mul_emod]; exact h4⟩

/-- A key that is not invertible (R143, R173). -/
theorem keyInverse_of_not_invertible {A : Mat} (h : ¬ KeyInvertible A) : keyInverse A = .error .singularMatrixMod := by
  have hz : det A % modulus = 0 ∨ Int.gcd (det A % modulus) modulus ≠ 1 := .inr h
  simp only [keyInverse, modInvMatrix26, if_pos hz]

/-- Residues modulo 26 always fit an element. -/
theorem fits64_emod (x : Int) : fits64 (x % 26) = true := by
  have h0 : 0 ≤ x % 26 := Int.emod_nonneg _ (by omega)
  have hlt : x % 26 < 26 := Int.emod_lt_of_pos _ (by omega)
  rw [fits64_iff]
  omega

theorem fits_inverseKey (A : Mat) (iv : Nat) : (inverseKey A iv).fits = true :=
  Mat.fits_iff.mpr fun _ _ _ _ => fits64_emod _

theorem fits_hillBlock (T : Mat) (v : Vec) : (hillBlock T v).fits = true := Vec.fits_iff.mpr fun _ _ => fits64_emod _

/-! ## The inverse key, element by element (R145) -/

/-- A sum of products modulo 26 may take its factors modulo 26. -/
theorem sum_emod_congr {n : Nat} {f g : Nat → Int} (h : ∀ k < n, f k % 26 = g k % 26) :
    (∑ k ∈ Finset.range n, f k) % 26 = (∑ k ∈ Finset.range n, g k) % 26 := by
  rw [Finset.sum_int_mod, Finset.sum_int_mod _ _ g]
  congr 1
  exact Finset.sum_congr rfl fun k hk => h k (Finset.mem_range.mp hk)

theorem sum_mul_inverseEntry {A : Mat} {n iv : Nat} (hr : A.rows = n) (hc : A.cols = n)
    (hiv : det A * (iv : Int) % 26 = 1) {r c : Nat} (hrn : r < n) (hcn : c < n) :
    (∑ k ∈ Finset.range n, A.e r k * inverseEntry A iv k c) % 26 = if r = c then 1 else 0 := by
  have h : (∑ k ∈ Finset.range n, A.e r k * inverseEntry A iv k c) % 26 =
      (∑ k ∈ Finset.range n, (iv : Int) * (A.e r k * (adj A).e k c)) % 26 := by
    refine sum_emod_congr fun k _ => ?_
    rw [inverseEntry, mul_comm, emod_mul_emod]
    congr 1
    ring
  rw [h, ← Finset.mul_sum, sum_mul_adj hr hc hrn hcn]
  split
  · rw [mul_comm]; exact hiv
  · simp

theorem sum_inverseEntry_mul {A : Mat} {n iv : Nat} (hr : A.rows = n) (hiv : det A * (iv : Int) % 26 = 1) {r c : Nat}
    (hrn : r < n) (hcn : c < n) :
    (∑ k ∈ Finset.range n, inverseEntry A iv r k * A.e k c) % 26 = if r = c then 1 else 0 := by
  have h : (∑ k ∈ Finset.range n, inverseEntry A iv r k * A.e k c) % 26 =
      (∑ k ∈ Finset.range n, (iv : Int) * ((adj A).e r k * A.e k c)) % 26 := by
    refine sum_emod_congr fun k _ => ?_
    rw [inverseEntry, emod_mul_emod]
    congr 1
    ring
  rw [h, ← Finset.mul_sum, sum_adj_mul hr hrn hcn]
  split
  · rw [mul_comm]; exact hiv
  · simp

theorem inverseEntry_range (A : Mat) (iv : Int) (r c : Nat) : 0 ≤ inverseEntry A iv r c ∧ inverseEntry A iv r c ≤ 25 := by
  have h0 : 0 ≤ iv * (adj A).e r c % 26 := Int.emod_nonneg _ (by omega)
  have hlt : iv * (adj A).e r c % 26 < 26 := Int.emod_lt_of_pos _ (by omega)
  exact ⟨h0, by unfold inverseEntry; omega⟩

/-- Decrypting an encrypted block gives the block modulo 26 (spec/43_hill.md R156). -/
theorem block_roundtrip {A : Mat} {n iv : Nat} (hr : A.rows = n) (hiv : det A * (iv : Int) % 26 = 1) (v : Nat → Int) {r : Nat}
    (hrn : r < n) :
    (∑ k ∈ Finset.range n, inverseEntry A iv r k * ((∑ q ∈ Finset.range n, A.e k q * v q) % 26)) % 26 = v r % 26 := by
  have h1 : (∑ k ∈ Finset.range n, inverseEntry A iv r k * ((∑ q ∈ Finset.range n, A.e k q * v q) % 26)) % 26 =
      (∑ k ∈ Finset.range n, ∑ q ∈ Finset.range n, inverseEntry A iv r k * A.e k q * v q) % 26 := by
    refine sum_emod_congr fun k _ => ?_
    rw [mul_comm, emod_mul_emod, mul_comm, Finset.mul_sum]
    congr 1
    exact Finset.sum_congr rfl fun q _ => by ring
  have h2 : (∑ q ∈ Finset.range n, (∑ k ∈ Finset.range n, inverseEntry A iv r k * A.e k q) * v q) % 26 =
      (∑ q ∈ Finset.range n, if q = r then v q else 0) % 26 := by
    refine sum_emod_congr fun q hq => ?_
    rw [← emod_mul_emod, sum_inverseEntry_mul hr hiv hrn hq]
    by_cases h : r = q
    · simp [h]
    · simp [h, Ne.symm h]
  rw [h1, Finset.sum_comm]
  simp only [← Finset.sum_mul]
  rw [h2, Finset.sum_ite_eq' (Finset.range n) r v, if_pos (Finset.mem_range.mpr hrn)]

end Sys2Proof.Machine
end

