-- ==== Sys2Proof/Laws/PerInstr.lean ====
section
/-! SUPPORT. The family ReservedBitsZero: the word of every command has its reserved bits 0 and its opcode in OPC
(spec/30_encoding.md R90, R96, R98). -/

namespace Sys2Proof.Laws.ReservedBitsZero

open Sys2Proof

/-- The reserved bits of the command's word are 0 (R96), and its OPC is the code of R98. -/
def Statement (i : Instr) : Prop :=
  fieldReservedLow (encode i) = 0 ∧ fieldReservedHigh (encode i) = 0 ∧ fieldOPC (encode i) = i.opcode.code

theorem of_formatF {i : Instr} {rd ra rb : Selector} {x y : Imm} (h : encode i = formatF i.opcode.code rd ra rb x y) :
    Statement i := by
  unfold Statement
  rw [h]
  simp

theorem nop : Statement .nop := of_formatF rfl
theorem c2n : Statement .c2n := of_formatF rfl
theorem n2c : Statement .n2c := of_formatF rfl
theorem split (k : Imm) : Statement (.split k) := of_formatF rfl
theorem add (rd ra rb : Selector) : Statement (.add rd ra rb) := of_formatF rfl
theorem mulm (rd ra rb : Selector) : Statement (.mulm rd ra rb) := of_formatF rfl
theorem mulv (rd ra rb : Selector) : Statement (.mulv rd ra rb) := of_formatF rfl
theorem det (ra : Selector) : Statement (.det ra) := of_formatF rfl
theorem minor (rd ra : Selector) (i j : Imm) : Statement (.minor rd ra i j) := of_formatF rfl
theorem adj (rd ra : Selector) : Statement (.adj rd ra) := of_formatF rfl
theorem trn (rd ra : Selector) : Statement (.trn rd ra) := of_formatF rfl
theorem inv (rd ra : Selector) : Statement (.inv rd ra) := of_formatF rfl
theorem modinv : Statement .modinv := of_formatF rfl
theorem minvm (rd ra : Selector) : Statement (.minvm rd ra) := of_formatF rfl
theorem encb (rd ra rb : Selector) : Statement (.encb rd ra rb) := of_formatF rfl
theorem decb (rd ra rb : Selector) : Statement (.decb rd ra rb) := of_formatF rfl
theorem enct (ra : Selector) : Statement (.enct ra) := of_formatF rfl
theorem dect (ra : Selector) : Statement (.dect ra) := of_formatF rfl

end Sys2Proof.Laws.ReservedBitsZero
end

