-- ==== Sys2Proof/Laws/SameData.lean ====
section
/-! SUPPORT. The exact functions depend on nothing but the elements inside the shapes of their arguments, and the writes of one
register leave the elements and the text of every other alone (spec/10_state.md R24, R25, R31). -/

namespace Sys2Proof.Machine

/-- Two matrices with the same shape and the same elements inside it. -/
structure SameMat (X Y : Mat) : Prop where
  rows : Y.rows = X.rows
  cols : Y.cols = X.cols
  e : ∀ r < X.rows, ∀ c < X.cols, Y.e r c = X.e r c

/-- Two vectors with the same length and the same elements inside it. -/
structure SameVec (x y : Vec) : Prop where
  len : y.len = x.len
  e : ∀ k < x.len, y.e k = x.e k

/-! ## The functions -/

section
variable {X Y X' Y' : Mat} {x y : Vec}

theorem SameMat.fits (h : SameMat X Y) : Y.fits = X.fits := by
  rw [Bool.eq_iff_iff, Mat.fits_iff, Mat.fits_iff, h.rows, h.cols]
  exact forall₂_congr fun r hr => forall₂_congr fun c hc => by rw [h.e r hr c hc]

theorem SameVec.fits (h : SameVec x y) : y.fits = x.fits := by
  rw [Bool.eq_iff_iff, Vec.fits_iff, Vec.fits_iff, h.len]
  exact forall₂_congr fun k hk => by rw [h.e k hk]

theorem SameMat.slot (h : SameMat X Y) (r c : Nat) : Y.slot r c = X.slot r c := by
  unfold Mat.slot
  rw [h.rows, h.cols]
  split
  · rename_i hh
    rw [h.e r hh.1 c hh.2]
  · rfl

theorem SameVec.slot (h : SameVec x y) (k : Nat) : y.slot k = x.slot k := by
  unfold Vec.slot
  rw [h.len]
  split
  · rename_i hh
    rw [h.e k hh]
  · rfl

theorem detOf_congr {n : Nat} {a b : Nat → Nat → Int} (h : ∀ r < n, ∀ c < n, a r c = b r c) : detOf n a = detOf n b := by
  rw [detOf_eq_det, detOf_eq_det]
  congr 1
  ext r c
  exact h r r.isLt c c.isLt

theorem SameMat.det (h : SameMat X Y) (hq : X.rows = X.cols) : det Y = det X := by
  unfold Machine.det
  rw [h.rows]
  exact detOf_congr fun r hr c hc => h.e r hr c (by omega)

theorem skip_lt {d n k : Nat} (h : n < k - 1) : skip d n < k := by
  unfold skip
  split <;> omega

theorem SameMat.minor (h : SameMat X Y) (i j : Nat) : SameMat (minor X i j) (minor Y i j) where
  rows := congrArg (· - 1) h.rows
  cols := congrArg (· - 1) h.cols
  e _ hr _ hc := h.e _ (skip_lt hr) _ (skip_lt hc)

theorem SameMat.transpose (h : SameMat X Y) : SameMat (transpose X) (transpose Y) where
  rows := h.cols
  cols := h.rows
  e r hr c hc := h.e c hc r hr

theorem SameMat.adj (h : SameMat X Y) (hq : X.rows = X.cols) : SameMat (adj X) (adj Y) where
  rows := h.cols
  cols := h.rows
  e r _ c _ := by
    rw [adj_e, adj_e, h.rows, (h.minor c r).det (show X.rows - 1 = X.cols - 1 by rw [hq])]

theorem SameMat.matAdd (h : SameMat X Y) (h' : SameMat X' Y') (hr : X.rows = X'.rows) (hc : X.cols = X'.cols) :
    SameMat (matAdd X X') (matAdd Y Y') where
  rows := h.rows
  cols := h.cols
  e r hr' c hc' := by
    have e1 := h.e r hr' c hc'
    have e2 := h'.e r (by rw [← hr]; exact hr') c (by rw [← hc]; exact hc')
    simp only [Machine.matAdd, e1, e2]

theorem SameMat.matMul (h : SameMat X Y) (h' : SameMat X' Y') (hs : X.cols = X'.rows) :
    SameMat (matMul X X') (matMul Y Y') where
  rows := h.rows
  cols := h'.cols
  e r hr c hc := by
    simp only [Machine.matMul, h.cols]
    exact sumTo_congr fun q hq => by rw [h.e r hr q hq, h'.e q (by rw [← hs]; exact hq) c hc]

theorem SameMat.matVec (h : SameMat X Y) (h' : SameVec x y) (hs : X.cols = x.len) : SameVec (matVec X x) (matVec Y y) where
  len := h.rows
  e r hr := by
    simp only [Machine.matVec, h.cols]
    exact sumTo_congr fun q hq => by rw [h.e r hr q hq, h'.e q (by rw [← hs]; exact hq)]

/-- Two results that are alike: the same error, or related values. -/
def SameResult {α : Type} (R : α → α → Prop) : Except CmdError α → Except CmdError α → Prop
  | .ok a, .ok b => R a b
  | .error e, .error f => e = f
  | _, _ => False

theorem sameResult_refl {α : Type} {R : α → α → Prop} (r : Except CmdError α) (h : ∀ a, r = .ok a → R a a) :
    SameResult R r r := by
  cases r
  · rfl
  · exact h _ rfl

theorem SameMat.keyInverse (h : SameMat X Y) (hq : X.rows = X.cols) :
    SameResult (fun a b => SameMat a.1 b.1 ∧ a.2 = b.2) (keyInverse X) (keyInverse Y) := by
  have hd := h.det hq
  by_cases hk : KeyInvertible X
  · obtain ⟨iv, h1, _⟩ := modInv26_of_unit (a := Machine.det X % 26) (by rwa [Int.emod_emod_of_dvd _ (dvd_refl 26)])
    have hk' : KeyInvertible Y := by unfold KeyInvertible; rw [hd]; exact hk
    rw [keyInverse_eq_ok hk h1, keyInverse_eq_ok (iv := iv) hk' (by rw [hd]; exact h1)]
    have ha := h.adj hq
    refine ⟨⟨ha.rows, ha.cols, fun r hr c hc => ?_⟩, by rw [hd]⟩
    show inverseEntry _ _ _ _ = inverseEntry _ _ _ _
    unfold inverseEntry
    rw [ha.e r hr c hc]
  · have hk' : ¬ KeyInvertible Y := by unfold KeyInvertible; rw [hd]; exact hk
    rw [keyInverse_of_not_invertible hk, keyInverse_of_not_invertible hk']
    rfl

theorem SameMat.hillBlock (h : SameMat X Y) (h' : ∀ q < X.cols, y.e q = x.e q) : SameVec (hillBlock X x) (hillBlock Y y) where
  len := h.rows
  e r hr := by
    simp only [Machine.hillBlock, h.cols]
    congr 1
    exact sumTo_congr fun q hq => by rw [h.e r hr q hq, h' q hq]

theorem SameVec.letters (h : SameVec x y) : letters y = letters x := by
  unfold Machine.letters
  rw [h.len]
  exact List.map_congr_left fun r hr => by rw [h.e r (List.mem_range.mp hr)]

theorem SameMat.hillBlocks (h : SameMat X Y) (n : Nat) (t : List Byte) : hillBlocks Y n t = hillBlocks X n t := by
  induction n generalizing t with
  | zero => rfl
  | succ n ih =>
    simp only [Machine.hillBlocks, h.rows, h.cols, ih]
    congr 1
    funext v
    congr 1
    congr 1
    funext rest
    rw [(h.hillBlock fun q _ => rfl).letters]

theorem SameMat.hillText (h : SameMat X Y) (t : List Byte) : hillText Y t = hillText X t := by
  unfold Machine.hillText
  rw [h.rows, h.hillBlocks]

end

/-! ## What the write of one register leaves alone -/

section
variable {s : State}

theorem State.elem_writeMat_ne {i d : Fin 4} (h : i ≠ d) (X : Mat) {r c : Nat} (hr : r < s.params.nMax) (hc : c < s.params.nMax) :
    (s.writeMat d X).elem (matAddr i r c) = s.elem (matAddr i r c) := by
  refine State.elem_congr fun k hk => ?_
  have hN := nMax_le s.params
  have : i.val ≠ d.val := fun e => h (Fin.ext e)
  rw [State.byte_writeMat, if_neg]
  rw [mem_matBytes]
  unfold matAddr matBase
  omega

theorem State.elem_vec_writeMat (j : Fin 2) (d : Fin 4) (X : Mat) {e : Nat} (he : e < s.params.nMax) :
    (s.writeMat d X).elem (vecAddr j e) = s.elem (vecAddr j e) := by
  refine State.elem_congr fun k hk => ?_
  have hN := nMax_le s.params
  have := j.isLt
  rw [State.byte_writeMat, if_neg]
  rw [mem_matBytes]
  unfold vecAddr vecBase matBase
  omega

theorem State.elem_mat_writeVec (i : Fin 4) (d : Fin 2) (x : Vec) {r c : Nat} (hr : r < s.params.nMax) (hc : c < s.params.nMax) :
    (s.writeVec d x).elem (matAddr i r c) = s.elem (matAddr i r c) := by
  refine State.elem_congr fun k hk => ?_
  have hN := nMax_le s.params
  have := d.isLt
  rw [State.byte_writeVec, if_neg]
  rw [mem_vecBytes]
  unfold matAddr vecBase matBase
  omega

theorem State.elem_writeVec_ne {j d : Fin 2} (h : j ≠ d) (x : Vec) {e : Nat} (he : e < s.params.nMax) :
    (s.writeVec d x).elem (vecAddr j e) = s.elem (vecAddr j e) := by
  refine State.elem_congr fun k hk => ?_
  have hN := nMax_le s.params
  have : j.val ≠ d.val := fun e => h (Fin.ext e)
  rw [State.byte_writeVec, if_neg]
  rw [mem_vecBytes]
  unfold vecAddr vecBase
  omega

theorem State.elem_mat_writeOut (i : Fin 4) {t : List Byte} (ht : t.length ≤ s.params.outCap) (r c : Nat) :
    (s.writeOut t).elem (matAddr i r c) = s.elem (matAddr i r c) := by
  refine State.elem_congr fun k hk => ?_
  have hO := outCap_le s.params
  rw [State.byte_writeOut, if_neg]
  rw [mem_outBytes]
  unfold matAddr matBase outBase
  omega

theorem State.elem_vec_writeOut (j : Fin 2) (t : List Byte) {e : Nat} (he : e < s.params.nMax) :
    (s.writeOut t).elem (vecAddr j e) = s.elem (vecAddr j e) := by
  refine State.elem_congr fun k hk => ?_
  have hN := nMax_le s.params
  have := j.isLt
  rw [State.byte_writeOut, if_neg]
  rw [mem_outBytes]
  unfold vecAddr vecBase outBase
  omega

theorem State.inByte_writeMat (d : Fin 4) (X : Mat) {k : Nat} (hk : k < 256) : (s.writeMat d X).inByte k = s.inByte k := by
  rw [State.inByte, State.byte_writeMat, if_neg]
  · rfl
  · rw [mem_matBytes]
    unfold matBase inBase
    omega

theorem State.inByte_writeVec (d : Fin 2) (x : Vec) {k : Nat} (hk : k < 256) : (s.writeVec d x).inByte k = s.inByte k := by
  rw [State.inByte, State.byte_writeVec, if_neg]
  · rfl
  · have := d.isLt
    rw [mem_vecBytes]
    unfold vecBase inBase
    omega

theorem State.inByte_writeOut (t : List Byte) {k : Nat} (hk : k < 256) : (s.writeOut t).inByte k = s.inByte k := by
  rw [State.inByte, State.byte_writeOut, if_neg]
  · rfl
  · rw [mem_outBytes]
    unfold outBase inBase
    omega

end

/-! ## States that hold the same data -/

section
variable {s : State} {m : Memory}

theorem SameData.mat (h : SameData s { s with mem := m }) (i : Fin 4) (hv : s.validMat i = true) :
    SameMat (s.mat i) (State.mat { s with mem := m } i) :=
  ⟨rfl, rfl, fun r hr c hc => h.mats i r c (State.validMat_iff.mp hv) hr hc⟩

theorem SameData.vec (h : SameData s { s with mem := m }) (j : Fin 2) (hv : s.validVec j = true) :
    SameVec (s.vec j) (State.vec { s with mem := m } j) :=
  ⟨rfl, fun k hk => h.vecs j k (State.validVec_iff.mp hv) hk⟩

theorem SameData.text_eq (h : SameData s { s with mem := m }) (hv : s.textOk = true) : State.text { s with mem := m } = s.text := by
  unfold State.text
  exact List.map_congr_left fun k hk => h.text k (State.textOk_iff.mp hv) (List.mem_range.mp hk)

end

end Sys2Proof.Machine
end

