-- ==== Sys2Proof/Machine/HostMacros.lean ====
section
/-! DEFINITION. The host's notation (spec/30_encoding.md R102, R103): a command as a line of assembly, the pseudo-instructions as
lists of bus transactions, and the cycles that drive a list of transactions. None of it is part of the block. -/

namespace Sys2Proof.Machine

/-! ## Assembler syntax (R102) -/

def matName (f : BitVec 2) : String := "M" ++ toString f.toNat
def vecName (f : BitVec 2) : String := "V" ++ toString f.toNat
def immName (k : BitVec 4) : String := "#" ++ toString k.toNat

/-- The line that assembles to a command's word. -/
def assembly : Instr → String
  | .nop => "NOP"
  | .c2n => "C2N"
  | .n2c => "N2C"
  | .split k => "SPLIT " ++ immName k
  | .add rd ra rb => "ADD " ++ matName rd ++ ", " ++ matName ra ++ ", " ++ matName rb
  | .mulm rd ra rb => "MULM " ++ matName rd ++ ", " ++ matName ra ++ ", " ++ matName rb
  | .mulv rd ra rb => "MULV " ++ vecName rd ++ ", " ++ matName ra ++ ", " ++ vecName rb
  | .det ra => "DET " ++ matName ra
  | .minor rd ra i j => "MINOR " ++ matName rd ++ ", " ++ matName ra ++ ", " ++ immName i ++ ", " ++ immName j
  | .adj rd ra => "ADJ " ++ matName rd ++ ", " ++ matName ra
  | .trn rd ra => "TRN " ++ matName rd ++ ", " ++ matName ra
  | .inv rd ra => "INV " ++ matName rd ++ ", " ++ matName ra
  | .modinv => "MODINV"
  | .minvm rd ra => "MINVM " ++ matName rd ++ ", " ++ matName ra
  | .encb rd ra rb => "ENCB " ++ vecName rd ++ ", " ++ matName ra ++ ", " ++ vecName rb
  | .decb rd ra rb => "DECB " ++ vecName rd ++ ", " ++ matName ra ++ ", " ++ vecName rb
  | .enct ra => "ENCT " ++ matName ra
  | .dect ra => "DECT " ++ matName ra

/-! ## Pseudo-instructions (R103) -/

/-- `W(a, v)`, that is `BusWrite(a, v)` (R12). -/
def busWrite (a : Nat) (v : Word) : Request := { we := true, addr := BitVec.ofNat 12 a, wdata := v }

/-- `BusRead(a)` (R12). -/
def busReadAt (a : Nat) : Request := { we := false, addr := BitVec.ofNat 12 a, wdata := 0 }

/-- The two words of an element at an address, the low word first (R68). -/
def elemWrites (a : Nat) (x : Int) : List Request :=
  [busWrite a ((BitVec.ofInt 64 x).extractLsb' 0 32), busWrite (a + 4) ((BitVec.ofInt 64 x).extractLsb' 32 32)]

/-- `LDM Mi, rows`: the shape, then every element. -/
def ldm (i : Nat) (rows : List (List Int)) : List Request :=
  busWrite (0x040 + 4 * i) (BitVec.ofNat 32 (16 * (rows.headD []).length + rows.length)) ::
    rows.zipIdx.flatMap fun row => row.1.zipIdx.flatMap fun x => elemWrites (matAddr i row.2 x.2) x.1

/-- `LDV Vj, xs`: the length, then every element. -/
def ldv (j : Nat) (xs : List Int) : List Request :=
  busWrite (0x050 + 4 * j) (BitVec.ofNat 32 xs.length) :: xs.zipIdx.flatMap fun x => elemWrites (vecAddr j x.2) x.1

/-- The word of four text bytes at an index, unused upper bytes 0 (R67). -/
def textWord (t : List Byte) (w : Nat) : Word :=
  BitVec.ofNat 32 (leNat ((List.range 4).map fun k => t.getD (4 * w + k) 0))

/-- `LDT "text"`: the packed words, then TEXT_LEN. -/
def ldt (t : List Byte) : List Request :=
  ((List.range ((t.length + 3) / 4)).map fun w => busWrite (inBase + 4 * w) (textWord t w)) ++
    [busWrite 0x034 (BitVec.ofNat 32 t.length)]

/-- `LDS v`. -/
def lds (v : Word) : List Request := [busWrite 0x030 v]

/-- `WAIT` with `polls` reads of STATUS: how many the loop makes depends on the latency. -/
def wait (polls : Nat) : List Request := List.replicate polls (busReadAt 0x014)

/-- `RUN <command>`: the CMD write, then `WAIT`. -/
def run (i : Instr) (polls : Nat) : List Request := busWrite 0x010 (encode i) :: wait polls

/-- `CLR`: clears DONE, ERR and BV. -/
def clr : List Request := [busWrite 0x014 0x0000000E]

/-! ## Driving transactions -/

/-- The cycles that drive one transaction with the shortest acknowledge: the request is raised, and held into the next cycle,
where it is acknowledged (R61). `extra` is LAT − 1 of a command it starts. -/
def Request.cycles (r : Request) (extra : Nat) : List Cycle :=
  List.replicate 2 { rstN := true, req := some r, extraAck := 0, extraLatency := extra }

/-- The cycles that drive transactions one after another. -/
def drive (rs : List Request) (extra : Nat) : List Cycle := rs.flatMap fun r => r.cycles extra

/-- The state after transactions that all take effect while nothing completes in between (R62). -/
def transactAll (rs : List Request) (s : State) : State := rs.foldl (fun t r => transactState r 0 t) s

end Sys2Proof.Machine
end

