-- ==== Sys2Proof/Tests/Slice0.lean ====
section
/-! SUPPORT. Tests: expected results are the spec's own (spec/30_encoding.md R104 and the tables of spec/95_test_vectors.md, named in
each comment), or are written out from its encodings by hand. Then one witness for each statement that has hypotheses. -/

namespace Sys2Proof.Tests

open Sys2Proof Sys2Proof.Machine

set_option maxRecDepth 10000
set_option Elab.async false

/-! ## WellFormed refuses ill-formed terms (R93, R95): a vector selector above 1 -/

theorem test_wellFormed_refuses_mulv_rd : (Instr.mulv 2 0 0).wellFormed = false := by decide
theorem test_wellFormed_refuses_mulv_rb : (Instr.mulv 0 0 3).wellFormed = false := by decide
theorem test_wellFormed_refuses_encb_rd : (Instr.encb 3 0 0).wellFormed = false := by decide
theorem test_wellFormed_refuses_encb_rb : (Instr.encb 1 0 2).wellFormed = false := by decide
theorem test_wellFormed_refuses_decb_rd : (Instr.decb 2 1 1).wellFormed = false := by decide
theorem test_wellFormed_refuses_decb_rb : (Instr.decb 1 1 3).wellFormed = false := by decide
theorem test_wellFormed_accepts : (Instr.mulv 1 3 1).wellFormed = true ∧ (Instr.minor 3 3 15 15).wellFormed = true ∧
    (Instr.split 15).wellFormed = true := by decide

/-! ## Decoding: each word written bit by bit, `00000000 JJJJ IIII 00 BB AA DD OOOOOOOO` (R90, R95, R98) -/

theorem test_decode_nop : decode 0b00000000000000000000000000000000 = .ok .nop := by decide
theorem test_decode_c2n : decode 0b00000000000000000000000000000001 = .ok .c2n := by decide
theorem test_decode_n2c : decode 0b00000000000000000000000000000010 = .ok .n2c := by decide
-- I = 1011
theorem test_decode_split : decode 0b00000000000010110000000000000011 = .ok (.split 11) := by decide
-- BB = 01, AA = 11, DD = 10
theorem test_decode_add : decode 0b00000000000000000001111000010000 = .ok (.add 2 3 1) := by decide
-- BB = 11, AA = 01, DD = 10
theorem test_decode_mulm : decode 0b00000000000000000011011000010001 = .ok (.mulm 2 1 3) := by decide
-- BB = 01, AA = 10, DD = 00
theorem test_decode_mulv : decode 0b00000000000000000001100000010010 = .ok (.mulv 0 2 1) := by decide
-- AA = 10
theorem test_decode_det : decode 0b00000000000000000000100000010011 = .ok (.det 2) := by decide
-- J = 1001, I = 0110, AA = 01, DD = 11
theorem test_decode_minor : decode 0b00000000100101100000011100010100 = .ok (.minor 3 1 6 9) := by decide
-- AA = 10, DD = 01
theorem test_decode_adj : decode 0b00000000000000000000100100010101 = .ok (.adj 1 2) := by decide
theorem test_decode_trn : decode 0b00000000000000000000100100010110 = .ok (.trn 1 2) := by decide
theorem test_decode_inv : decode 0b00000000000000000000100100010111 = .ok (.inv 1 2) := by decide
theorem test_decode_modinv : decode 0b00000000000000000000000000100000 = .ok .modinv := by decide
theorem test_decode_minvm : decode 0b00000000000000000000100100100001 = .ok (.minvm 1 2) := by decide
-- BB = 01, AA = 10, DD = 00
theorem test_decode_encb : decode 0b00000000000000000001100000110000 = .ok (.encb 0 2 1) := by decide
theorem test_decode_decb : decode 0b00000000000000000001100000110001 = .ok (.decb 0 2 1) := by decide
-- AA = 11
theorem test_decode_enct : decode 0b00000000000000000000110000110010 = .ok (.enct 3) := by decide
theorem test_decode_dect : decode 0b00000000000000000000110000110011 = .ok (.dect 3) := by decide

/-- 95_test_vectors.md 2.1, and a neighbour of each opcode group that R98 leaves unassigned. -/
theorem test_decode_refuses : decode 0x00004010 = .error .reservedBits ∧ decode 0x01000000 = .error .reservedBits ∧
    decode 0x00000004 = .error .unassignedOpcode ∧ decode 0x00000018 = .error .unassignedOpcode ∧
    decode 0x00000022 = .error .unassignedOpcode ∧ decode 0x00000034 = .error .unassignedOpcode ∧
    decode 0x00100000 = .error .unusedField ∧ decode 0x00000230 = .error .vectorSelector ∧
    decode 0x00002012 = .error .vectorSelector := by decide

/-- The rows of spec/opcode_table.json: mask, then match. -/
def tableRows : List (Word × Word) :=
  [(0xFFFFFFFF, 0x00), (0xFFFFFFFF, 0x01), (0xFFFFFFFF, 0x02), (0xFFF0FFFF, 0x03), (0xFFFFC0FF, 0x10), (0xFFFFC0FF, 0x11),
   (0xFFFFE2FF, 0x12), (0xFFFFF3FF, 0x13), (0xFF00F0FF, 0x14), (0xFFFFF0FF, 0x15), (0xFFFFF0FF, 0x16), (0xFFFFF0FF, 0x17),
   (0xFFFFFFFF, 0x20), (0xFFFFF0FF, 0x21), (0xFFFFE2FF, 0x30), (0xFFFFE2FF, 0x31), (0xFFFFF3FF, 0x32), (0xFFFFF3FF, 0x33)]

/-- No word matches two rows: any two rows differ in a bit both fix. -/
theorem test_table_rows_do_not_overlap :
    tableRows.Pairwise (fun p q => (p.2 ^^^ q.2) &&& p.1 &&& q.1 ≠ 0) := by decide

/-- R102's assembly of two words of R104. -/
theorem test_assembly : (decodeTableWord 32 0x00210114).map assembly = some "MINOR M1, M0, #1, #2" ∧
    (decodeTableWord 32 0x00001031).map assembly = some "DECB V0, M0, V1" := by decide +kernel

/-! ## Helpers: a state the host has loaded, the state after a command, and what a register or buffer holds -/

/-- The state after the host has driven the transactions from reset. -/
def loaded (rs : List Request) : State := transactAll rs State.reset

/-- The state after a command completes. -/
def after (i : Instr) (s : State) : State :=
  match exec i s with
  | .next t => t
  | .fault _ => s
  | .refused _ => s

theorem exec_eq_after (i : Instr) (s : State) : exec i s = .next (after i s) := by
  unfold after
  rcases exec_cases i s with ⟨e, h⟩ | ⟨u, h, _⟩ <;> rw [h]

def matOf (t : State) (i : Fin 4) : List (List Int) :=
  (List.range (t.rows i)).map fun r => (List.range (t.cols i)).map fun c => (t.mat i).e r c

def vecOf (t : State) (j : Fin 2) : List Int := (List.range (t.len j)).map (t.vec j).e

def outOf (t : State) : List Byte := (List.range t.outLen.toNat).map t.outByte

def ascii (text : String) : List Byte := text.toList.map fun c => BitVec.ofNat 8 c.toNat

/-- M0 = [[1,2],[3,4]] and M1 = [[5,6],[7,8]]. -/
def twoMats : State := loaded (ldm 0 [[1, 2], [3, 4]] ++ ldm 1 [[5, 6], [7, 8]])

/-- M0 = K2 of 95_test_vectors.md. -/
def k2 : List Request := ldm 0 [[3, 3], [2, 5]]

/-! ## One step of each command (95_test_vectors.md 2.1 to 2.6) -/

theorem test_nop_status : (after .nop State.reset).statusWord = 0x2 := by decide +kernel
/-- 2.1: STATUS 0x406 becomes 0x006, since ERR is sticky and ECODE is not. -/
theorem test_nop_keeps_err :
    (after .nop { State.reset with err := true, ecode := some .singularMatrixMod }).statusWord = 0x6 := by decide +kernel

theorem test_c2n_letter_and_sentinel : (after .c2n (loaded (lds 0x54))).res = 19 ∧
    (after .c2n (loaded (lds 0xFFFFFF5F))).res = 26 ∧ (after .c2n (loaded (lds 0x7A))).res = 25 := by decide +kernel
theorem test_c2n_refuses : after .c2n (loaded (lds 0x2D)) = failed .invalidCharacter (loaded (lds 0x2D)) ∧
    (after .c2n (loaded (lds 0x7F))).statusWord = 0x606 ∧ (after .c2n (loaded (lds 0x60))).statusWord = 0x606 := by decide +kernel

theorem test_n2c_signed : (after .n2c (loaded (lds 0xFFFFFFFF))).res = 0x5A ∧
    (after .n2c (loaded (lds 0x80000000))).res = 0x43 := by decide +kernel
theorem test_n2c_sentinel : (after .n2c (loaded (lds 26))).res = 0x5F ∧ (after .n2c (loaded (lds 52))).res = 0x41 := by decide +kernel

theorem test_split_pads : outOf (after (.split 2) (loaded (ldt (ascii "HELLO")))) = ascii "HELLO_" := by decide +kernel
/-- The shape check comes before the length check. -/
theorem test_split_error_order : (after (.split 5) (loaded [busWrite 0x034 300])).statusWord = 0x806 ∧
    (after (.split 2) (loaded [busWrite 0x034 257])).statusWord = 0xA06 ∧
    outOf (after (.split 3) State.reset) = ascii "___" := by decide +kernel

theorem test_add : matOf (after (.add 2 0 1) twoMats) 2 = [[6, 8], [10, 12]] := by decide +kernel
theorem test_add_overflow : (after (.add 2 0 0) (loaded (ldm 0 [[2 ^ 62]]))).statusWord = 0x906 ∧
    matOf (after (.add 2 0 1) (loaded (ldm 0 [[-2 ^ 63]] ++ ldm 1 [[0]]))) 2 = [[-2 ^ 63]] := by decide +kernel

/-- The destination is both sources. -/
theorem test_mulm_in_place : matOf (after (.mulm 0 0 0) (loaded (ldm 0 [[1, 2], [3, 4]]))) 0 = [[7, 10], [15, 22]] := by
  decide +kernel
/-- Only the final sum must fit. -/
theorem test_mulm_exact : matOf (after (.mulm 2 0 1) (loaded (ldm 0 [[2 ^ 62, 2 ^ 62]] ++ ldm 1 [[2], [-2]]))) 2 = [[0]] := by
  decide +kernel

theorem test_mulv : vecOf (after (.mulv 1 0 0) (loaded (ldm 0 [[1, 2], [3, 4]] ++ ldv 0 [5, 6]))) 1 = [17, 39] := by
  decide +kernel
theorem test_mulv_mismatch : (after (.mulv 1 0 0) (loaded (ldm 0 [[1, 2], [3, 4]] ++ ldv 0 [1, 2, 3]))).statusWord = 0x106 := by
  decide +kernel

theorem test_det : (after (.det 0) (loaded (ldm 0 [[1, 2, 3], [4, 5, 6], [7, 8, 10]]))).res.toInt = -3 := by decide +kernel
theorem test_det_edge : (after (.det 0) (loaded (ldm 0 [[-2 ^ 62, 0], [0, 2]]))).res = 0x8000000000000000 ∧
    (after (.det 0) (loaded (ldm 0 [[2 ^ 62, 0], [0, 2]]))).statusWord = 0x906 := by decide +kernel

theorem test_minor : matOf (after (.minor 1 0 1 2) (loaded (ldm 0 [[1, 2, 3], [4, 5, 6], [7, 8, 9]]))) 1 = [[1, 2], [7, 8]] := by
  decide +kernel
theorem test_minor_edges : matOf (after (.minor 1 0 0 1) (loaded (ldm 0 [[1, 2, 3], [4, 5, 6]]))) 1 = [[4, 6]] ∧
    (after (.minor 1 0 0 0) (loaded (ldm 0 [[1, 2, 3]]))).statusWord = 0x806 := by decide +kernel

theorem test_adj : matOf (after (.adj 1 0) (loaded (ldm 0 [[1, 2], [3, 4]]))) 1 = [[4, -2], [-3, 1]] := by decide +kernel
theorem test_adj_one : matOf (after (.adj 1 0) (loaded (ldm 0 [[7]]))) 1 = [[1]] ∧
    (after (.adj 1 0) (loaded (ldm 0 [[1, 2], [3, 4], [5, 6]]))).statusWord = 0x206 := by decide +kernel

/-- In place, with the slots the new shape leaves out cleared (R31). -/
theorem test_trn_in_place : (after (.trn 0 0) (loaded (ldm 0 [[1, 2, 3]]))).mdim[0] = 0x13 ∧
    matOf (after (.trn 0 0) (loaded (ldm 0 [[1, 2, 3]]))) 0 = [[1], [2], [3]] ∧
    ((after (.trn 0 0) (loaded (ldm 0 [[1, 2, 3]]))).mat 0).e 0 2 = 0 := by decide +kernel

theorem test_inv : matOf (after (.inv 1 0) (loaded (ldm 0 [[1, 2], [3, 4]]))) 1 = [[4, -2], [-3, 1]] ∧
    (after (.inv 1 0) (loaded (ldm 0 [[1, 2], [3, 4]]))).res.toInt = -2 := by decide +kernel
theorem test_inv_singular : (after (.inv 1 0) (loaded (ldm 0 [[1, 2], [2, 4]]))).statusWord = 0x306 := by decide +kernel

theorem test_modinv : (after .modinv (loaded (lds 3))).res = 9 ∧ (after .modinv (loaded (lds 0x7FFFFFFF))).res = 17 := by
  decide +kernel
theorem test_modinv_none : (after .modinv (loaded (lds 13))).statusWord = 0x506 ∧
    (after .modinv (loaded (lds 0x80000000))).statusWord = 0x506 := by decide +kernel

theorem test_minvm : matOf (after (.minvm 1 0) (loaded k2)) 1 = [[15, 17], [20, 9]] ∧
    (after (.minvm 1 0) (loaded k2)).res = 9 ∧ (after (.minvm 1 0) (loaded k2)).aux = 3 := by decide +kernel
theorem test_minvm_singular : (after (.minvm 1 0) (loaded (ldm 0 [[1, 0], [0, 13]]))).statusWord = 0x406 := by decide +kernel

theorem test_encb : vecOf (after (.encb 1 0 0) (loaded (k2 ++ ldv 0 [-1, 27]))) 1 = [0, 3] := by decide +kernel
theorem test_encb_not_square :
    vecOf (after (.encb 1 0 0) (loaded (ldm 0 [[1, 2, 3], [4, 5, 6]] ++ ldv 0 [1, 1, 1]))) 1 = [6, 15] := by decide +kernel

theorem test_decb : vecOf (after (.decb 0 0 1) (loaded (k2 ++ ldv 1 [0, 3]))) 0 = [25, 1] := by decide +kernel
/-- The key is checked before the block's length. -/
theorem test_decb_error_order :
    (after (.decb 0 0 1) (loaded (ldm 0 [[1, 2], [3, 4]] ++ ldv 1 [0, 1, 2]))).statusWord = 0x406 := by decide +kernel

theorem test_enct : outOf (after (.enct 0) (loaded (k2 ++ ldt (ascii "HE_LO")))) = ascii "HIHDQC" := by decide +kernel
/-- A block is coded before the key's column count is looked at. -/
theorem test_enct_error_order :
    (after (.enct 0) (loaded (ldm 0 [[1, 2, 3], [4, 5, 6]] ++ ldt (ascii "1B")))).statusWord = 0x606 ∧
    (after (.enct 0) (loaded (ldm 0 [[1, 2, 3], [4, 5, 6]] ++ ldt (ascii "AB")))).statusWord = 0x106 := by decide +kernel

theorem test_dect : outOf (after (.dect 0) (loaded (k2 ++ ldt (ascii "HIHDQC")))) = ascii "HEALOA" := by decide +kernel
/-- The key is checked before any character. -/
theorem test_dect_error_order : (after (.dect 0) (loaded (ldm 0 [[1, 2], [3, 4]] ++ ldt (ascii "1")))).statusWord = 0x406 := by
  decide +kernel

/-! ## The bus (95_test_vectors.md 2.7) -/

theorem test_bus_identification : busRead 0x000 State.reset = { rdata := some 0x48494C4C, berr := false } ∧
    busRead 0x008 State.reset = { rdata := some 0x01001A04, berr := false } ∧
    busRead 0x002 State.reset = { rdata := some 0, berr := true } ∧
    busRead 0x00C State.reset = { rdata := some 0, berr := true } := by decide +kernel

/-- The slot M0 e[0][4] has no storage when N_MAX = 4. -/
theorem test_bus_slot_without_storage : busRead 0x820 (loaded [busWrite 0x820 5]) = { rdata := some 0, berr := false } ∧
    (loaded [busWrite 0x820 5]).mem = [] := by decide +kernel

/-- The transactions that `LDT "ACT"` and `LDM M0, [[-2]]` stand for. -/
theorem test_bus_macros : ldt (ascii "ACT") = [busWrite 0x400 0x00544341, busWrite 0x034 3] ∧
    ldm 0 [[-2]] = [busWrite 0x040 0x11, busWrite 0x800 0xFFFFFFFE, busWrite 0x804 0xFFFFFFFF] := by decide +kernel

theorem test_bus_write_one_to_clear :
    (transactState (busWrite 0x014 0x4) 0
      { State.reset with done := true, err := true, ecode := some .singularMatrixMod }).statusWord = 0x402 := by decide +kernel

/-- A write while BUSY, as in the last row of 2.7: dropped, and STATUS.BV set. -/
theorem test_bus_write_while_busy :
    transactAll [busWrite 0x010 0x13, busWrite 0x800 9] State.reset =
      { State.reset with cmd := 0x13, cur := 0x13, phase := .busy 1, bv := true } := by decide +kernel

/-- A cycle in which the host drives the given request, or none. -/
def driving (r : Option Request) : Cycle := { rstN := true, req := r, extraAck := 0, extraLatency := 0 }

/-- Whether one step answers the given next state. -/
def stepsTo (s t : State) : Bool :=
  match step s with
  | .next u => decide (u = t)
  | .fault _ => false
  | .refused _ => false

/-- R61, R216: a request that draws two cycles more waits three cycles for its ack, whatever the inputs then are. -/
theorem test_ack_comes_after_its_latency :
    legalCycles none [{ rstN := true, req := some (busReadAt 0), extraAck := 2, extraLatency := 0 }, driving (some (busReadAt 0)),
      driving (some (busReadAt 0)), driving (some (busReadAt 0)), driving none] = true ∧
    legalCycles none [{ rstN := true, req := some (busReadAt 0), extraAck := 2, extraLatency := 0 }, driving (some (busReadAt 0)),
      driving (some (busReadAt 0)), driving none] = false := by decide +kernel

/-- The next step runs the placed word, here `ADD M2, M0, M1` with invalid shapes: ShapeError. -/
theorem test_step_runs_placed_word :
    stepsTo (State.reset.withFetchWord 32 0x1210) (failed .shapeError (State.reset.latch 0x1210).begin) = true := by decide

/-! ## Witnesses: for every statement with hypotheses, and each of its clauses, a state and operands that meet them together -/

/-- A state of the given phase, C2N latched, whose next cycle acknowledges the given transaction. -/
def ackingIn (p : Phase) (r : Request) : State :=
  { State.reset with cmd := 0x01, cur := 0x01, phase := p, held := some ⟨r, 1, 0⟩, pending := [driving (some r)] }

/-- A busy state whose next cycle acknowledges the given transaction and would complete the command. -/
def acking (r : Request) : State := ackingIn (.busy 1) r

theorem witness_DecodeOfEncodeIsTheCommand : (Instr.decb 1 3 0).wellFormed = true ∧ (Instr.minor 3 3 15 15).wellFormed = true := by
  decide

theorem witness_EncodeOfDecodeIsTheWord : decode 0x00FF0F14 = .ok (.minor 3 3 15 15) := by decide

theorem witness_StepRunsTheDecodedCommand :
    (State.reset.latch 0x13).nextCycle.rstN = true ∧ (State.reset.latch 0x13).phase = .busy 1 ∧
    busCycle (State.reset.latch 0x13).nextCycle (State.reset.latch 0x13).begin = .ok (State.reset.latch 0x13).begin ∧
    (State.reset.latch 0x13).begin.phase ≠ .idle ∧ decode (State.reset.latch 0x13).begin.cur = .ok (.det 0) :=
  ⟨rfl, rfl, rfl, by decide, by decide⟩

theorem witness_PlacedWordIsRunNext : decode 0x00001210 = .ok (.add 2 0 1) := by decide

theorem witness_IllegalWordCompletesWithCodeSeven :
    decode 0x04 = .error .unassignedOpcode ∧ State.reset.phase = .idle ∧
    (State.reset.latch 0x04).cur = 0x04 ∧ (State.reset.latch 0x04).phase = .busy 1 ∧
    (State.reset.latch 0x04).nextCycle.rstN = true ∧ (State.reset.latch 0x04).nextCycle.req = none ∧
    (State.reset.latch 0x04).held = none := by decide +kernel

theorem witness_CmdWriteIsAcceptedWhenIdleOnly :
    State.reset.phase = .idle ∧ (State.reset.latch 0x13).phase = .busy 1 ∧
    exec .nop State.reset = .next (after .nop State.reset) ∧
    ((busWrite 0x018 0x1).addr ≠ 0x010 ∧
      ¬ ((busWrite 0x018 0x1).we = true ∧ (busWrite 0x018 0x1).addr = 0x018 ∧ (busWrite 0x018 0x1).wdata.getLsbD 1 = true)) :=
  ⟨rfl, rfl, exec_eq_after _ _, by decide, by decide⟩

theorem witness_WritesWhileBusyAreDropped :
    (State.reset.latch 0x13).phase = .busy 1 ∧
    ∀ n ∈ [0x000, 0x010, 0x020, 0x054, 0x100, 0x17C, 0x4FC, 0x600, 0xFFC],
      (BitVec.ofNat 12 n).toNat = n ∧ n % 4 = 0 ∧ targetOf n ≠ .reserved ∧ BitVec.ofNat 12 n ≠ 0x014 ∧
        BitVec.ofNat 12 n ≠ 0x018 := by decide +kernel

/-- The ends of every range of the statement, and the mapped neighbours that no clause names. -/
theorem witness_MisalignedOrReservedIsBusError :
    (∀ n ∈ [0x001, 0x013, 0xFFF], (BitVec.ofNat 12 n).toNat = n ∧ n % 4 ≠ 0) ∧
    (∀ n ∈ [0x00C, 0x01C, 0x02C, 0x03C, 0x058, 0x0FC, 0x180, 0x3FC, 0x500, 0x5FC],
      (BitVec.ofNat 12 n).toNat = n ∧ n % 4 = 0 ∧
        (n = 0x00C ∨ n = 0x01C ∨ n = 0x02C ∨ n = 0x03C ∨ (0x058 ≤ n ∧ n ≤ 0x0FF) ∨ (0x180 ≤ n ∧ n ≤ 0x3FF) ∨
          (0x500 ≤ n ∧ n ≤ 0x5FF))) ∧
    (∀ n ∈ [0x008, 0x010, 0x018, 0x020, 0x028, 0x030, 0x038, 0x040, 0x054, 0x100, 0x17C, 0x400, 0x4FC, 0x600, 0x7FC, 0x800, 0xFFC],
      targetOf n ≠ .reserved) := by decide +kernel

theorem witness_IdleReadsReturnTheRegisters : State.reset.phase = .idle := by decide +kernel

theorem witness_IdleReadsOfStorageAreLittleEndian :
    State.reset.phase = .idle ∧
    ∀ n ∈ [0x100, 0x17C, 0x400, 0x4FC, 0x600, 0x7FC, 0x800, 0xFFC], (BitVec.ofNat 12 n).toNat = n ∧ n % 4 = 0 ∧
      ((0x100 ≤ n ∧ n ≤ 0x17F) ∨ (0x400 ≤ n ∧ n ≤ 0x4FF) ∨ (0x600 ≤ n ∧ n ≤ 0x7FF) ∨ 0x800 ≤ n) := by decide +kernel

theorem witness_BusyReadsGiveSixRegistersOnly :
    (State.reset.latch 0x13).phase = .busy 1 ∧
    ∀ n ∈ [0x000, 0x054, 0x100, 0xFFC], (BitVec.ofNat 12 n).toNat = n ∧ n % 4 = 0 ∧ targetOf n ≠ .reserved := by decide +kernel

theorem witness_CtrlHoldsInterruptEnable : (0x1 : Word).getLsbD 1 = false ∧ (0x2 : Word).getLsbD 1 = true := by decide

theorem witness_SoftResetKeepsStorage : (0x3 : Word).getLsbD 1 = true := by decide

theorem witness_SoftResetDiscardsTheCommand :
    (acking (busWrite 0x018 0x3)).phase = .busy 1 ∧
    (acking (busWrite 0x018 0x3)).pending = driving (some (busWrite 0x018 0x3)) :: [] ∧
    (acking (busWrite 0x018 0x3)).held = some ⟨busWrite 0x018 0x3, 1, 0⟩ ∧ (busWrite 0x018 0x3).we = true ∧
    (busWrite 0x018 0x3).addr = 0x018 ∧ (busWrite 0x018 0x3).wdata.getLsbD 1 = true := by decide +kernel

theorem witness_PowerOnResetDiscardsEverything :
    ({ State.reset.latch 0x13 with pending := [{ driving none with rstN := false }] } : State).pending =
      { driving none with rstN := false } :: [] := by decide +kernel

theorem witness_EveryStepKeepsTheInvariant :
    (State.reset.latch 0x13).Inv ∧ stepsTo (State.reset.latch 0x13) (failed .shapeError (State.reset.latch 0x13).begin) = true :=
  ⟨⟨by decide, by decide, rfl, Nat.le_refl 1, State.heldLive_of_none rfl, by decide⟩, by decide⟩

/-- The second state has a request outstanding and no inputs left. -/
theorem witness_LegalHostNeverStopsTheMachine :
    ({ State.reset with pending := drive (lds 5 ++ run .c2n 2) 1 } : State).hostLegal = true ∧
    ({ State.reset with held := some ⟨busReadAt 0, 3, 0⟩ } : State).hostLegal = true := by decide +kernel

/-- The right-hand sides of the two equivalences are met: a request withdrawn in the wait, a request changed in the ack cycle, a
request during reset. Then states that do stop so. -/
theorem witness_OnlyProtocolViolationsStopTheMachine :
    (∃ s : State, s.nextCycle.rstN = true ∧ s.held = some ⟨busReadAt 0, 2, 0⟩ ∧ s.nextCycle.req = none) ∧
    (∃ s : State, s.nextCycle.rstN = true ∧ s.held = some ⟨busReadAt 0, 1, 0⟩ ∧ s.nextCycle.req = some (busReadAt 4) ∧
      step s = .fault .handshakeBroken) ∧
    (∃ s : State, s.nextCycle.rstN = false ∧ s.nextCycle.req = some (busReadAt 0) ∧ step s = .refused .requestDuringReset) :=
  ⟨⟨{ State.reset with held := some ⟨busReadAt 0, 2, 0⟩, pending := [driving none] }, rfl, rfl, rfl⟩,
    ⟨{ State.reset with held := some ⟨busReadAt 0, 1, 0⟩, pending := [driving (some (busReadAt 4))] }, rfl, rfl, rfl, by rfl⟩,
    ⟨{ State.reset with pending := [{ driving (some (busReadAt 0)) with rstN := false }] }, rfl, rfl, by rfl⟩⟩

theorem witness_AcceptedCommandCompletesAfterItsLatency :
    ({ State.reset with phase := .busy 3 } : State).phase = .busy (2 + 1) ∧
    State.quiet { State.reset with phase := .busy 3 } (2 + 1) := ⟨rfl, rfl, by decide⟩

/-- For a read of STATUS, a write to it, and a dropped write; for a word that decodes and for one that does not. -/
theorem witness_TransactionComesBeforeCompletion :
    (∀ r ∈ [busReadAt 0x014, busWrite 0x014 0xE, busWrite 0x800 9], (acking r).phase = .busy 1 ∧
      (acking r).held = some ⟨r, 1, 0⟩ ∧ (acking r).pending = driving (some r) :: [] ∧
      ¬ (r.we = true ∧ r.addr = 0x018 ∧ r.wdata.getLsbD 1 = true)) ∧
    (busReadAt 0x014).we = false ∧ decode (acking (busReadAt 0x014)).cur = .ok .c2n ∧
    decode ({ acking (busReadAt 0x014) with cur := 0x04 } : State).cur = .error .unassignedOpcode := by decide +kernel

/-- The bus side: a quiet cycle, a request raised, a wait that goes on, an ack. -/
theorem witness_AcknowledgedReadChangesNoState_bus :
    (State.reset.nextCycle.rstN = true ∧ State.reset.held = none ∧ State.reset.nextCycle.req = none) ∧
    (∃ s : State, s.nextCycle.rstN = true ∧ s.held = none ∧ s.nextCycle.req = some (busWrite 0x030 5)) ∧
    (∃ s : State, s.nextCycle.rstN = true ∧ s.held = some ⟨busWrite 0x030 5, 0 + 2, 0⟩ ∧
      s.nextCycle.req = some (busWrite 0x030 5)) ∧
    ((acking (busWrite 0x030 5)).nextCycle.rstN = true ∧ (acking (busWrite 0x030 5)).held = some ⟨busWrite 0x030 5, 1, 0⟩ ∧
      (acking (busWrite 0x030 5)).nextCycle.req = some (busWrite 0x030 5)) :=
  ⟨⟨rfl, rfl, rfl⟩, ⟨{ State.reset with pending := [driving (some (busWrite 0x030 5))] }, rfl, rfl, rfl⟩,
    ⟨{ State.reset with held := some ⟨busWrite 0x030 5, 2, 0⟩ }, rfl, rfl, rfl⟩, rfl, rfl, rfl⟩

/-- The engine side of an ack cycle: the command completes, waits, or is discarded; and an IDLE engine accepts a CMD write. -/
theorem witness_AcknowledgedReadChangesNoState_engine :
    (acking (busWrite 0x030 5)).phase = .busy 1 ∧
    ((acking (busWrite 0x030 5)).begin.acknowledge (busWrite 0x030 5) 0).phase ≠ .idle ∧
    (ackingIn (.busy 2) (busWrite 0x030 5)).phase = .busy (0 + 2) ∧
    ((acking (busWrite 0x018 2)).begin.acknowledge (busWrite 0x018 2) 0).phase = .idle ∧
    stepsTo (ackingIn .idle (busWrite 0x010 0x02))
      { (ackingIn .idle (busWrite 0x010 0x02)).begin with
        cmd := 0x02, cur := 0x02, phase := .busy 1, held := none, bus := some { rdata := none, berr := false } } = true := by
  decide +kernel

/-- The read clause, and the count to the ack: with inputs to come, and with none left. -/
theorem witness_AcknowledgedReadChangesNoState_ack :
    ((ackingIn .idle (busReadAt 0x020)).phase = .idle ∧ (ackingIn .idle (busReadAt 0x020)).held = some ⟨busReadAt 0x020, 1, 0⟩ ∧
      (ackingIn .idle (busReadAt 0x020)).nextCycle.req = some (busReadAt 0x020) ∧ (busReadAt 0x020).we = false) ∧
    (∃ s : State, s.held = some ⟨busReadAt 0, 1 + 1, 0⟩ ∧ s.pending ≠ [] ∧
      ∀ c ∈ s.pending.take (1 + 1), c.rstN = true ∧ c.req = some (busReadAt 0)) ∧
    (∃ s : State, s.held = some ⟨busReadAt 0, 1 + 1, 0⟩ ∧ s.pending = []) :=
  ⟨by decide +kernel,
    ⟨{ State.reset with held := some ⟨busReadAt 0, 2, 0⟩, pending := List.replicate 3 (driving (some (busReadAt 0))) },
      by decide +kernel⟩,
    ⟨{ State.reset with held := some ⟨busReadAt 0, 2, 0⟩ }, rfl, rfl⟩⟩

theorem witness_IdleRegisterWritesStoreTheirBits : State.reset.phase = .idle := by decide +kernel

theorem witness_IdleStorageWritesStoreFourBytes :
    State.reset.phase = .idle ∧
    (∀ n ∈ [0x100, 0x17C, 0x400, 0x4FC, 0x800, 0xFFC], (BitVec.ofNat 12 n).toNat = n ∧ n % 4 = 0 ∧
      ((0x100 ≤ n ∧ n ≤ 0x17F) ∨ (0x400 ≤ n ∧ n ≤ 0x4FF) ∨ 0x800 ≤ n)) ∧
    (∀ n ∈ [0x600, 0x7FC], (BitVec.ofNat 12 n).toNat = n ∧ n % 4 = 0 ∧ 0x600 ≤ n ∧ n ≤ 0x7FF) := by decide +kernel

theorem witness_ElementIsItsTwoWords : State.reset.phase = .idle ∧ 0 < State.reset.params.nMax ∧ 3 < State.reset.params.nMax := by
  decide +kernel

theorem witness_IrqIsEnableAndDone : exec .nop State.reset = .next (after .nop State.reset) ∧ (0x2 : Word).getLsbD 1 = true ∧
    ((0x1 : Word).getLsbD 1 = false ∧ (0x1 : Word).getLsbD 0 = true) := ⟨exec_eq_after _ _, by decide, by decide⟩

theorem witness_NopFollowsItsRule : State.reset.phase = .idle := by decide

/-- The ends of the three accepted ranges, and their neighbours, as SARG holds them. -/
theorem witness_C2nFollowsItsRule :
    (∀ b ∈ ([0x41, 0x5A, 0x61, 0x7A, 0x5F] : List Byte),
      b = (loaded (lds (b.setWidth 32))).sarg.extractLsb' 0 8 ∧ ((0x41 ≤ b ∧ b ≤ 0x5A) ∨ (0x61 ≤ b ∧ b ≤ 0x7A) ∨ b = 0x5F)) ∧
    (∀ b ∈ ([0x00, 0x40, 0x5B, 0x5E, 0x60, 0x7B, 0xFF] : List Byte),
      b = (loaded (lds (b.setWidth 32))).sarg.extractLsb' 0 8 ∧
        ¬ ((0x41 ≤ b ∧ b ≤ 0x5A) ∨ (0x61 ≤ b ∧ b ≤ 0x7A) ∨ b = 0x5F)) := by decide +kernel

theorem witness_CodecCommandsAreInverse : 0 ≤ 26 ∧ 26 ≤ 26 ∧ (0x61 : Byte) ≤ 0x7A := by decide

/-- k = 0 and k = N_MAX + 1; a text of TEXT_MAX + 1; and the largest legal text. -/
theorem witness_SplitFollowsItsRule :
    (∀ k ∈ ([0, 5] : List Imm), ¬ (1 ≤ k.toNat ∧ k.toNat ≤ State.reset.params.nMax)) ∧
    (∀ k ∈ ([1, 4] : List Imm), 1 ≤ k.toNat ∧ k.toNat ≤ State.reset.params.nMax) ∧
    (loaded [busWrite 0x034 257]).params.textMax < (loaded [busWrite 0x034 257]).textLen.toNat ∧
    (loaded [busWrite 0x034 256]).textLen.toNat ≤ (loaded [busWrite 0x034 256]).params.textMax := by decide +kernel

/-- M0 = [[a]] and M1 = [[b]]. -/
def ones (a b : Int) : State := loaded (ldm 0 [[a]] ++ ldm 1 [[b]])

/-- M0 is 1 × 2, M1 is 2 × 1, V0 has length 3. Nothing is said of elements. -/
def mixedShapes : State := loaded [busWrite 0x040 0x21, busWrite 0x044 0x12, busWrite 0x050 3]

theorem witness_AddFollowsItsRule :
    ¬ (ShapeValid State.reset 0 ∧ ShapeValid State.reset 1) ∧
    (ShapeValid mixedShapes 0 ∧ ShapeValid mixedShapes 1 ∧
      ¬ (mixedShapes.rows 0 = mixedShapes.rows 1 ∧ mixedShapes.cols 0 = mixedShapes.cols 1)) ∧
    (ShapeValid (ones (2 ^ 62) (2 ^ 62)) 0 ∧ ShapeValid (ones (2 ^ 62) (2 ^ 62)) 1 ∧
      ¬ ∀ r < (ones (2 ^ 62) (2 ^ 62)).rows 0, ∀ c < (ones (2 ^ 62) (2 ^ 62)).cols 0,
        Fits64 (((ones (2 ^ 62) (2 ^ 62)).mat 0).e r c + ((ones (2 ^ 62) (2 ^ 62)).mat 1).e r c)) ∧
    (ShapeValid (ones (-2 ^ 63) 0) 0 ∧ ShapeValid (ones (-2 ^ 63) 0) 1 ∧
      ∀ r < (ones (-2 ^ 63) 0).rows 0, ∀ c < (ones (-2 ^ 63) 0).cols 0,
        Fits64 (((ones (-2 ^ 63) 0).mat 0).e r c + ((ones (-2 ^ 63) 0).mat 1).e r c)) := by decide +kernel

theorem witness_MulmFollowsItsRule :
    ¬ (ShapeValid State.reset 0 ∧ ShapeValid State.reset 1) ∧
    (ShapeValid mixedShapes 0 ∧ mixedShapes.cols 0 ≠ mixedShapes.rows 0) ∧
    (ShapeValid (ones (2 ^ 32) (2 ^ 31)) 0 ∧ ShapeValid (ones (2 ^ 32) (2 ^ 31)) 1 ∧
      (ones (2 ^ 32) (2 ^ 31)).cols 0 = (ones (2 ^ 32) (2 ^ 31)).rows 1 ∧
      ¬ ∀ r < (ones (2 ^ 32) (2 ^ 31)).rows 0, ∀ c < (ones (2 ^ 32) (2 ^ 31)).cols 1,
        Fits64 (∑ t ∈ Finset.range ((ones (2 ^ 32) (2 ^ 31)).cols 0),
          ((ones (2 ^ 32) (2 ^ 31)).mat 0).e r t * ((ones (2 ^ 32) (2 ^ 31)).mat 1).e t c)) ∧
    (ShapeValid twoMats 0 ∧ ShapeValid twoMats 1 ∧ twoMats.cols 0 = twoMats.rows 1 ∧
      ∀ r < twoMats.rows 0, ∀ c < twoMats.cols 1,
        Fits64 (∑ t ∈ Finset.range (twoMats.cols 0), (twoMats.mat 0).e r t * (twoMats.mat 1).e t c)) := by decide +kernel

theorem witness_VectorSelectorAboveOneIsIllegal : ((1 : Selector).toNat ≤ 1 ∧ (0 : Selector).toNat ≤ 1) ∧
    2 ≤ (2 : Selector).toNat ∧ 2 ≤ (3 : Selector).toNat := by decide

/-- M0 = [[a]] and V0 = [x]. -/
def matVecOnes (a x : Int) : State := loaded (ldm 0 [[a]] ++ ldv 0 [x])

theorem witness_MulvFollowsItsRule :
    ((1 : Selector).toNat = (1 : Fin 2).val ∧ (0 : Selector).toNat = (0 : Fin 2).val) ∧
    ¬ (ShapeValid State.reset 0 ∧ LenValid State.reset 0) ∧
    (ShapeValid mixedShapes 0 ∧ LenValid mixedShapes 0 ∧ mixedShapes.cols 0 ≠ mixedShapes.len 0) ∧
    (ShapeValid (matVecOnes (2 ^ 62) 2) 0 ∧ LenValid (matVecOnes (2 ^ 62) 2) 0 ∧
      (matVecOnes (2 ^ 62) 2).cols 0 = (matVecOnes (2 ^ 62) 2).len 0 ∧
      ¬ ∀ r < (matVecOnes (2 ^ 62) 2).rows 0, Fits64 (∑ t ∈ Finset.range ((matVecOnes (2 ^ 62) 2).cols 0),
        ((matVecOnes (2 ^ 62) 2).mat 0).e r t * ((matVecOnes (2 ^ 62) 2).vec 0).e t)) ∧
    (ShapeValid (matVecOnes (-2 ^ 62) 2) 0 ∧ LenValid (matVecOnes (-2 ^ 62) 2) 0 ∧
      ∀ r < (matVecOnes (-2 ^ 62) 2).rows 0, Fits64 (∑ t ∈ Finset.range ((matVecOnes (-2 ^ 62) 2).cols 0),
        ((matVecOnes (-2 ^ 62) 2).mat 0).e r t * ((matVecOnes (-2 ^ 62) 2).vec 0).e t)) := by decide +kernel

/-- M0 = [[2^62, 0], [0, x]]: its determinant is 2^62 · x. -/
def diagonal (x : Int) : State := loaded (ldm 0 [[2 ^ 62, 0], [0, x]])

theorem witness_DetFollowsItsRule :
    ¬ ShapeValid State.reset 0 ∧ (ShapeValid mixedShapes 0 ∧ mixedShapes.rows 0 ≠ mixedShapes.cols 0) ∧
    (SquareValid (diagonal 2) 0 ∧ ¬ Fits64 (det ((diagonal 2).mat 0))) ∧
    (SquareValid (diagonal (-2)) 0 ∧ Fits64 (det ((diagonal (-2)).mat 0))) := by decide +kernel

theorem witness_MinorFollowsItsRule :
    ¬ (ShapeValid mixedShapes 0 ∧ 2 ≤ mixedShapes.rows 0 ∧ 2 ≤ mixedShapes.cols 0 ∧ (0 : Imm).toNat < mixedShapes.rows 0 ∧
      (0 : Imm).toNat < mixedShapes.cols 0) ∧
    (ShapeValid twoMats 0 ∧ 2 ≤ twoMats.rows 0 ∧ 2 ≤ twoMats.cols 0 ∧ (1 : Imm).toNat < twoMats.rows 0 ∧
      (0 : Imm).toNat < twoMats.cols 0) ∧ ¬ (2 : Imm).toNat < twoMats.rows 0 := by decide +kernel

/-- The element function of the statements on ADJ and INV, on a state's M0. -/
def adjugate0 (s : State) (i j : Nat) : Int := if s.rows 0 = 1 then 1 else (-1) ^ (i + j) * det (minor (s.mat 0) j i)

/-- The adjugate of [[0, −2^63], [1, 1]] is [[1, 2^63], [−1, 0]], which does not fit. -/
theorem witness_AdjFollowsItsRule :
    ¬ ShapeValid State.reset 0 ∧ (ShapeValid mixedShapes 0 ∧ mixedShapes.rows 0 ≠ mixedShapes.cols 0) ∧
    (SquareValid (loaded (ldm 0 [[0, -2 ^ 63], [1, 1]])) 0 ∧
      ¬ ∀ r < 2, ∀ c < 2, Fits64 (adjugate0 (loaded (ldm 0 [[0, -2 ^ 63], [1, 1]])) r c)) ∧
    (SquareValid twoMats 0 ∧ ∀ r < 2, ∀ c < 2, Fits64 (adjugate0 twoMats r c)) ∧
    (SquareValid (ones 7 0) 0 ∧ ∀ r < 1, ∀ c < 1, Fits64 (adjugate0 (ones 7 0) r c)) := by decide +kernel

theorem witness_TrnFollowsItsRule : ¬ ShapeValid State.reset 0 ∧ ShapeValid mixedShapes 0 := by decide +kernel

theorem witness_InvFollowsItsRule :
    ¬ ShapeValid State.reset 0 ∧ (ShapeValid mixedShapes 0 ∧ mixedShapes.rows 0 ≠ mixedShapes.cols 0) ∧
    (SquareValid (diagonal 0) 0 ∧ det ((diagonal 0).mat 0) = 0) ∧
    (SquareValid (diagonal 2) 0 ∧ det ((diagonal 2).mat 0) ≠ 0 ∧ ¬ Fits64 (det ((diagonal 2).mat 0))) ∧
    (SquareValid twoMats 0 ∧ det (twoMats.mat 0) ≠ 0 ∧ Fits64 (det (twoMats.mat 0)) ∧
      ∀ r < 2, ∀ c < 2, Fits64 (adjugate0 twoMats r c)) := by decide +kernel

theorem witness_DetIsTheCofactorExpansion :
    ((ones 7 0).mat 0).rows = 1 ∧ ((ones 7 0).mat 0).cols = 1 ∧ (twoMats.mat 0).rows = 2 ∧ (twoMats.mat 0).cols = 2 ∧
    ((loaded [busWrite 0x040 0x33]).mat 0).rows = 3 ∧ ((loaded [busWrite 0x040 0x33]).mat 0).cols = 3 := by decide +kernel

theorem witness_DeterminantLaws : (1 : Nat) ≤ 2 ∧ (twoMats.mat 0).rows = 2 ∧ (twoMats.mat 0).cols = 2 := by decide +kernel

theorem witness_ModinvFollowsItsRule :
    Int.gcd ((loaded (lds 13)).sarg.toInt % 26) 26 ≠ 1 ∧ Int.gcd ((loaded (lds 0)).sarg.toInt % 26) 26 ≠ 1 ∧
    Int.gcd ((loaded (lds 0xFFFFFFFD)).sarg.toInt % 26) 26 = 1 := by decide +kernel

theorem witness_MinvmFollowsItsRule :
    ¬ ShapeValid State.reset 0 ∧ (ShapeValid mixedShapes 0 ∧ mixedShapes.rows 0 ≠ mixedShapes.cols 0) ∧
    (SquareValid twoMats 0 ∧ ¬ KeyInvertible (twoMats.mat 0)) ∧
    (SquareValid (loaded k2) 0 ∧ KeyInvertible ((loaded k2).mat 0)) := by decide +kernel

theorem witness_InverseKeyInvertsTheKey :
    (((ones 13 0).mat 0).rows = 1 ∧ ((ones 13 0).mat 0).cols = 1 ∧ ¬ KeyInvertible ((ones 13 0).mat 0)) ∧
    (((loaded k2).mat 0).rows = 2 ∧ ((loaded k2).mat 0).cols = 2 ∧ KeyInvertible ((loaded k2).mat 0)) ∧
    exec (.minvm 1 0) (ones 7 0) = .next (after (.minvm 1 0) (ones 7 0)) ∧ (after (.minvm 1 0) (ones 7 0)).ecode = none ∧
    0 < (ones 7 0).rows (matSel 0) :=
  ⟨by decide +kernel, by decide +kernel, exec_eq_after _ _, by decide +kernel, by decide +kernel⟩

theorem witness_EncbFollowsItsRule :
    ((1 : Selector).toNat = (1 : Fin 2).val ∧ (0 : Selector).toNat = (0 : Fin 2).val) ∧
    ¬ (ShapeValid State.reset 0 ∧ LenValid State.reset 0) ∧
    (ShapeValid mixedShapes 0 ∧ LenValid mixedShapes 0 ∧ mixedShapes.cols 0 ≠ mixedShapes.len 0) ∧
    (ShapeValid (matVecOnes 7 (-1)) 0 ∧ LenValid (matVecOnes 7 (-1)) 0 ∧ (matVecOnes 7 (-1)).cols 0 = (matVecOnes 7 (-1)).len 0) := by
  decide +kernel

/-- M0 = [[a]] and a V0 of length 2. -/
def keyAndLongBlock (a : Int) : State := loaded (ldm 0 [[a]] ++ [busWrite 0x050 2])

theorem witness_DecbFollowsItsRule :
    ¬ (ShapeValid State.reset 0 ∧ LenValid State.reset 0) ∧
    (ShapeValid mixedShapes 0 ∧ LenValid mixedShapes 0 ∧ mixedShapes.rows 0 ≠ mixedShapes.cols 0) ∧
    (SquareValid (keyAndLongBlock 13) 0 ∧ LenValid (keyAndLongBlock 13) 0 ∧ ¬ KeyInvertible ((keyAndLongBlock 13).mat 0)) ∧
    (SquareValid (keyAndLongBlock 7) 0 ∧ LenValid (keyAndLongBlock 7) 0 ∧ KeyInvertible ((keyAndLongBlock 7).mat 0) ∧
      (keyAndLongBlock 7).rows 0 ≠ (keyAndLongBlock 7).len 0) ∧
    (SquareValid (matVecOnes 7 3) 0 ∧ LenValid (matVecOnes 7 3) 0 ∧ KeyInvertible ((matVecOnes 7 3).mat 0) ∧
      (matVecOnes 7 3).rows 0 = (matVecOnes 7 3).len 0) := by decide +kernel

/-- A 1 × 2 M0, TEXT_LEN 1 and the given first byte; a 1 × 1 M0 = [[a]] likewise. -/
def oddKeyText (b : Byte) : State := loaded ([busWrite 0x040 0x21] ++ ldt [b])
def keyText (a : Int) (b : Byte) : State := loaded (ldm 0 [[a]] ++ ldt [b])

theorem witness_EnctFollowsItsRule_checks :
    ¬ ShapeValid State.reset 0 ∧
    (ShapeValid (loaded [busWrite 0x040 0x11, busWrite 0x034 257]) 0 ∧
      (loaded [busWrite 0x040 0x11, busWrite 0x034 257]).params.textMax <
        (loaded [busWrite 0x040 0x11, busWrite 0x034 257]).textLen.toNat) := by decide +kernel

theorem witness_EnctFollowsItsRule_not_square :
    (ShapeValid (oddKeyText 0x41) 0 ∧ (oddKeyText 0x41).textLen.toNat ≤ (oddKeyText 0x41).params.textMax ∧
      (oddKeyText 0x41).rows 0 ≠ (oddKeyText 0x41).cols 0) ∧
    (∀ i < (oddKeyText 0x41).textLen.toNat, i < (oddKeyText 0x41).rows 0 → CipherByte ((oddKeyText 0x41).inByte i)) ∧
    (ShapeValid (oddKeyText 0x31) 0 ∧ (oddKeyText 0x31).textLen.toNat ≤ (oddKeyText 0x31).params.textMax ∧
      (oddKeyText 0x31).rows 0 ≠ (oddKeyText 0x31).cols 0) ∧
    ¬ (∀ i < (oddKeyText 0x31).textLen.toNat, i < (oddKeyText 0x31).rows 0 → CipherByte ((oddKeyText 0x31).inByte i)) :=
  ⟨by decide +kernel,
    fun i hi _ => (by decide +kernel : ∀ i < (oddKeyText 0x41).textLen.toNat, CipherByte ((oddKeyText 0x41).inByte i)) i hi,
    by decide +kernel,
    fun h => absurd (h 0 (by decide +kernel) (by decide +kernel)) (by decide +kernel)⟩

theorem witness_EnctFollowsItsRule_square :
    (SquareValid (keyText 7 0x31) 0 ∧ (keyText 7 0x31).textLen.toNat ≤ (keyText 7 0x31).params.textMax ∧
      ¬ ∀ i < (keyText 7 0x31).textLen.toNat, CipherByte ((keyText 7 0x31).inByte i)) ∧
    (SquareValid (keyText 7 0x5F) 0 ∧ (keyText 7 0x5F).textLen.toNat ≤ (keyText 7 0x5F).params.textMax ∧
      ∀ i < (keyText 7 0x5F).textLen.toNat, CipherByte ((keyText 7 0x5F).inByte i)) := by decide +kernel

theorem witness_DectFollowsItsRule :
    ¬ ShapeValid State.reset 0 ∧
    (ShapeValid (loaded [busWrite 0x040 0x11, busWrite 0x034 257]) 0 ∧
      (loaded [busWrite 0x040 0x11, busWrite 0x034 257]).params.textMax <
        (loaded [busWrite 0x040 0x11, busWrite 0x034 257]).textLen.toNat) ∧
    (ShapeValid (oddKeyText 0x41) 0 ∧ (oddKeyText 0x41).rows 0 ≠ (oddKeyText 0x41).cols 0) ∧
    (SquareValid (keyText 2 0x31) 0 ∧ ¬ KeyInvertible ((keyText 2 0x31).mat 0)) ∧
    (SquareValid (keyText 7 0x31) 0 ∧ KeyInvertible ((keyText 7 0x31).mat 0) ∧
      ¬ ∀ i < (keyText 7 0x31).textLen.toNat, CipherByte ((keyText 7 0x31).inByte i)) ∧
    (SquareValid (keyText 7 0x20) 0 ∧ (keyText 7 0x20).textLen.toNat ≤ (keyText 7 0x20).params.textMax ∧
      KeyInvertible ((keyText 7 0x20).mat 0) ∧
      ∀ i < (keyText 7 0x20).textLen.toNat, CipherByte ((keyText 7 0x20).inByte i)) := by decide +kernel

/-- The outer hypotheses on `s = keyText 7 'h'`, and the inner ones on the state with the ciphertext copied into IN_BUF. -/
theorem witness_EncryptThenDecryptGivesTheText :
    SquareValid (keyText 7 0x68) 0 ∧ KeyInvertible ((keyText 7 0x68).mat 0) ∧
    (keyText 7 0x68).textLen.toNat ≤ (keyText 7 0x68).params.textMax ∧
    (∀ i < (keyText 7 0x68).textLen.toNat, CipherByte ((keyText 7 0x68).inByte i)) ∧
    (keyText 7 0x58).params = (keyText 7 0x68).params ∧ (keyText 7 0x58).rows 0 = (keyText 7 0x68).rows 0 ∧
    (keyText 7 0x58).cols 0 = (keyText 7 0x68).cols 0 ∧
    (∀ r < (keyText 7 0x68).rows 0, ∀ c < (keyText 7 0x68).cols 0,
      ((keyText 7 0x58).mat 0).e r c = ((keyText 7 0x68).mat 0).e r c) ∧
    (keyText 7 0x58).textLen = (after (.enct 0) (keyText 7 0x68)).outLen ∧
    (∀ i < (after (.enct 0) (keyText 7 0x68)).outLen.toNat,
      (keyText 7 0x58).inByte i = (after (.enct 0) (keyText 7 0x68)).outByte i) := by decide +kernel

theorem witness_FailedCommandChangesOnlyStatus :
    exec (.det 0) State.reset = .next (after (.det 0) State.reset) ∧ (after (.det 0) State.reset).ecode = some .shapeError :=
  ⟨exec_eq_after _ _, by decide⟩

/-- A text command that succeeds writes no register; a matrix command that succeeds, no vector register and no text. -/
theorem witness_NoCommandWritesItsInputs :
    (exec (.enct 0) (keyText 7 0x68) = .next (after (.enct 0) (keyText 7 0x68)) ∧
      (after (.enct 0) (keyText 7 0x68)).ecode = none ∧ (Instr.enct 0).opcode ∉ [Opcode.mulv, .encb, .decb] ∧
      (Instr.enct 0).opcode ∉ [Opcode.add, .mulm, .minor, .adj, .trn, .inv, .minvm]) ∧
    (exec (.add 2 0 1) (ones 1 2) = .next (after (.add 2 0 1) (ones 1 2)) ∧ (after (.add 2 0 1) (ones 1 2)).ecode = none ∧
      (Instr.add 2 0 1).opcode ∉ [Opcode.split, .enct, .dect]) :=
  ⟨⟨exec_eq_after _ _, by decide +kernel, by decide, by decide⟩, exec_eq_after _ _, by decide +kernel, by decide⟩

theorem witness_OnlyNamedCommandsWriteResAndAux :
    exec (.add 2 0 1) (ones 1 2) = .next (after (.add 2 0 1) (ones 1 2)) ∧
    (Instr.add 2 0 1).opcode ∉ [Opcode.c2n, .n2c, .det, .inv, .modinv, .minvm] ∧ (Instr.add 2 0 1).opcode ≠ .minvm :=
  ⟨exec_eq_after _ _, by decide, by decide⟩

/-- A byte of IN_BUF at or above TEXT_LEN is changed: the data is the same, for an ADD and for a SPLIT that succeeds. -/
theorem witness_BytesOutsideTheShapesAreNotRead :
    SameData (ones 1 2) { ones 1 2 with mem := (ones 1 2).mem.write 0x4FF 9 } ∧
    (ones 1 2).mem.write 0x4FF 9 ≠ (ones 1 2).mem ∧
    exec (.add 2 0 1) (ones 1 2) = .next (after (.add 2 0 1) (ones 1 2)) ∧
    exec (.split 2) (ones 1 2) = .next (after (.split 2) (ones 1 2)) ∧ (after (.split 2) (ones 1 2)).ecode = none := by
  have hb : ∀ x, x ≠ 0x4FF → State.byte { ones 1 2 with mem := (ones 1 2).mem.write 0x4FF 9 } x = (ones 1 2).byte x := by
    intro x hx
    unfold State.byte
    rw [Memory.read?_write, if_neg hx]
  refine ⟨⟨fun i r c _ _ _ => ?_, fun j k h hk => ?_, fun k _ hk => absurd hk ?_⟩, by decide +kernel, exec_eq_after _ _,
    exec_eq_after _ _, by decide +kernel⟩
  · rw [State.mat_e, State.mat_e]
    exact congrArg BitVec.toInt (State.elem_congr fun k _ => hb _ (by unfold matAddr matBase; omega))
  · have hj := j.isLt
    have hk' : k < 8 := Nat.lt_of_lt_of_le hk (Nat.le_trans h.2 (nMax_le _))
    rw [State.vec_e, State.vec_e]
    exact congrArg BitVec.toInt (State.elem_congr fun q _ => hb _ (by unfold vecAddr vecBase; omega))
  · rw [show (ones 1 2).textLen.toNat = 0 by decide +kernel]
    exact Nat.not_lt_zero k

end Sys2Proof.Tests
end

section
/-! SUPPORT. What the commits of the commands leave alone (spec/10_state.md R22, R25-R30), and the state rules about STATUS,
CTRL, CMD, irq, the step and the reset values. -/

namespace Sys2Proof.Machine

/-! ## The frame of every command -/

theorem Commit.hostSide {i : Instr} {s u : State} (h : Commit i s u) : KeepsHostSide s (u.complete none) := by
  cases i with
  | nop => cases h; exact ⟨rfl, rfl, rfl, rfl, rfl, rfl, rfl, rfl, rfl, rfl, rfl⟩
  | c2n | n2c | det _ | modinv => obtain ⟨_, rfl⟩ := h; exact (scalarFrame_setRes s _).hostSide
  | add _ _ _ | mulm _ _ _ | minor _ _ _ _ | adj _ _ | trn _ _ =>
    obtain ⟨_, rfl⟩ := h; exact (matrixFrame_writeMat s _ _).hostSide
  | split _ | enct _ | dect _ => obtain ⟨_, -, rfl⟩ := h; exact (textFrame_writeOut s _).hostSide
  | mulv _ _ _ | encb _ _ _ | decb _ _ _ => obtain ⟨_, _, -, rfl⟩ := h; exact (vectorFrame_writeVec s _ _).hostSide
  | inv _ _ => obtain ⟨_, _, rfl⟩ := h; exact ((matrixFrame_writeMat s _ _).setRes _).hostSide
  | minvm _ _ => obtain ⟨_, _, _, rfl⟩ := h; exact (((matrixFrame_writeMat s _ _).setRes _).setAux _).hostSide

theorem exec_hostSide {i : Instr} {s t : State} (h : exec i s = .next t) : KeepsHostSide s t := by
  rcases exec_cases i s with ⟨e, he⟩ | ⟨u, hu, hc⟩
  · cases h.symm.trans he; exact keepsHostSide_failed e s
  · cases h.symm.trans hu; exact hc.hostSide

/-- A byte that no command of the three kinds stores to keeps its value: the vector commands store below 0x180, the matrix
commands at or above 0x800, the text commands in between from 0x600 on (R71). -/
theorem Commit.byte {i : Instr} {s u : State} (h : Commit i s u) {x : Nat}
    (hv : i.opcode ∈ [Opcode.mulv, .encb, .decb] → 0x180 ≤ x)
    (hm : i.opcode ∈ [Opcode.add, .mulm, .minor, .adj, .trn, .inv, .minvm] → x < 0x800)
    (ho : i.opcode ∈ [Opcode.split, .enct, .dect] → x < 0x600 ∨ 0x800 ≤ x) : u.byte x = s.byte x := by
  cases i with
  | nop => cases h; rfl
  | c2n | n2c | det _ | modinv => obtain ⟨_, rfl⟩ := h; rfl
  | add _ _ _ | mulm _ _ _ | minor _ _ _ _ | adj _ _ | trn _ _ =>
    obtain ⟨_, rfl⟩ := h
    exact State.byte_writeMat_of_lt s _ _ (hm (by simp [Instr.opcode]))
  | inv _ _ =>
    obtain ⟨_, _, rfl⟩ := h
    rw [State.byte_setRes]
    exact State.byte_writeMat_of_lt s _ _ (hm (by simp [Instr.opcode]))
  | minvm _ _ =>
    obtain ⟨_, _, _, rfl⟩ := h
    rw [State.byte_setAux, State.byte_setRes]
    exact State.byte_writeMat_of_lt s _ _ (hm (by simp [Instr.opcode]))
  | mulv _ _ _ | encb _ _ _ | decb _ _ _ =>
    obtain ⟨_, _, -, rfl⟩ := h
    exact State.byte_writeVec_of_ge s _ _ (hv (by simp [Instr.opcode]))
  | split _ | enct _ | dect _ =>
    obtain ⟨_, ht, rfl⟩ := h
    rcases ho (by simp [Instr.opcode]) with hx | hx
    · exact State.byte_writeOut_of_lt s _ hx
    · exact State.byte_writeOut_of_ge s ht hx

/-- The registers a command commits to: LEN by the vector commands alone, the shapes by the matrix commands, OUT_LEN by the text
commands, RES and AUX by those R26 names. -/
theorem Commit.registers {i : Instr} {s u : State} (h : Commit i s u) :
    (i.opcode ∉ [Opcode.mulv, .encb, .decb] → u.vlen = s.vlen) ∧
    (i.opcode ∉ [Opcode.add, .mulm, .minor, .adj, .trn, .inv, .minvm] → u.mdim = s.mdim) ∧
    (i.opcode ∉ [Opcode.split, .enct, .dect] → u.outLen = s.outLen) ∧
    (i.opcode ∉ [Opcode.c2n, .n2c, .det, .inv, .modinv, .minvm] → u.res = s.res) ∧
    (i.opcode ≠ .minvm → u.aux = s.aux) := by
  cases i with
  | nop => cases h; simp
  | c2n | n2c | det _ | modinv => obtain ⟨_, rfl⟩ := h; simp [Instr.opcode]
  | add _ _ _ | mulm _ _ _ | minor _ _ _ _ | adj _ _ | trn _ _ => obtain ⟨_, rfl⟩ := h; simp [Instr.opcode]
  | inv _ _ => obtain ⟨_, _, rfl⟩ := h; simp [Instr.opcode]
  | minvm _ _ => obtain ⟨_, _, _, rfl⟩ := h; simp [Instr.opcode]
  | mulv _ _ _ | encb _ _ _ | decb _ _ _ => obtain ⟨_, _, -, rfl⟩ := h; simp [Instr.opcode]
  | split _ | enct _ | dect _ => obtain ⟨_, -, rfl⟩ := h; simp [Instr.opcode]

theorem exec_done {i : Instr} {s t : State} (h : exec i s = .next t) : t.done = true := by
  rcases exec_cases i s with ⟨e, he⟩ | ⟨u, hu, -⟩
  · cases h.symm.trans he; rfl
  · cases h.symm.trans hu; rfl

/-- Settles O58, from the two ends of `exec_cases`: a failure changes STATUS alone, a commit its own kind of destination. -/
theorem noCommandWritesItsInputs : Obligations.NoCommandWritesItsInputs := by
  intro i s t h
  refine ⟨exec_hostSide h, ?_⟩
  rcases exec_cases i s with ⟨e, he⟩ | ⟨u, hu, hc⟩
  · cases h.symm.trans he
    exact ⟨fun _ _ => rfl, fun _ => ⟨rfl, fun _ _ _ => rfl⟩, fun _ => ⟨rfl, fun _ _ _ => rfl⟩,
      fun _ => ⟨rfl, fun _ _ _ => rfl⟩⟩
  · cases h.symm.trans hu
    obtain ⟨hvlen, hmdim, houtLen, -, -⟩ := hc.registers
    refine ⟨fun k hk => ?_, fun hi => ⟨hvlen hi, fun x _ _ => ?_⟩, fun hi => ⟨hmdim hi, fun x _ _ => ?_⟩,
      fun hi => ⟨houtLen hi, fun x _ _ => ?_⟩⟩
    · have hx : inBase + k < 0x500 := Nat.add_lt_add_left hk 0x400
      have hx' : 0x400 ≤ inBase + k := Nat.le_add_right _ _
      exact hc.byte (fun _ => by omega) (fun _ => by omega) (fun _ => .inl (by omega))
    · exact hc.byte (absurd · hi) (fun _ => by omega) (fun _ => .inl (by omega))
    · exact hc.byte (fun _ => by omega) (absurd · hi) (fun _ => .inr (by omega))
    · exact hc.byte (fun _ => by omega) (fun _ => by omega) (absurd · hi)

/-- Settles O59, from `Commit.registers`. -/
theorem onlyNamedCommandsWriteResAndAux : Obligations.OnlyNamedCommandsWriteResAndAux := by
  intro i s t h
  rcases exec_cases i s with ⟨e, he⟩ | ⟨u, hu, hc⟩
  · cases h.symm.trans he
    exact ⟨fun _ => rfl, fun _ => rfl⟩
  · cases h.symm.trans hu
    obtain ⟨-, -, -, hres, haux⟩ := hc.registers
    exact ⟨hres, haux⟩

/-! ## STATUS, CTRL and irq -/

/-- The register addresses read alike in every phase (R65). -/
theorem busRead_status (s : State) : busRead 0x014 s = { rdata := some s.statusWord, berr := false } := by
  simp [busRead, targetOf, Target.readableBusy, State.readTarget]

theorem busRead_ctrl (s : State) : busRead 0x018 s = { rdata := some s.ctrlWord, berr := false } := by
  simp [busRead, targetOf, Target.readableBusy, State.readTarget]

theorem busRead_cmd (s : State) : busRead 0x010 s = { rdata := some s.cmd, berr := false } := by
  simp [busRead, targetOf, Target.readableBusy, State.readTarget]

theorem ctrlWord_eq (s : State) : s.ctrlWord = if s.ie then 1 else 0 := by
  unfold State.ctrlWord
  cases s.ie <;> rfl

theorem statusWord_clearStatus (s : State) (v : Word) : (s.clearStatus v).statusWord = s.statusWord &&& ~~~(v &&& 0xE) := by
  refine BitVec.eq_of_getLsbD_eq fun k hk => ?_
  have hE : (0xE : Word).getLsbD k = decide (k = 1 ∨ k = 2 ∨ k = 3) := by
    interval_cases k <;> rfl
  rw [BitVec.getLsbD_and, BitVec.getLsbD_not, BitVec.getLsbD_and, hE, State.statusWord_getLsbD _ hk,
    State.statusWord_getLsbD _ hk]
  by_cases h1 : k = 1
  · simp [h1]
  by_cases h2 : k = 2
  · simp [h2]
  by_cases h3 : k = 3
  · simp [h3]
  simp [h1, h2, h3, hk]

theorem statusWord_fields (s : State) : s.statusWord.extractLsb' 4 4 = 0 ∧
    s.statusWord.extractLsb' 8 4 = errorCode s.ecode ∧ s.statusWord.extractLsb' 12 20 = 0 := by
  refine ⟨?_, ?_, ?_⟩
  all_goals
    refine BitVec.eq_of_getLsbD_eq fun k hk => ?_
    rw [BitVec.getLsbD_extractLsb', State.statusWord_getLsbD _ (by omega)]
    interval_cases k <;> simp

theorem writeCtrl_eq_setIe {v : Word} (h : v.getLsbD 1 = false) (s : State) : s.writeCtrl v = s.setIe (v.getLsbD 0) := by
  rw [State.writeCtrl, h]; rfl

theorem writeCtrl_eq_softReset {v : Word} (h : v.getLsbD 1 = true) (s : State) : s.writeCtrl v = s.softReset := by
  rw [State.writeCtrl, h]; rfl

/-- Settles O14, bit by bit of STATUS (`State.statusWord_getLsbD`). -/
theorem statusBitsAndWriteOneToClear : Obligations.StatusBitsAndWriteOneToClear := by
  refine ⟨by decide, fun s v extra => ?_⟩
  rw [transactState_status]
  have bits {k : Nat} (hk : k < 32) := s.statusWord_getLsbD hk
  exact ⟨busRead_status s, ⟨bits (by decide), bits (by decide), bits (by decide), bits (by decide), statusWord_fields s⟩,
    statusWord_clearStatus s v, _, _, _, rfl⟩

/-- Settles O15, by the two cases of SRST. -/
theorem ctrlHoldsInterruptEnable : Obligations.CtrlHoldsInterruptEnable := by
  intro s v extra
  rw [transactState_ctrl]
  refine ⟨by rw [busRead_ctrl, ctrlWord_eq], writeCtrl_eq_setIe (s := s), fun h => ⟨writeCtrl_eq_softReset h s, rfl⟩,
    rfl⟩

/-- Settles O31: a completion sets DONE and keeps IE, a write to STATUS or CTRL changes one of the two. -/
theorem irqIsEnableAndDone : Obligations.IrqIsEnableAndDone := by
  intro s t
  refine ⟨rfl, fun i h => ?_, fun v extra h => ?_, fun v extra h1 h0 => ?_⟩
  · rw [State.irq, (exec_hostSide h).ie, exec_done h, Bool.and_true]
  · rw [transactState_status, State.irq, State.clearStatus_done, h, Bool.not_true, Bool.and_false, Bool.and_false]
  · rw [transactState_ctrl, writeCtrl_eq_setIe h1, h0, State.irq, State.setIe_ie, State.setIe_done, Bool.true_and]

/-! ## CMD -/

theorem transactState_cmd_idle {s : State} (hp : s.phase = .idle) (w : Word) (extra : Nat) :
    transactState { we := true, addr := 0x010, wdata := w } extra s = s.accept w extra := by
  simp [transactState, busWriteState, targetOf, hp, Phase.isBusy, State.writeTarget]

theorem transactState_cmd_busy {s : State} {n : Nat} (hp : s.phase = .busy n) (w : Word) (extra : Nat) :
    transactState { we := true, addr := 0x010, wdata := w } extra s = s.setBusyViolation := by
  simp [transactState, busWriteState, targetOf, Target.writableBusy, hp, Phase.isBusy]

/-- Only a CMD write and a soft reset rewrite CMD. -/
theorem writeTarget_cmd {t : Target} (ht : t ≠ .cmd) {v : Word} (hc : t = .ctrl → v.getLsbD 1 = false) (a extra : Nat)
    (s : State) : (s.writeTarget t a v extra).cmd = s.cmd := by
  cases t with
  | cmd => exact absurd rfl ht
  | ctrl => rw [State.writeTarget, writeCtrl_eq_setIe (hc rfl), State.setIe_cmd]
  | _ => rfl

theorem eq_of_targetOf_cmd {a : Nat} (h4 : a % 4 = 0) (ha : a < 0x1000) (h : targetOf a = .cmd) : a = 0x010 := by
  have hc := targetOf_cases h4 ha
  simpa only [h, reduceCtorEq, and_false, false_or, or_false, exists_const, and_true] using hc

theorem eq_of_targetOf_ctrl {a : Nat} (h4 : a % 4 = 0) (ha : a < 0x1000) (h : targetOf a = .ctrl) : a = 0x018 := by
  have hc := targetOf_cases h4 ha
  simpa only [h, reduceCtorEq, and_false, false_or, or_false, exists_const, and_true] using hc

theorem transactState_cmd {r : Request} (ha : r.addr ≠ 0x010)
    (hr : ¬ (r.we = true ∧ r.addr = 0x018 ∧ r.wdata.getLsbD 1 = true)) (extra : Nat) (s : State) :
    (transactState r extra s).cmd = s.cmd := by
  rcases transactState_cases r extra s with h | ⟨-, h⟩ | ⟨hw, h4, -, h⟩ <;> rw [h]
  · rfl
  · have hcmd : targetOf r.addr.toNat ≠ .cmd := fun ht =>
      ha (BitVec.eq_of_toNat_eq (eq_of_targetOf_cmd h4 r.addr.isLt ht))
    have hctrl : targetOf r.addr.toNat = .ctrl → r.wdata.getLsbD 1 = false := fun ht =>
      Bool.eq_false_iff.mpr fun hs => hr ⟨hw, BitVec.eq_of_toNat_eq (eq_of_targetOf_ctrl h4 r.addr.isLt ht), hs⟩
    exact writeTarget_cmd hcmd hctrl _ _ s

/-- Settles O8, by the phase for a CMD write, and by the target of the address for the other transactions. -/
theorem cmdWriteIsAcceptedWhenIdleOnly : Obligations.CmdWriteIsAcceptedWhenIdleOnly := by
  intro s w extra
  refine ⟨fun hp => ?_, fun n hp => transactState_cmd_busy hp w extra, fun i t h => (exec_hostSide h).cmd,
    fun r ha hr => transactState_cmd ha hr extra s⟩
  rw [transactState_cmd_idle hp]
  exact ⟨rfl, busRead_cmd _⟩

/-! ## The step -/

theorem tableWord_toNat (w : Word) : tableWord 32 w.toNat = w := by
  rw [tableWord, Nat.mod_eq_of_lt w.isLt, BitVec.ofNat_toNat, BitVec.setWidth_eq]

/-- Where the latency runs out and no soft reset has come, the engine completes the latched command. -/
theorem engineCycle_of_decode {n : Nat} (hn : n ≤ 1) {t : State} (ht : t.phase ≠ .idle) {i : Instr}
    (hi : decode t.cur = .ok i) : engineCycle (.busy n) t = exec i t := by
  rcases engineCycle_cases (.busy n) t with ⟨-, h | h⟩ | ⟨m, _, h, -, hm, -⟩ | ⟨_, _, -, -, -, h⟩
  · cases h
  · exact absurd h ht
  · cases h; omega
  · rw [h, completeCurrent, hi]

/-- Settles O5: the bus side gives `t`, and the engine side of `t` is the completion. -/
theorem stepRunsTheDecodedCommand : Obligations.StepRunsTheDecodedCommand := by
  intro s t remaining i hr hp hn hb ht hi
  rw [step_of_busCycle hr hb, hp]
  exact engineCycle_of_decode hn ht hi

/-- Settles O6: no input comes in the placed cycle, so its bus side changes nothing. -/
theorem placedWordIsRunNext : Obligations.PlacedWordIsRunNext := by
  intro s w i hi
  rw [State.withFetchWord, tableWord_toNat]
  have hb : busCycle (s.latch w).nextCycle (s.latch w).begin = .ok (s.latch w).begin := rfl
  rw [step_of_busCycle rfl hb]
  exact engineCycle_of_decode (Nat.le_refl 1) (by simp) hi

/-! ## Reset -/

/-- Settles O19, field by field of `State.reset`. -/
theorem resetStateHoldsTheResetValues : Obligations.ResetStateHoldsTheResetValues := by
  refine ⟨rfl, rfl, rfl, by decide, rfl, rfl, rfl, rfl, rfl, rfl, by decide, by decide, rfl, fun _ => rfl⟩

/-- Settles O20: nothing is stored, nothing is in flight, and OUT_LEN is 0. -/
theorem resetStateIsSafe : Obligations.ResetStateIsSafe where
  memSorted := Memory.wf_reset
  memStorage := fun _ hc => absurd hc List.not_mem_nil
  curIsCmd := rfl
  live := trivial
  heldLive := State.heldLive_of_none rfl
  outLenFits := Nat.zero_le _

end Sys2Proof.Machine
end

section
/-! SUPPORT. No command reads a byte outside the valid shapes and the text (spec/10_state.md R24, R25, R27): from two states
that hold the same data, every command's result is the same, and so is what its write makes of them. -/

namespace Sys2Proof.Machine

/-- Two states that differ in storage alone and hold the same data. -/
def Alike (s u : State) : Prop := ∃ m : Memory, u = { s with mem := m } ∧ SameData s { s with mem := m }

/-- Two outcomes that are next states which are alike. -/
def EndAlike (o o' : Host.Outcome State Fault Refusal) : Prop := ∃ t v, o = .next t ∧ o' = .next v ∧ Alike t v

theorem sameResult_iff {α : Type} {R : α → α → Prop} {r r' : Except CmdError α} :
    SameResult R r r' ↔ (∃ e, r = .error e ∧ r' = .error e) ∨ (∃ a b, r = .ok a ∧ r' = .ok b ∧ R a b) := by
  cases r <;> cases r' <;> simp [SameResult, eq_comm]

/-- A check that both sides fail or pass, before results that are alike where it passes. -/
theorem sameResult_check {α : Type} {R : α → α → Prop} {c c' : Bool} {e : CmdError} {r r' : Except CmdError α} (hc : c' = c)
    (h : c = false → SameResult R r r') :
    SameResult R (if c then .error e else r) (if c' then .error e else r') := by
  subst hc
  cases c' with
  | true => exact rfl
  | false => exact h rfl

/-! ## Results -/

section
variable {s : State} {m : Memory} (h : SameData s { s with mem := m })
include h

theorem SameData.addResult (a b : Fin 4) :
    SameResult SameMat (addResult a b s) (addResult a b { s with mem := m }) := by
  refine sameResult_check rfl fun hv => sameResult_check rfl fun hd => ?_
  simp only [Bool.not_eq_false', Bool.and_eq_true, beq_iff_eq] at hv hd
  have hX := (h.mat a hv.1).matAdd (h.mat b hv.2) hd.1 hd.2
  exact sameResult_check (congrArg (!·) hX.fits) fun _ => hX

theorem SameData.mulmResult (a b : Fin 4) :
    SameResult SameMat (mulmResult a b s) (mulmResult a b { s with mem := m }) := by
  refine sameResult_check rfl fun hv => sameResult_check rfl fun hd => ?_
  simp only [Bool.not_eq_false', Bool.and_eq_true, beq_iff_eq] at hv hd
  have hX := (h.mat a hv.1).matMul (h.mat b hv.2) hd
  exact sameResult_check (congrArg (!·) hX.fits) fun _ => hX

theorem SameData.mulvResult (a : Fin 4) (b : Fin 2) :
    SameResult SameVec (mulvResult a b s) (mulvResult a b { s with mem := m }) := by
  refine sameResult_check rfl fun hv => sameResult_check rfl fun hd => ?_
  simp only [Bool.not_eq_false', Bool.and_eq_true, beq_iff_eq] at hv hd
  have hx := (h.mat a hv.1).matVec (h.vec b hv.2) hd
  exact sameResult_check (congrArg (!·) hx.fits) fun _ => hx

theorem SameData.detResult (a : Fin 4) : SameResult Eq (detResult a s) (detResult a { s with mem := m }) := by
  refine sameResult_check rfl fun hv => sameResult_check rfl fun hq => ?_
  simp only [Bool.not_eq_false', beq_iff_eq] at hv hq
  have hd := (h.mat a hv).det hq
  exact sameResult_check (by rw [hd]) fun _ => hd.symm

theorem SameData.minorResult (a : Fin 4) (i j : Nat) :
    SameResult SameMat (minorResult a i j s) (minorResult a i j { s with mem := m }) := by
  refine sameResult_check rfl fun hv => sameResult_check rfl fun _ => ?_
  exact (h.mat a (by simpa using hv)).minor i j

theorem SameData.adjResult (a : Fin 4) : SameResult SameMat (adjResult a s) (adjResult a { s with mem := m }) := by
  refine sameResult_check rfl fun hv => sameResult_check rfl fun hq => ?_
  simp only [Bool.not_eq_false', beq_iff_eq] at hv hq
  have hX := (h.mat a hv).adj hq
  exact sameResult_check (congrArg (!·) hX.fits) fun _ => hX

theorem SameData.trnResult (a : Fin 4) : SameResult SameMat (trnResult a s) (trnResult a { s with mem := m }) := by
  refine sameResult_check rfl fun hv => ?_
  exact (h.mat a (by simpa using hv)).transpose

theorem SameData.invResult (a : Fin 4) :
    SameResult (fun p q => SameMat p.1 q.1 ∧ p.2 = q.2) (invResult a s) (invResult a { s with mem := m }) := by
  refine sameResult_check rfl fun hv => sameResult_check rfl fun hq => ?_
  simp only [Bool.not_eq_false', beq_iff_eq] at hv hq
  have hd := (h.mat a hv).det hq
  have hX := (h.mat a hv).adj hq
  exact sameResult_check (by rw [hd]) fun _ => sameResult_check (by rw [hd, hX.fits]) fun _ => ⟨hX, hd.symm⟩

theorem SameData.minvmResult (a : Fin 4) :
    SameResult (fun p q => SameMat p.1 q.1 ∧ p.2 = q.2) (minvmResult a s) (minvmResult a { s with mem := m }) := by
  refine sameResult_check rfl fun hv => sameResult_check rfl fun hq => ?_
  simp only [Bool.not_eq_false', beq_iff_eq] at hv hq
  exact (h.mat a hv).keyInverse hq

theorem SameData.encbResult (a : Fin 4) (b : Fin 2) :
    SameResult SameVec (encbResult a b s) (encbResult a b { s with mem := m }) := by
  refine sameResult_check rfl fun hv => sameResult_check rfl fun hd => ?_
  simp only [Bool.not_eq_false', Bool.and_eq_true, beq_iff_eq] at hv hd
  exact (h.mat a hv.1).hillBlock fun q hq => (h.vec b hv.2).e q (hd ▸ hq)

theorem SameData.decbResult (a : Fin 4) (b : Fin 2) :
    SameResult SameVec (decbResult a b s) (decbResult a b { s with mem := m }) := by
  refine sameResult_check rfl fun hv => sameResult_check rfl fun hq => ?_
  simp only [Bool.not_eq_false', Bool.and_eq_true, beq_iff_eq] at hv hq
  rcases sameResult_iff.mp ((h.mat a hv.1).keyInverse hq) with ⟨e, h1, h2⟩ | ⟨k, k', h1, h2, hk, -⟩
  · rw [h1, h2]; rfl
  · rw [h1, h2]
    refine sameResult_check (by rw [hk.cols]; rfl) fun hd => ?_
    simp only [Bool.not_eq_false', beq_iff_eq] at hd
    exact hk.hillBlock fun q hq => (h.vec b hv.2).e q (hd ▸ hq)

theorem SameData.splitResult (k : BitVec 4) : SameResult Eq (splitResult k s) (splitResult k { s with mem := m }) := by
  refine sameResult_check rfl fun _ => sameResult_check rfl fun ht => ?_
  exact congrArg (splitPad · k.toNat) (h.text_eq (by simpa using ht)).symm

theorem SameData.hillText (ht : s.textOk = true) {T T' : Mat} (hT : SameMat T T') :
    SameResult Eq (hillText T s.text) (hillText T' (State.text { s with mem := m })) := by
  rw [h.text_eq ht, hT.hillText]
  exact sameResult_refl _ fun _ _ => rfl

theorem SameData.enctResult (a : Fin 4) : SameResult Eq (enctResult a s) (enctResult a { s with mem := m }) := by
  refine sameResult_check rfl fun hv => sameResult_check rfl fun ht => ?_
  exact h.hillText (by simpa using ht) (h.mat a (by simpa using hv))

theorem SameData.dectResult (a : Fin 4) : SameResult Eq (dectResult a s) (dectResult a { s with mem := m }) := by
  refine sameResult_check rfl fun hv => sameResult_check rfl fun ht => sameResult_check rfl fun hq => ?_
  simp only [Bool.not_eq_false', beq_iff_eq] at hv ht hq
  rcases sameResult_iff.mp ((h.mat a hv).keyInverse hq) with ⟨e, h1, h2⟩ | ⟨k, k', h1, h2, hk, -⟩
  · rw [h1, h2]; rfl
  · rw [h1, h2]
    exact h.hillText ht hk

end

/-! ## Writes -/

theorem State.len_congr {s t : State} {j : Fin 2} (h : t.vlen[j] = s.vlen[j]) : t.len j = s.len j := by
  rw [State.len, State.len, h]

/-! The writes of a command keep the data the same: the register it writes holds the same elements after it, and the others
are left alone. -/

section
variable {s u : State} (h : SameData s u)
include h

theorem SameData.writeMat (hp : u.params = s.params) (d : Fin 4) {X Y : Mat} (hX : SameMat X Y) :
    SameData (s.writeMat d X) (u.writeMat d Y) where
  mats i r c hv hr hc := by
    have hrN : r < s.params.nMax := Nat.lt_of_lt_of_le hr hv.1.2
    have hcN : c < s.params.nMax := Nat.lt_of_lt_of_le hc hv.2.2
    rw [State.mat_e, State.mat_e]
    by_cases hi : i = d
    · rw [hi, State.elem_writeMat_self s d X hrN hcN, State.elem_writeMat_self u d Y (hp ▸ hrN) (hp ▸ hcN), hX.slot]
    · have hmd := State.mdim_writeMat_ne s X hi
      rw [State.elem_writeMat_ne hi X hrN hcN, State.elem_writeMat_ne hi Y (hp ▸ hrN) (hp ▸ hcN), ← State.mat_e,
        ← State.mat_e]
      simp only [ShapeValid, State.rows_congr hmd, State.cols_congr hmd] at hv hr hc
      exact h.mats i r c hv hr hc
  vecs j k hv hk := by
    have hkN : k < s.params.nMax := Nat.lt_of_lt_of_le hk hv.2
    rw [State.vec_e, State.vec_e, State.elem_vec_writeMat j d X hkN, State.elem_vec_writeMat j d Y (hp ▸ hkN),
      ← State.vec_e, ← State.vec_e]
    exact h.vecs j k hv hk
  text k ht hk := by
    have h256 : k < 256 := Nat.lt_of_lt_of_le hk (ht.trans (textMax_le _))
    rw [State.inByte_writeMat d X h256, State.inByte_writeMat d Y h256]
    exact h.text k ht hk

theorem SameData.writeVec (hp : u.params = s.params) (d : Fin 2) {x y : Vec} (hx : SameVec x y) :
    SameData (s.writeVec d x) (u.writeVec d y) where
  mats i r c hv hr hc := by
    have hrN : r < s.params.nMax := Nat.lt_of_lt_of_le hr hv.1.2
    have hcN : c < s.params.nMax := Nat.lt_of_lt_of_le hc hv.2.2
    rw [State.mat_e, State.mat_e, State.elem_mat_writeVec i d x hrN hcN,
      State.elem_mat_writeVec i d y (hp ▸ hrN) (hp ▸ hcN), ← State.mat_e, ← State.mat_e]
    exact h.mats i r c hv hr hc
  vecs j k hv hk := by
    have hkN : k < s.params.nMax := Nat.lt_of_lt_of_le hk hv.2
    rw [State.vec_e, State.vec_e]
    by_cases hj : j = d
    · rw [hj, State.elem_writeVec_self s d x hkN, State.elem_writeVec_self u d y (hp ▸ hkN), hx.slot]
    · have hvl := State.len_congr (State.vlen_writeVec_ne s x hj)
      rw [State.elem_writeVec_ne hj x hkN, State.elem_writeVec_ne hj y (hp ▸ hkN), ← State.vec_e, ← State.vec_e]
      simp only [LenValid, hvl] at hv hk
      exact h.vecs j k hv hk
  text k ht hk := by
    have h256 : k < 256 := Nat.lt_of_lt_of_le hk (ht.trans (textMax_le _))
    rw [State.inByte_writeVec d x h256, State.inByte_writeVec d y h256]
    exact h.text k ht hk

theorem SameData.writeOut (hp : u.params = s.params) {t : List Byte} (ht : t.length ≤ s.params.outCap) :
    SameData (s.writeOut t) (u.writeOut t) where
  mats i r c hv hr hc := by
    rw [State.mat_e, State.mat_e, State.elem_mat_writeOut i ht, State.elem_mat_writeOut i (hp ▸ ht), ← State.mat_e,
      ← State.mat_e]
    exact h.mats i r c hv hr hc
  vecs j k hv hk := by
    have hkN : k < s.params.nMax := Nat.lt_of_lt_of_le hk hv.2
    rw [State.vec_e, State.vec_e, State.elem_vec_writeOut j t hkN, State.elem_vec_writeOut j t (hp ▸ hkN), ← State.vec_e,
      ← State.vec_e]
    exact h.vecs j k hv hk
  text k htl hk := by
    have h256 : k < 256 := Nat.lt_of_lt_of_le hk (htl.trans (textMax_le _))
    rw [State.inByte_writeOut t h256, State.inByte_writeOut t h256]
    exact h.text k htl hk

end

section
variable {s u : State} (h : Alike s u)
include h

theorem Alike.complete (c : Option CmdError) : Alike (s.complete c) (u.complete c) := by
  obtain ⟨m, rfl, hd⟩ := h
  exact ⟨m, rfl, hd.mats, hd.vecs, hd.text⟩

theorem Alike.setRes (v : Elem) : Alike (s.setRes v) (u.setRes v) := by
  obtain ⟨m, rfl, hd⟩ := h
  exact ⟨m, rfl, hd.mats, hd.vecs, hd.text⟩

theorem Alike.setAux (v : Word) : Alike (s.setAux v) (u.setAux v) := by
  obtain ⟨m, rfl, hd⟩ := h
  exact ⟨m, rfl, hd.mats, hd.vecs, hd.text⟩

theorem Alike.writeMat (d : Fin 4) {X Y : Mat} (hX : SameMat X Y) : Alike (s.writeMat d X) (u.writeMat d Y) := by
  obtain ⟨m, rfl, hd⟩ := h
  have hu : State.writeMat d Y { s with mem := m } =
      { s.writeMat d X with mem := m.writeMany (matBytes s.params d) Y.byteAt } := by
    simp only [State.writeMat, State.store, State.setMdim, Mat.dims, hX.rows, hX.cols]
  exact ⟨_, hu, hu ▸ hd.writeMat rfl d hX⟩

theorem Alike.writeVec (d : Fin 2) {x y : Vec} (hx : SameVec x y) : Alike (s.writeVec d x) (u.writeVec d y) := by
  obtain ⟨m, rfl, hd⟩ := h
  have hu : State.writeVec d y { s with mem := m } =
      { s.writeVec d x with mem := m.writeMany (vecBytes s.params d) y.byteAt } := by
    simp only [State.writeVec, State.store, State.setVlen, hx.len]
  exact ⟨_, hu, hu ▸ hd.writeVec rfl d hx⟩

theorem Alike.writeOut {t : List Byte} (ht : t.length ≤ s.params.outCap) : Alike (s.writeOut t) (u.writeOut t) := by
  obtain ⟨m, rfl, hd⟩ := h
  exact ⟨_, rfl, hd.writeOut rfl ht⟩

end

/-! ## Commands -/

/-- Results that are alike, committed by writes that keep states alike, complete alike. -/
theorem finish_alike {α : Type} {R : α → α → Prop} {s u : State} (h : Alike s u) {r r' : Except CmdError α}
    (hr : SameResult R r r') {f g : α → State} (hw : ∀ a b, r = .ok a → R a b → Alike (f a) (g b)) :
    EndAlike (finish s (r.map f)) (finish u (r'.map g)) := by
  rcases sameResult_iff.mp hr with ⟨e, rfl, rfl⟩ | ⟨a, b, rfl, rfl, hab⟩
  · exact ⟨_, _, rfl, rfl, h.complete _⟩
  · exact ⟨_, _, rfl, rfl, (hw a b rfl hab).complete _⟩

theorem finish_error_alike {s u : State} (h : Alike s u) (e : CmdError) :
    EndAlike (finish s (.error e)) (finish u (.error e)) := ⟨_, _, rfl, rfl, h.complete _⟩

/-- Every command completes alike from two states that hold the same data (R24, R25, R27). -/
theorem exec_alike (i : Instr) {s u : State} (h : Alike s u) : EndAlike (exec i s) (exec i u) := by
  have ⟨m, hu, hd⟩ := h
  subst hu
  cases i with
  | nop => exact ⟨_, _, rfl, rfl, h.complete none⟩
  | c2n => exact finish_alike h (sameResult_refl _ fun _ _ => rfl) fun _ _ _ hv => by subst hv; exact h.setRes _
  | n2c => exact ⟨_, _, rfl, rfl, (h.setRes _).complete none⟩
  | split k => exact finish_alike h (hd.splitResult k) fun _ _ hr ht => ht ▸ h.writeOut (splitResult_length hr)
  | add rd ra rb => exact finish_alike h (hd.addResult _ _) fun _ _ _ hX => h.writeMat _ hX
  | mulm rd ra rb => exact finish_alike h (hd.mulmResult _ _) fun _ _ _ hX => h.writeMat _ hX
  | mulv rd ra rb =>
    simp only [exec, execMulv]
    split
    · exact finish_alike h (hd.mulvResult _ _) fun _ _ _ hx => h.writeVec _ hx
    · exact finish_error_alike h _
  | det ra => exact finish_alike h (hd.detResult _) fun _ _ _ hv => by subst hv; exact h.setRes _
  | minor rd ra r c => exact finish_alike h (hd.minorResult _ _ _) fun _ _ _ hX => h.writeMat _ hX
  | adj rd ra => exact finish_alike h (hd.adjResult _) fun _ _ _ hX => h.writeMat _ hX
  | trn rd ra => exact finish_alike h (hd.trnResult _) fun _ _ _ hX => h.writeMat _ hX
  | inv rd ra =>
    exact finish_alike h (hd.invResult _) fun p q _ hp => by
      simp only [hp.2]; exact (h.writeMat _ hp.1).setRes _
  | modinv => exact finish_alike h (sameResult_refl _ fun _ _ => rfl) fun _ _ _ hv => by subst hv; exact h.setRes _
  | minvm rd ra =>
    exact finish_alike h (hd.minvmResult _) fun p q _ hp => by
      simp only [hp.2]; exact ((h.writeMat _ hp.1).setRes _).setAux _
  | encb rd ra rb =>
    simp only [exec, execEncb]
    split
    · exact finish_alike h (hd.encbResult _ _) fun _ _ _ hx => h.writeVec _ hx
    · exact finish_error_alike h _
  | decb rd ra rb =>
    simp only [exec, execDecb]
    split
    · exact finish_alike h (hd.decbResult _ _) fun _ _ _ hx => h.writeVec _ hx
    · exact finish_error_alike h _
  | enct ra => exact finish_alike h (hd.enctResult _) fun _ _ hr ht => ht ▸ h.writeOut (enctResult_length hr)
  | dect ra => exact finish_alike h (hd.dectResult _) fun _ _ hr ht => ht ▸ h.writeOut (dectResult_length hr)

/-- A text committed from two states reads the same in OUT_BUF of both. -/
theorem finish_writeOut_outByte {s u t v : State} {r r' : Except CmdError (List Byte)} (hr : SameResult Eq r r')
    (ht : finish s (r.map fun o => s.writeOut o) = .next t) (hv : finish u (r'.map fun o => u.writeOut o) = .next v)
    (hc : t.ecode = none) {k : Nat} (hk : k < t.outLen.toNat) : v.outByte k = t.outByte k := by
  rcases sameResult_iff.mp hr with ⟨e, rfl, rfl⟩ | ⟨o, _, rfl, rfl, rfl⟩
  · cases ht
    cases hc
  · cases ht
    cases hv
    have hko : k < o.length := Nat.lt_of_lt_of_le hk (by simpa using Nat.mod_le o.length _)
    exact (State.outByte_writeOut u o hko).trans (State.outByte_writeOut s o hko).symm

/-- Settles O60. Every command's result is a function of the data alone, so two states with the same data end alike. -/
theorem bytesOutsideTheShapesAreNotRead : Obligations.BytesOutsideTheShapesAreNotRead := by
  intro i s t m h ht
  obtain ⟨t', v, ht', hv, m', rfl, hd⟩ := exec_alike i ⟨m, rfl, h⟩
  cases ht.symm.trans ht'
  refine ⟨m', hv, hd, fun hi hc k hk => ?_⟩
  cases i with
  | split n => exact finish_writeOut_outByte (h.splitResult n) ht hv hc hk
  | enct ra => exact finish_writeOut_outByte (h.enctResult _) ht hv hc hk
  | dect ra => exact finish_writeOut_outByte (h.dectResult _) ht hv hc hk
  | _ => simp [Instr.opcode] at hi

end Sys2Proof.Machine
end

section
/-! SUPPORT. What one step does, case by case, and the invariant that every step keeps (spec/20_memory.md R61, R62, R73;
spec/10_state.md R28, R32, R38). -/

namespace Sys2Proof.Machine

/-! ## Everything a step can do -/

/-- Everything one clock cycle can do (R38, R61, R200): a refused or a plain power-on reset, a broken handshake, or a bus side
that goes through with the engine side after it. -/
theorem step_cases (s : State) :
    (s.nextCycle.rstN = false ∧ s.nextCycle.req ≠ none ∧ step s = .refused .requestDuringReset) ∨
    (s.nextCycle.rstN = false ∧ s.nextCycle.req = none ∧ step s = .next s.begin.powerOn) ∨
    (s.nextCycle.rstN = true ∧ (∃ h, s.held = some h ∧ s.nextCycle.req ≠ some h.request) ∧
      step s = .fault .handshakeBroken) ∨
    (s.nextCycle.rstN = true ∧ (∀ h, s.held = some h → s.nextCycle.req = some h.request) ∧
      ∃ t, busCycle s.nextCycle s.begin = .ok t ∧ step s = engineCycle s.phase t) := by
  cases hr : s.nextCycle.rstN with
  | false =>
    cases hq : s.nextCycle.req with
    | none => exact .inr (.inl ⟨rfl, rfl, by simp [step, clockCycle, hr, hq]⟩)
    | some r => exact .inl ⟨rfl, by simp, by simp [step, clockCycle, hr, hq]⟩
  | true =>
    refine .inr (.inr ?_)
    have hok {t : State} (hb : busCycle s.nextCycle s.begin = .ok t) :
        ∃ t, busCycle s.nextCycle s.begin = .ok t ∧ step s = engineCycle s.phase t := ⟨t, hb, step_of_busCycle hr hb⟩
    rcases busCycle_cases s.nextCycle s.begin with
      ⟨hh, -, hb⟩ | ⟨r, hh, -, hb⟩ | ⟨h, hh, hq, -, hb⟩ | ⟨h, hh, hq, -, hb⟩ | ⟨h, hh, hq, hb⟩ <;>
      rw [State.begin_held] at hh
    · exact .inr ⟨rfl, fun g hg => by simp [hh] at hg, hok hb⟩
    · exact .inr ⟨rfl, fun g hg => by simp [hh] at hg, hok hb⟩
    · exact .inr ⟨rfl, fun g hg => by rwa [← Option.some.inj (hh.symm.trans hg)], hok hb⟩
    · exact .inr ⟨rfl, fun g hg => by rwa [← Option.some.inj (hh.symm.trans hg)], hok hb⟩
    · exact .inl ⟨rfl, ⟨h, hh, hq⟩, by simp [step, clockCycle, hr, hb]⟩

/-! ## Updates that keep the invariant -/

/-- The invariant depends on seven fields only. -/
theorem State.Inv.congr {s t : State} (h : s.Inv) (hparams : t.params = s.params) (hmem : t.mem = s.mem)
    (hcur : t.cur = s.cur) (hcmd : t.cmd = s.cmd) (hphase : t.phase = s.phase) (hheld : t.held = s.held)
    (hout : t.outLen = s.outLen) : t.Inv where
  memSorted := hmem ▸ h.memSorted
  memStorage := by rw [State.storageOnly, hmem, hparams]; exact h.memStorage
  curIsCmd := by rw [hcur, hcmd]; exact h.curIsCmd
  live := hphase ▸ h.live
  heldLive := State.heldLive_congr hheld h.heldLive
  outLenFits := by rw [hout, hparams]; exact h.outLenFits

/-- Bytes stored where there is storage (R73). -/
theorem State.Inv.store {s : State} (h : s.Inv) {l : List Nat} (hl : ∀ a ∈ l, hasStorage s.params a = true)
    (f : Nat → Byte) : (s.store l f).Inv where
  memSorted := State.wf_store l f h.memSorted
  memStorage := fun c hc => (Memory.mem_writeMany hc).elim (hl c.1) (h.memStorage c)
  curIsCmd := h.curIsCmd
  live := h.live
  heldLive := State.heldLive_congr rfl h.heldLive
  outLenFits := h.outLenFits

/-- A change of phase to one that is live. -/
theorem State.Inv.setPhase {s : State} (h : s.Inv) {p : Phase} (hp : p.live) : State.Inv { s with phase := p } where
  memSorted := h.memSorted
  memStorage := h.memStorage
  curIsCmd := h.curIsCmd
  live := hp
  heldLive := State.heldLive_congr rfl h.heldLive
  outLenFits := h.outLenFits

/-- A new outstanding request with a cycle left (R216). -/
theorem State.Inv.hold {s : State} (h : s.Inv) {r : Held} (hr : 1 ≤ r.remaining) : (s.hold r).Inv where
  memSorted := h.memSorted
  memStorage := h.memStorage
  curIsCmd := h.curIsCmd
  live := h.live
  heldLive := fun g hg => by cases hg; exact hr
  outLenFits := h.outLenFits

/-- OUT_LEN set to the length of a text within OUT_BUF (R28, R30). -/
theorem State.Inv.setOutLen {s : State} (h : s.Inv) {n : Nat} (hn : n ≤ s.params.outCap) :
    (s.setOutLen (BitVec.ofNat 9 n)).Inv where
  memSorted := h.memSorted
  memStorage := h.memStorage
  curIsCmd := h.curIsCmd
  live := h.live
  heldLive := State.heldLive_congr rfl h.heldLive
  outLenFits := Nat.le_trans (by simpa using Nat.mod_le n _) hn

theorem State.Inv.begin {s : State} (h : s.Inv) : s.begin.Inv := h.congr rfl rfl rfl rfl rfl rfl rfl

/-- An accepted command has its word in CMD and a cycle left at least (R32, R215). -/
theorem State.Inv.accept {s : State} (h : s.Inv) (w : Word) (extra : Nat) : (s.accept w extra).Inv where
  memSorted := h.memSorted
  memStorage := h.memStorage
  curIsCmd := rfl
  live := Nat.le_add_left 1 extra
  heldLive := State.heldLive_congr rfl h.heldLive
  outLenFits := h.outLenFits

theorem State.Inv.softReset {s : State} (h : s.Inv) : s.softReset.Inv where
  memSorted := h.memSorted
  memStorage := h.memStorage
  curIsCmd := rfl
  live := trivial
  heldLive := State.heldLive_congr rfl h.heldLive
  outLenFits := Nat.zero_le _

/-- Power-on reset makes the invariant, from any state. -/
theorem State.powerOn_inv (s : State) : s.powerOn.Inv where
  memSorted := List.Pairwise.nil
  memStorage := fun _ hc => absurd hc List.not_mem_nil
  curIsCmd := rfl
  live := trivial
  heldLive := State.heldLive_of_none rfl
  outLenFits := Nat.zero_le _

theorem State.Inv.storeWord {s : State} (h : s.Inv) (a : Nat) (v : Word) : (s.storeWord a v).Inv :=
  h.store (fun _ hx => (List.mem_filter.mp hx).2) _

theorem State.Inv.writeMat {s : State} (h : s.Inv) (d : Fin 4) (X : Mat) : (s.writeMat d X).Inv :=
  (h.store (fun _ => hasStorage_matBytes) X.byteAt).congr rfl rfl rfl rfl rfl rfl rfl

theorem State.Inv.writeVec {s : State} (h : s.Inv) (d : Fin 2) (x : Vec) : (s.writeVec d x).Inv :=
  (h.store (fun _ => hasStorage_vecBytes) x.byteAt).congr rfl rfl rfl rfl rfl rfl rfl

theorem State.Inv.writeOut {s : State} (h : s.Inv) {t : List Byte} (ht : t.length ≤ s.params.outCap) :
    (s.writeOut t).Inv :=
  (h.store (fun _ => hasStorage_outBytes ht) fun a => t.getD (a - outBase) 0).setOutLen ht

theorem State.Inv.setRes {s : State} (h : s.Inv) (v : Elem) : (s.setRes v).Inv := h.congr rfl rfl rfl rfl rfl rfl rfl

theorem State.Inv.setAux {s : State} (h : s.Inv) (v : Word) : (s.setAux v).Inv := h.congr rfl rfl rfl rfl rfl rfl rfl

/-- A completion leaves the engine IDLE (R176). -/
theorem State.Inv.complete {s : State} (h : s.Inv) (c : Option CmdError) : (s.complete c).Inv :=
  (h.setPhase (p := .idle) trivial).congr rfl rfl rfl rfl rfl rfl rfl

/-! ## The bus side and the engine side keep the invariant -/

theorem State.Inv.writeTarget {s : State} (h : s.Inv) (t : Target) (a : Nat) (v : Word) (extra : Nat) :
    (s.writeTarget t a v extra).Inv := by
  cases t with
  | cmd => exact h.accept v extra
  | ctrl =>
    rw [State.writeTarget, State.writeCtrl]
    split
    · exact h.softReset
    · exact h.congr rfl rfl rfl rfl rfl rfl rfl
  | vecWord | inWord | matWord => exact h.storeWord a v
  | status | sarg | textLen | mdim _ | vlen _ => exact h.congr rfl rfl rfl rfl rfl rfl rfl
  | id | version | param | resLo | resHi | aux | outLen | outWord | reserved => exact h

theorem State.Inv.transactState {s : State} (h : s.Inv) (r : Request) (extra : Nat) : (transactState r extra s).Inv := by
  rcases transactState_cases r extra s with ht | ⟨-, ht⟩ | ⟨-, -, -, ht⟩ <;> rw [ht]
  · exact h
  · exact h.congr rfl rfl rfl rfl rfl rfl rfl
  · exact h.writeTarget _ _ _ _

/-- After an ack no request is outstanding. -/
theorem State.Inv.acknowledge {s : State} (h : s.Inv) (r : Request) (extra : Nat) : (s.acknowledge r extra).Inv where
  memSorted := (h.transactState r extra).memSorted
  memStorage := (h.transactState r extra).memStorage
  curIsCmd := (h.transactState r extra).curIsCmd
  live := (h.transactState r extra).live
  heldLive := State.heldLive_of_none rfl
  outLenFits := (h.transactState r extra).outLenFits

theorem State.Inv.busCycle {c : Cycle} {s t : State} (h : s.Inv) (ht : busCycle c s = .ok t) : t.Inv := by
  rcases busCycle_cases c s with ⟨-, -, hb⟩ | ⟨r, -, -, hb⟩ | ⟨g, -, -, hg, hb⟩ | ⟨g, -, -, -, hb⟩ | ⟨_, -, -, hb⟩ <;>
    cases ht.symm.trans hb
  · exact h
  · exact h.hold (Nat.le_add_left 1 _)
  · exact h.hold (Nat.le_sub_one_of_lt hg)
  · exact h.acknowledge _ _

theorem Commit.inv {i : Instr} {s u : State} (hc : Commit i s u) (h : s.Inv) : u.Inv := by
  cases i with
  | nop => cases hc; exact h
  | c2n | n2c | det _ | modinv => obtain ⟨_, rfl⟩ := hc; exact h.setRes _
  | split _ | enct _ | dect _ => obtain ⟨_, ht, rfl⟩ := hc; exact h.writeOut ht
  | add _ _ _ | mulm _ _ _ | minor _ _ _ _ | adj _ _ | trn _ _ => obtain ⟨_, rfl⟩ := hc; exact h.writeMat _ _
  | mulv _ _ _ | encb _ _ _ | decb _ _ _ => obtain ⟨_, _, -, rfl⟩ := hc; exact h.writeVec _ _
  | inv _ _ => obtain ⟨_, _, rfl⟩ := hc; exact (h.writeMat _ _).setRes _
  | minvm _ _ => obtain ⟨_, _, _, rfl⟩ := hc; exact ((h.writeMat _ _).setRes _).setAux _

theorem State.Inv.failed {s : State} (h : s.Inv) (e : CmdError) : (failed e s).Inv :=
  State.complete_some e s ▸ h.complete (some e)

theorem State.Inv.exec {i : Instr} {s t : State} (h : s.Inv) (ht : exec i s = .next t) : t.Inv := by
  rcases exec_cases i s with ⟨e, he⟩ | ⟨u, hu, hc⟩
  · cases ht.symm.trans he; exact h.failed e
  · cases ht.symm.trans hu; exact (hc.inv h).complete none

theorem State.Inv.engineCycle {before : Phase} {s t : State} (h : s.Inv) (ht : engineCycle before s = .next t) : t.Inv := by
  rcases engineCycle_cases before s with ⟨he, -⟩ | ⟨n, m, -, -, hn, he⟩ | ⟨n, m, -, -, -, he⟩
  · cases ht.symm.trans he; exact h
  · cases ht.symm.trans he; exact h.setPhase (p := .busy (n - 1)) (Nat.le_sub_one_of_lt hn)
  · rcases completeCurrent_cases s with ⟨i, -, hc⟩ | ⟨_, -, hc⟩
    · exact h.exec (hc.symm.trans (he.symm.trans ht))
    · cases ht.symm.trans (he.trans hc); exact h.failed _

/-- Settles O21. The begin of the cycle, its bus side and its engine side each keep the invariant; a power-on reset makes it. -/
theorem everyStepKeepsTheInvariant : Obligations.EveryStepKeepsTheInvariant := by
  intro s t h ht
  rcases step_cases s with ⟨-, -, hs⟩ | ⟨-, -, hs⟩ | ⟨-, -, hs⟩ | ⟨-, -, u, hb, hs⟩
  · cases ht.symm.trans hs
  · cases ht.symm.trans hs; exact State.powerOn_inv _
  · cases ht.symm.trans hs
  · exact (h.begin.busCycle hb).engineCycle (hs.symm.trans ht)

/-! ## When the machine stops (R61, R200) -/

/-- Settles O23, by the four cases of `step_cases`, which exclude each other. -/
theorem onlyProtocolViolationsStopTheMachine : Obligations.OnlyProtocolViolationsStopTheMachine := by
  intro s
  rcases step_cases s with ⟨hr, hq, hs⟩ | ⟨hr, hq, hs⟩ | ⟨hr, hq, hs⟩ | ⟨hr, hq, u, -, hs⟩
  · simp [hs, hr, hq]
  · simp [hs, hr, hq]
  · simpa [hs, hr] using hq
  · obtain ⟨t, ht, -⟩ := engineCycle_next s.phase u
    simpa [hs, ht, hr] using hq

/-- A bus side whose inputs keep the protocol goes through, and the inputs after it keep the protocol. -/
theorem busCycle_legal {c : Cycle} {rest : List Cycle} {s : State} (hr : c.rstN = true)
    (hl : legalCycles s.held (c :: rest) = true) : ∃ t, busCycle c s = .ok t ∧ legalCycles t.held rest = true := by
  simp only [legalCycles, hr] at hl
  rcases busCycle_cases c s with ⟨hh, hq, hb⟩ | ⟨r, hh, hq, hb⟩ | ⟨h, hh, hq, hn, hb⟩ | ⟨h, hh, hq, hn, hb⟩ | ⟨h, hh, hq, hb⟩
  · exact ⟨_, hb, by simpa [hh, hq] using hl⟩
  · exact ⟨_, hb, by simpa [hh, hq] using hl⟩
  · exact ⟨_, hb, by simpa [hh, hq, Nat.not_le.mpr hn] using hl⟩
  · exact ⟨_, hb, by simpa [hh, hq, hn] using hl⟩
  · cases hc : c.req with
    | none => simp [hh, hc] at hl
    | some r =>
      have hne : h.request ≠ r := fun e => hq (by rw [hc, e])
      simp [hh, hc, hne] at hl

/-- The bus side of a cycle takes no input of a later one. -/
theorem busCycle_pending {c : Cycle} {s t : State} (ht : busCycle c s = .ok t) : t.pending = s.pending := by
  rcases busCycle_cases c s with ⟨-, -, hb⟩ | ⟨r, -, -, hb⟩ | ⟨g, -, -, -, hb⟩ | ⟨g, -, -, -, hb⟩ | ⟨_, -, -, hb⟩ <;>
    cases ht.symm.trans hb
  · rfl
  · rfl
  · rfl
  · exact transactState_pending _ _ _

/-- Where the bus side goes through, the step goes on with the request and the inputs it leaves. -/
theorem step_next_of_busCycle {s u : State} (hr : s.nextCycle.rstN = true) (hb : busCycle s.nextCycle s.begin = .ok u) :
    ∃ t, step s = .next t ∧ t.held = u.held ∧ t.bus = u.bus ∧ t.pending = s.pending.tail := by
  obtain ⟨t, ht, hheld, hbus, hpend⟩ := engineCycle_next s.phase u
  exact ⟨t, (step_of_busCycle hr hb).trans ht, hheld, hbus, hpend.trans (busCycle_pending hb)⟩

/-- Settles O22. Where the inputs have run out, nothing can break the protocol; otherwise the cycle is a reset without a request or
its bus side goes through (`busCycle_legal`). -/
theorem legalHostNeverStopsTheMachine : Obligations.LegalHostNeverStopsTheMachine := by
  intro s hl
  cases hp : s.pending with
  | nil =>
    have hc := State.nextCycle_nil hp
    rcases step_cases s with ⟨hr, -, -⟩ | ⟨hr, -, -⟩ | ⟨-, ⟨h, hh, hq⟩, -⟩ | ⟨hr, -, u, hb, -⟩
    · simp [hc] at hr
    · simp [hc] at hr
    · simp [hc, hh] at hq
    · obtain ⟨t, ht, -, -, hpt⟩ := step_next_of_busCycle hr hb
      exact ⟨t, ht, by simp [State.hostLegal, hpt, hp, legalCycles]⟩
  | cons c rest =>
    have hc := State.nextCycle_cons hp
    rw [State.hostLegal, hp] at hl
    cases hr : c.rstN with
    | false =>
      simp only [legalCycles, hr, Bool.not_false, if_true, Bool.and_eq_true, Option.isNone_iff_eq_none] at hl
      obtain ⟨hq, hrest⟩ := hl
      exact ⟨s.begin.powerOn, by simp [step, clockCycle, hc, hr, hq], by simpa [State.hostLegal, hp] using hrest⟩
    | true =>
      obtain ⟨u, hb, hu⟩ := busCycle_legal (s := s.begin) hr hl
      rw [← hc] at hr hb
      obtain ⟨t, ht, hh, -, hpt⟩ := step_next_of_busCycle hr hb
      exact ⟨t, ht, by rw [State.hostLegal, hh, hpt, hp]; exact hu⟩

end Sys2Proof.Machine
end

section
/-! SUPPORT. What a bus transaction reads and writes, IDLE and BUSY, and where there is storage (spec/20_memory.md R63-R68,
R71-R74). -/

namespace Sys2Proof.Machine

/-! ## Writes by phase -/

theorem transactState_write_idle {s : State} {a : Addr} (hp : s.phase = .idle) (h4 : a.toNat % 4 = 0) (v : Word) (extra : Nat) :
    transactState { we := true, addr := a, wdata := v } extra s = s.writeTarget (targetOf a.toNat) a.toNat v extra := by
  by_cases hr : targetOf a.toNat = .reserved
  · simp [transactState, busWriteState, h4, hr, State.writeTarget]
  · simp [transactState, busWriteState, h4, hr, hp, Phase.isBusy]

theorem transactState_write_busy {s : State} {a : Addr} {n : Nat} (hp : s.phase = .busy n) (h4 : a.toNat % 4 = 0)
    (hr : targetOf a.toNat ≠ .reserved) (hw : (targetOf a.toNat).writableBusy = false) (v : Word) (extra : Nat) :
    transactState { we := true, addr := a, wdata := v } extra s = s.setBusyViolation := by
  simp [transactState, busWriteState, h4, hr, hw, hp, Phase.isBusy]

theorem transactState_read {r : Request} (h : r.we = false) (extra : Nat) (s : State) : transactState r extra s = s := by
  simp [transactState, h]

theorem busWriteResponse_mapped {a : Addr} (h4 : a.toNat % 4 = 0) (hr : targetOf a.toNat ≠ .reserved) :
    busWriteResponse a = { rdata := none, berr := false } := by
  simp [busWriteResponse, h4, hr]

/-- Settles O9: STATUS and CTRL are the only targets a write reaches while BUSY (`writableBusy_iff`). -/
theorem writesWhileBusyAreDropped : Obligations.WritesWhileBusyAreDropped := by
  intro s a v extra n hp h4 hr hstatus hctrl
  have hw : (targetOf a.toNat).writableBusy = false := by
    rw [Bool.eq_false_iff, ne_eq, writableBusy_iff h4 a.isLt]
    exact not_or.mpr ⟨fun h => hstatus (BitVec.eq_of_toNat_eq h), fun h => hctrl (BitVec.eq_of_toNat_eq h)⟩
  exact ⟨transactState_write_busy hp h4 hr hw v extra, congrArg Response.berr (busWriteResponse_mapped h4 hr)⟩

/-! ## Bus errors (R63, R66) -/

/-- An address that names nothing on the bus: misaligned, or reserved by R71. -/
def Unmapped (a : Addr) : Prop := a.toNat % 4 ≠ 0 ∨ targetOf a.toNat = .reserved

theorem transactState_unmapped {r : Request} (h : Unmapped r.addr) (extra : Nat) (s : State) : transactState r extra s = s := by
  rcases h with h | h <;> simp [transactState, busWriteState, h]

theorem transactResponse_unmapped {r : Request} (h : Unmapped r.addr) (s : State) :
    transactResponse r s = { rdata := some 0, berr := true } := by
  rcases h with h | h <;> simp [transactResponse, busWriteResponse, busRead, h]

/-- Settles O10, by R71's list of reserved addresses (`targetOf_reserved_iff`). -/
theorem misalignedOrReservedIsBusError : Obligations.MisalignedOrReservedIsBusError := by
  intro s r extra h
  have hu : Unmapped r.addr := h.imp_right fun ⟨h4, hr⟩ => (targetOf_reserved_iff h4 r.addr.isLt).mpr hr
  exact ⟨transactState_unmapped hu extra s, transactResponse_unmapped hu s⟩

/-! ## Reads by phase -/

theorem busRead_idle {s : State} {a : Addr} (hp : s.phase = .idle) (h4 : a.toNat % 4 = 0)
    (hr : targetOf a.toNat ≠ .reserved) :
    busRead a s = { rdata := some (s.readTarget (targetOf a.toNat) a.toNat), berr := false } := by
  simp [busRead, h4, hr, hp, Phase.isBusy]

/-- The registers that R65 names read alike in every phase. -/
theorem busRead_id (s : State) : busRead 0x000 s = { rdata := some 0x48494C4C, berr := false } := by
  simp [busRead, targetOf, Target.readableBusy, State.readTarget, idWord]

theorem busRead_version (s : State) : busRead 0x004 s = { rdata := some 0x00010000, berr := false } := by
  simp [busRead, targetOf, Target.readableBusy, State.readTarget, versionWord]

theorem busRead_param (s : State) : busRead 0x008 s =
    { rdata := some (BitVec.ofNat 32 (s.params.nMax + 0x1A00 + 0x10000 * s.params.textMax)), berr := false } := by
  simp [busRead, targetOf, Target.readableBusy, State.readTarget, paramWord_eq]

theorem targetOf_mdim (i : Fin 4) : targetOf (BitVec.ofNat 12 (0x040 + 4 * i)).toNat = .mdim i := by
  revert i; decide

theorem targetOf_vlen (j : Fin 2) : targetOf (BitVec.ofNat 12 (0x050 + 4 * j)).toNat = .vlen j := by
  revert j; decide

theorem mdim_aligned (i : Fin 4) : (BitVec.ofNat 12 (0x040 + 4 * i)).toNat % 4 = 0 := by
  revert i; decide

theorem vlen_aligned (j : Fin 2) : (BitVec.ofNat 12 (0x050 + 4 * j)).toNat % 4 = 0 := by
  revert j; decide

theorem busRead_mdim {s : State} (hp : s.phase = .idle) (i : Fin 4) : busRead (BitVec.ofNat 12 (0x040 + 4 * i)) s =
    { rdata := some (BitVec.ofNat 32 (s.rows i + 16 * s.cols i)), berr := false } := by
  rw [busRead_idle hp (mdim_aligned i) (by rw [targetOf_mdim]; nofun), targetOf_mdim, State.readTarget, mdimWord_eq]
  rfl

theorem busRead_vlen {s : State} (hp : s.phase = .idle) (j : Fin 2) : busRead (BitVec.ofNat 12 (0x050 + 4 * j)) s =
    { rdata := some (BitVec.ofNat 32 (s.len j)), berr := false } := by
  rw [busRead_idle hp (vlen_aligned j) (by rw [targetOf_vlen]; nofun), targetOf_vlen, State.readTarget, State.len,
    BitVec.ofNat_toNat]

/-- Settles O11, each register at its address (R71). -/
theorem idleReadsReturnTheRegisters : Obligations.IdleReadsReturnTheRegisters := by
  intro s hp
  have read {a : Addr} (h4 : a.toNat % 4 = 0) (hr : targetOf a.toNat ≠ .reserved) := busRead_idle hp h4 hr
  exact ⟨busRead_id s, busRead_version s, busRead_param s, busRead_cmd s, read (by decide) (by decide),
    read (by decide) (by decide), read (by decide) (by decide), read (by decide) (by decide), read (by decide) (by decide),
    read (by decide) (by decide), busRead_mdim hp, busRead_vlen hp⟩

/-- Settles O12: byte `k` of a storage word is the storage byte it was built from. -/
theorem idleReadsOfStorageAreLittleEndian : Obligations.IdleReadsOfStorageAreLittleEndian := by
  intro s a hp h4 h
  exact ⟨s.busWord a.toNat, busRead_storage hp h4 h, fun k hk => extractLsb'_leNat (fun k => s.busByte (a.toNat + k)) hk⟩

/-- A mapped address reads some word, and is no bus error. -/
theorem busRead_mapped {a : Addr} (h4 : a.toNat % 4 = 0) (hr : targetOf a.toNat ≠ .reserved) (s : State) :
    ∃ w, busRead a s = { rdata := some w, berr := false } := by
  by_cases hb : s.phase.isBusy && !(targetOf a.toNat).readableBusy
  · exact ⟨_, by rw [busRead, if_neg (not_not.mpr h4), if_neg hr, if_pos hb]⟩
  · exact ⟨_, by rw [busRead, if_neg (not_not.mpr h4), if_neg hr, if_neg hb]⟩

/-- Settles O13: the six registers of R65 read alike in every phase, and no read has an effect. -/
theorem busyReadsGiveSixRegistersOnly : Obligations.BusyReadsGiveSixRegistersOnly := by
  intro s n hp
  exact ⟨busRead_id s, busRead_version s, busRead_param s, busRead_cmd s, busRead_status s, busRead_ctrl s,
    fun a h4 hr => ⟨busRead_mapped h4 hr s, fun extra _ => transactState_read rfl extra s⟩⟩

/-! ## Register writes while IDLE -/

/-- Settles O27: the target that each address names, and what a write stores there (R71). -/
theorem idleRegisterWritesStoreTheirBits : Obligations.IdleRegisterWritesStoreTheirBits := by
  intro s v extra hp
  have write {a : Addr} (h4 : a.toNat % 4 = 0) := transactState_write_idle hp h4 v extra
  refine ⟨write (by decide), ?_, fun i => ?_, fun j => ?_, fun a ha => ?_⟩
  · rw [write (by decide), ← BitVec.setWidth_eq_extractLsb' (by decide)]
    rfl
  · rw [write (mdim_aligned i), targetOf_mdim, ← BitVec.setWidth_eq_extractLsb' (by decide)]
    rfl
  · rw [write (vlen_aligned j), targetOf_vlen, ← BitVec.setWidth_eq_extractLsb' (by decide)]
    rfl
  · simp only [List.mem_cons, List.not_mem_nil, or_false] at ha
    rw [write (by omega)]
    rcases ha with ha | ha | ha | ha | ha | ha | ha <;> rw [ha] <;> rfl

/-! ## Storage: where it is, and its words -/

/-- A slot byte of a matrix register (R72, R73). -/
theorem hasStorage_matAddr (p : Params) (i : Fin 4) {r c k : Nat} (hr : r < 8) (hc : c < 8) (hk : k < 8) :
    hasStorage p (matAddr i r c + k) = decide (r < p.nMax ∧ c < p.nMax) := by
  have hi := i.isLt
  generalize ha : matAddr i r c + k = a
  unfold matAddr matBase at ha
  have e1 : ¬ (0x100 ≤ a ∧ a < 0x180) := by omega
  have e2 : ¬ (0x400 ≤ a ∧ a < 0x500) := by omega
  have e3 : ¬ (0x600 ≤ a ∧ a < 0x800) := by omega
  have e4 : 0x800 ≤ a ∧ a < 0x1000 := by omega
  have hrow : a % 0x200 / 64 = r := by omega
  have hcol : a % 64 / 8 = c := by omega
  rw [hasStorage, if_neg e1, if_neg e2, if_neg e3, if_pos e4, hrow, hcol, Bool.decide_and]

/-- A slot byte of a vector register (R72, R73). -/
theorem hasStorage_vecAddr (p : Params) (j : Fin 2) {e k : Nat} (he : e < 8) (hk : k < 8) :
    hasStorage p (vecAddr j e + k) = decide (e < p.nMax) := by
  have hj := j.isLt
  generalize ha : vecAddr j e + k = a
  unfold vecAddr vecBase at ha
  have e1 : 0x100 ≤ a ∧ a < 0x180 := by omega
  have hslot : a % 0x40 / 8 = e := by omega
  rw [hasStorage, if_pos e1, hslot]

theorem hasStorage_inBuf (p : Params) {x : Nat} (hx : x < 256) : hasStorage p (0x400 + x) = decide (x < p.textMax) := by
  rw [hasStorage, if_neg (by omega), if_pos (by omega), inBase, Nat.add_sub_cancel_left]

theorem hasStorage_outBuf (p : Params) {x : Nat} (hx : x < 512) : hasStorage p (0x600 + x) = decide (x < p.outCap) := by
  rw [hasStorage, if_neg (by omega), if_neg (by omega), if_pos (by omega), outBase, Nat.add_sub_cancel_left]

/-- Settles O30, window by window. -/
theorem storageExistsBelowTheCapacities : Obligations.StorageExistsBelowTheCapacities := fun p =>
  ⟨fun i _ _ _ hr hc hk => hasStorage_matAddr p i hr hc hk, fun j _ _ he hk => hasStorage_vecAddr p j he hk,
    fun _ hx => hasStorage_inBuf p hx, fun _ hx => hasStorage_outBuf p hx⟩

/-- Settles O28: a storage write is `storeWord` (R67, R73), and a write of OUT_BUF has no effect (R30). -/
theorem idleStorageWritesStoreFourBytes : Obligations.IdleStorageWritesStoreFourBytes := by
  intro s a v extra hp h4
  refine ⟨fun h => ?_, fun h => ?_⟩
  · rw [transactState_storage hp h4 h]
    exact ⟨_, rfl, State.byte_storeWord s a.toNat v⟩
  · rw [transactState_write_idle hp h4, targetOf_outWord (by omega), State.writeTarget]

/-! ## Elements as two words (R68, R72) -/

/-- A word address in the vector or the matrix window. -/
structure ElementWord (y : Nat) : Prop where
  aligned : y % 4 = 0
  window : (0x100 ≤ y ∧ y < 0x180) ∨ (0x800 ≤ y ∧ y < 0x1000)

theorem ElementWord.toNat_ofNat {y : Nat} (hy : ElementWord y) : (BitVec.ofNat 12 y).toNat = y := by
  have := hy.window
  rw [BitVec.toNat_ofNat]
  omega

theorem ElementWord.write {y : Nat} (hy : ElementWord y) {s : State} (hp : s.phase = .idle) (v : Word) (extra : Nat) :
    transactState { we := true, addr := BitVec.ofNat 12 y, wdata := v } extra s = s.storeWord y v := by
  have := hy.window
  rw [transactState_storage hp, hy.toNat_ofNat]
  · rw [hy.toNat_ofNat]; exact hy.aligned
  · rw [hy.toNat_ofNat]; omega

theorem ElementWord.read {y : Nat} (hy : ElementWord y) {s : State} (hp : s.phase = .idle) :
    busRead (BitVec.ofNat 12 y) s = { rdata := some (s.busWord y), berr := false } := by
  have := hy.window
  rw [busRead_storage hp, hy.toNat_ofNat]
  · rw [hy.toNat_ofNat]; exact hy.aligned
  · rw [hy.toNat_ofNat]; omega

/-- An element slot that has storage: its two words and its eight bytes. -/
structure ElementSlot (p : Params) (x : Nat) : Prop where
  low : ElementWord x
  high : ElementWord (x + 4)
  storage : ∀ k < 8, hasStorage p (x + k) = true

theorem elementSlot_matAddr {p : Params} (i : Fin 4) {r c : Nat} (hr : r < p.nMax) (hc : c < p.nMax) :
    ElementSlot p (matAddr i r c) := by
  have := i.isLt
  have := nMax_le p
  refine ⟨⟨?_, ?_⟩, ⟨?_, ?_⟩, fun _ hk => hasStorage_matBytes (matAddr_mem hr hc hk)⟩ <;> unfold matAddr matBase <;> omega

theorem elementSlot_vecAddr {p : Params} (j : Fin 2) {k : Nat} (hk : k < p.nMax) : ElementSlot p (vecAddr j k) := by
  have := j.isLt
  have := nMax_le p
  refine ⟨⟨?_, ?_⟩, ⟨?_, ?_⟩, fun _ hb => hasStorage_vecBytes (vecAddr_mem hk hb)⟩ <;> unfold vecAddr vecBase <;> omega

section

variable {s : State} {x : Nat} (hx : ElementSlot s.params x)
include hx

theorem ElementSlot.storage_high {k : Nat} (hk : k < 4) : hasStorage s.params (x + 4 + k) = true := by
  rw [Nat.add_assoc]
  exact hx.storage (4 + k) (by omega)

/-- The words stored in either order are the element. -/
theorem ElementSlot.elem_store_low_high (lo hi : Word) : ((s.storeWord x lo).storeWord (x + 4) hi).elem x = hi ++ lo := by
  refine State.elem_of_words (fun k hk => ?_) fun k hk => ?_
  · rw [State.byte_storeWord, if_neg (by omega), State.byte_storeWord,
      if_pos ⟨by omega, hx.storage k (by omega)⟩, Nat.add_sub_cancel_left]
  · rw [State.byte_storeWord, if_pos ⟨by omega, hx.storage_high hk⟩, Nat.add_sub_cancel_left]

theorem ElementSlot.elem_store_high_low (lo hi : Word) : ((s.storeWord (x + 4) hi).storeWord x lo).elem x = hi ++ lo := by
  refine State.elem_of_words (fun k hk => ?_) fun k hk => ?_
  · rw [State.byte_storeWord, if_pos ⟨by omega, hx.storage k (by omega)⟩, Nat.add_sub_cancel_left]
  · rw [State.byte_storeWord, if_neg (by omega), State.byte_storeWord,
      if_pos ⟨by omega, hx.storage_high hk⟩, Nat.add_sub_cancel_left]

/-- The element is its two bus words. -/
theorem ElementSlot.elem_busWord : s.elem x = s.busWord (x + 4) ++ s.busWord x := by
  refine State.elem_of_words (fun k hk => ?_) fun k hk => ?_
  · rw [State.busWord, extractLsb'_leNat _ hk, State.busByte, if_pos (hx.storage k (by omega))]
  · rw [State.busWord, extractLsb'_leNat _ hk, State.busByte, if_pos (hx.storage_high hk)]

variable (hp : s.phase = .idle)
include hp

/-- The two words of a slot written on the bus, in either order, make its element. -/
theorem ElementSlot.write_words (lo hi : Word) (e1 e2 : Nat) :
    (transactState { we := true, addr := BitVec.ofNat 12 (x + 4), wdata := hi } e2
      (transactState { we := true, addr := BitVec.ofNat 12 x, wdata := lo } e1 s)).elem x = hi ++ lo ∧
    (transactState { we := true, addr := BitVec.ofNat 12 x, wdata := lo } e2
      (transactState { we := true, addr := BitVec.ofNat 12 (x + 4), wdata := hi } e1 s)).elem x = hi ++ lo := by
  rw [hx.low.write hp, hx.high.write hp, hx.high.write (s := s.storeWord x lo) hp,
    hx.low.write (s := s.storeWord (x + 4) hi) hp]
  exact ⟨hx.elem_store_low_high lo hi, hx.elem_store_high_low lo hi⟩

/-- The two words of a slot read on the bus are the halves of its element. -/
theorem ElementSlot.read_words : ∃ l h : Word,
    busRead (BitVec.ofNat 12 x) s = { rdata := some l, berr := false } ∧
    busRead (BitVec.ofNat 12 (x + 4)) s = { rdata := some h, berr := false } ∧ (s.elem x).toInt = (h ++ l).toInt :=
  ⟨_, _, hx.low.read hp, hx.high.read hp, congrArg BitVec.toInt hx.elem_busWord⟩

end

/-- RES is its two words, the high one first (R68). -/
theorem append_halves (v : Elem) : v.extractLsb' 32 32 ++ v.extractLsb' 0 32 = v :=
  (BitVec.extractLsb'_append_extractLsb'_eq_extractLsb' rfl).trans BitVec.extractLsb'_eq_self

/-- Settles O29: every slot with storage is an `ElementSlot`, and RES is its two halves. -/
theorem elementIsItsTwoWords : Obligations.ElementIsItsTwoWords := by
  intro s lo hi e1 e2 hp
  refine ⟨fun i r c hr hc => ?_, fun j k hk => ?_, fun i r c hr hc => ?_, fun j k hk => ?_, ?_⟩
  · rw [State.mat_e, State.mat_e]
    exact ((elementSlot_matAddr i hr hc).write_words hp lo hi e1 e2).imp (congrArg BitVec.toInt) (congrArg BitVec.toInt)
  · rw [State.vec_e, State.vec_e]
    exact ((elementSlot_vecAddr j hk).write_words hp lo hi e1 e2).imp (congrArg BitVec.toInt) (congrArg BitVec.toInt)
  · rw [State.mat_e]
    exact (elementSlot_matAddr i hr hc).read_words hp
  · rw [State.vec_e]
    exact (elementSlot_vecAddr j hk).read_words hp
  · exact ⟨_, _, busRead_idle hp (by decide) (by decide), busRead_idle hp (by decide) (by decide), (append_halves s.res).symm⟩

end Sys2Proof.Machine
end

section
/-! SUPPORT. What one cycle does to a request and to the command in flight (spec/20_memory.md R61, R62, R74; spec/10_state.md
R33, R38; spec/70_reset_and_hazards.md R216). -/

namespace Sys2Proof.Machine

/-! ## The engine side, by the phase the cycle began in -/

theorem engineCycle_idle {before : Phase} {s : State} (h : before = .idle ∨ s.phase = .idle) :
    engineCycle before s = .next s := by
  rcases h with rfl | h
  · simp [engineCycle]
  · cases before <;> simp [engineCycle, h]

theorem engineCycle_wait {n : Nat} {s : State} (h : s.phase ≠ .idle) :
    engineCycle (.busy (n + 2)) s = .next (s.wait (n + 1)) := by
  rcases engineCycle_cases (.busy (n + 2)) s with ⟨-, hp | hp⟩ | ⟨_, _, hn, -, -, he⟩ | ⟨_, _, hn, -, hle, -⟩
  · cases hp
  · exact absurd hp h
  · cases hn; exact he
  · cases hn; omega

theorem engineCycle_complete {n : Nat} (hn : n ≤ 1) {s : State} (h : s.phase ≠ .idle) :
    engineCycle (.busy n) s = completeCurrent s := by
  rcases engineCycle_cases (.busy n) s with ⟨-, hp | hp⟩ | ⟨_, _, hb, -, hlt, -⟩ | ⟨_, _, -, -, -, he⟩
  · cases hp
  · exact absurd hp h
  · cases hb; omega
  · exact he

theorem completeCurrent_of_ok {s : State} {i : Instr} (h : decode s.cur = .ok i) : completeCurrent s = exec i s := by
  simp [completeCurrent, h]

theorem completeCurrent_of_error {s : State} {e : Illegal} (h : decode s.cur = .error e) :
    completeCurrent s = .next (failed .illegalCommand s) := by
  simp [completeCurrent, h]

/-! ## How every completion ends (R176) -/

/-- What a completion makes of STATUS, the phase and the bus interface, whatever the command and its outcome. -/
structure Completed (s t : State) : Prop where
  idle : t.phase = .idle
  done : t.done = true
  errSet : t.ecode ≠ none → t.err = true
  errKept : t.ecode = none → t.err = s.err
  bv : t.bv = s.bv
  ie : t.ie = s.ie
  held : t.held = s.held
  bus : t.bus = s.bus

theorem completed_failed (e : CmdError) (s : State) : Completed s (failed e s) :=
  ⟨rfl, rfl, fun _ => rfl, nofun, rfl, rfl, rfl, rfl⟩

/-- A commit leaves ERR and BV alone. -/
theorem Commit.err_bv {i : Instr} {s u : State} (h : Commit i s u) : u.err = s.err ∧ u.bv = s.bv := by
  cases i with
  | nop => cases h; exact ⟨rfl, rfl⟩
  | c2n | n2c | det _ | modinv => obtain ⟨_, rfl⟩ := h; exact ⟨rfl, rfl⟩
  | add _ _ _ | mulm _ _ _ | minor _ _ _ _ | adj _ _ | trn _ _ => obtain ⟨_, rfl⟩ := h; exact ⟨rfl, rfl⟩
  | split _ | enct _ | dect _ => obtain ⟨_, -, rfl⟩ := h; exact ⟨rfl, rfl⟩
  | mulv _ _ _ | encb _ _ _ | decb _ _ _ => obtain ⟨_, _, -, rfl⟩ := h; exact ⟨rfl, rfl⟩
  | inv _ _ => obtain ⟨_, _, rfl⟩ := h; simp
  | minvm _ _ => obtain ⟨_, _, _, rfl⟩ := h; simp

theorem Commit.completed {i : Instr} {s u : State} (h : Commit i s u) : Completed s (u.complete none) where
  idle := rfl
  done := rfl
  errSet := fun hc => absurd rfl hc
  errKept := fun _ => by simp [h.err_bv.1]
  bv := h.err_bv.2
  ie := h.hostSide.ie
  held := h.hostSide.held
  bus := h.hostSide.bus

theorem completeCurrent_completed (s : State) : ∃ t, completeCurrent s = .next t ∧ Completed s t := by
  rcases completeCurrent_cases s with ⟨i, -, h⟩ | ⟨_, -, h⟩
  · rcases exec_cases i s with ⟨e, he⟩ | ⟨u, hu, hc⟩
    · exact ⟨_, h.trans he, completed_failed e s⟩
    · exact ⟨_, h.trans hu, hc.completed⟩
  · exact ⟨_, h, completed_failed _ s⟩

/-! ## A transaction in the cycle of a completion (R62) -/

/-- A write of CTRL with SRST = 1 (R201). -/
def Request.isSoftReset (r : Request) : Prop := r.we = true ∧ r.addr = 0x018 ∧ r.wdata.getLsbD 1 = true

/-- While BUSY every transaction but a soft reset leaves the command in flight (R64). -/
theorem transactState_keeps_command {s : State} {n : Nat} (hp : s.phase = .busy n) {r : Request} (hr : ¬ r.isSoftReset)
    (extra : Nat) : (transactState r extra s).phase = s.phase ∧ (transactState r extra s).cur = s.cur := by
  rcases transactState_cases r extra s with h | ⟨-, h⟩ | ⟨hwe, h4, hw, h⟩ <;> rw [h]
  · exact ⟨rfl, rfl⟩
  · exact ⟨rfl, rfl⟩
  · have hbusy : (targetOf r.addr.toNat).writableBusy = true := hw (by rw [hp]; rfl)
    cases ht : targetOf r.addr.toNat with
    | status => exact ⟨rfl, rfl⟩
    | ctrl =>
      have hsrst : r.wdata.getLsbD 1 = false := Bool.eq_false_iff.mpr fun hs =>
        hr ⟨hwe, BitVec.eq_of_toNat_eq (eq_of_targetOf_ctrl h4 r.addr.isLt ht), hs⟩
      rw [State.writeTarget, writeCtrl_eq_setIe hsrst]
      exact ⟨rfl, rfl⟩
    | _ => simp [ht, Target.writableBusy] at hbusy

/-- The bus side of an ack (R61). -/
theorem busCycle_ack {c : Cycle} {s : State} {h : Held} (hh : s.held = some h) (hn : h.remaining ≤ 1)
    (hq : c.req = some h.request) : busCycle c s = .ok (s.acknowledge h.request h.extraLatency) := by
  simp [busCycle, hh, hq, hn]

/-- An ack in the last cycle of a command, but that of a soft reset, has the completion after it. -/
theorem step_ack_completes {s : State} {h : Held} (hp : s.phase = .busy 1) (hr : s.nextCycle.rstN = true)
    (hh : s.held = some h) (hn : h.remaining ≤ 1) (hq : s.nextCycle.req = some h.request) (hsoft : ¬ h.request.isSoftReset) :
    step s = completeCurrent (s.begin.acknowledge h.request h.extraLatency) := by
  have hphase := (transactState_keeps_command (s := s.begin) hp hsoft h.extraLatency).1
  rw [step_of_busCycle hr (busCycle_ack (s := s.begin) hh hn hq), hp]
  refine engineCycle_complete (Nat.le_refl 1) ?_
  rw [State.acknowledge_phase, hphase, State.begin_phase, hp]
  nofun

/-- Settles O25. The bus side acknowledges and keeps the command, so the engine side is its completion, from the state the
transaction left. -/
theorem transactionComesBeforeCompletion : Obligations.TransactionComesBeforeCompletion := by
  intro s b u c rest h hp hpend hrst hh hn hq hsoft hb hu
  obtain rfl : b = s.begin := by rw [hb, State.begin, hpend, List.tail_cons]
  subst hu
  have hc := State.nextCycle_cons hpend
  have hstep := step_ack_completes hp (hc ▸ hrst) hh hn (hc ▸ hq) hsoft
  have hcur : (s.begin.acknowledge h.request h.extraLatency).cur = s.cur :=
    (transactState_keeps_command (s := s.begin) hp hsoft h.extraLatency).2
  obtain ⟨t, ht, hcomp⟩ := completeCurrent_completed (s.begin.acknowledge h.request h.extraLatency)
  refine ⟨fun i hi => hstep.trans (completeCurrent_of_ok (hcur ▸ hi)),
    fun e he => hstep.trans (completeCurrent_of_error (hcur ▸ he)),
    t, hstep.trans ht, hcomp.idle, hcomp.done, hcomp.errSet, hcomp.errKept, hcomp.bv, hcomp.ie, hcomp.held, hcomp.bus,
    fun hwe haddr => ⟨?_, ?_⟩⟩
  · rw [hcomp.bus, State.acknowledge_bus, transactResponse, hwe, haddr]
    exact congrArg some (busRead_status s.begin)
  · rw [State.statusWord_getLsbD s (by decide), hp]
    rfl

/-! ## A cycle with rst_n = 1 (R38, R61) -/

theorem busCycle_quiet {c : Cycle} {s : State} (hh : s.held = none) (hq : c.req = none) : busCycle c s = .ok s := by
  simp [busCycle, hh, hq]

theorem busCycle_raise {c : Cycle} {s : State} {r : Request} (hh : s.held = none) (hq : c.req = some r) :
    busCycle c s = .ok (s.hold (c.raise r)) := by
  simp [busCycle, hh, hq]

theorem busCycle_wait {c : Cycle} {s : State} {r : Request} {n x : Nat} (hh : s.held = some ⟨r, n + 2, x⟩)
    (hq : c.req = some r) : busCycle c s = .ok (s.hold ⟨r, n + 1, x⟩) := by
  simp [busCycle, hh, hq, Held.wait]

/-- A request held on to: rst_n is high and it is driven in each of the next `n` cycles of the inputs, as far as they go. -/
def State.drives (s : State) (r : Request) (n : Nat) : Prop := ∀ c ∈ s.pending.take n, c.rstN = true ∧ c.req = some r

/-- The next cycle drives a request that is held on to, from the inputs or where they have run out. -/
theorem State.drives.nextCycle {s : State} {h : Held} {n : Nat} (hd : s.drives h.request (n + 1)) (hh : s.held = some h) :
    s.nextCycle.rstN = true ∧ s.nextCycle.req = some h.request := by
  cases hp : s.pending with
  | nil => simp [State.nextCycle_nil hp, hh]
  | cons c rest =>
    rw [State.nextCycle_cons hp]
    exact hd c (by simp [hp])

theorem State.drives.tail {s t : State} {r : Request} {n : Nat} (hd : s.drives r (n + 1)) (ht : t.pending = s.pending.tail) :
    t.drives r n := by
  intro c hc
  rw [ht] at hc
  cases hp : s.pending with
  | nil => simp [hp] at hc
  | cons d rest =>
    refine hd c ?_
    simp only [hp, List.tail_cons] at hc
    simp [hp, hc]

/-- One cycle of the wait: the count goes down, there is no ack, and the inputs move on. -/
theorem step_held_wait {s : State} {r : Request} {n x : Nat} (hh : s.held = some ⟨r, n + 2, x⟩) (hd : s.drives r (n + 2)) :
    ∃ t, step s = .next t ∧ t.held = some ⟨r, n + 1, x⟩ ∧ t.bus = none ∧ t.drives r (n + 1) := by
  obtain ⟨hr, hq⟩ := hd.nextCycle hh
  obtain ⟨t, ht, hheld, hbus, hpend⟩ := step_next_of_busCycle hr (busCycle_wait (s := s.begin) hh hq)
  exact ⟨t, ht, hheld, hbus, hd.tail hpend⟩

/-- The last cycle of the wait is the ack. -/
theorem step_held_ack {s : State} {r : Request} {x : Nat} (hh : s.held = some ⟨r, 1, x⟩) (hd : s.drives r 1) :
    ∃ t, step s = .next t ∧ t.held = none ∧ t.bus ≠ none := by
  obtain ⟨hr, hq⟩ := hd.nextCycle hh
  obtain ⟨t, ht, hheld, hbus, -⟩ := step_next_of_busCycle hr (busCycle_ack (s := s.begin) hh (Nat.le_refl 1) hq)
  exact ⟨t, ht, hheld, by rw [hbus]; nofun⟩

theorem run_succ {s t : State} (h : step s = .next t) (k : Nat) :
    Host.Core.run Sys2Proof.core (k + 1) s = Host.Core.run Sys2Proof.core k t := by
  have hcore : Sys2Proof.core.step s = .next t := h
  simp only [Host.Core.run, hcore]

/-- A request held unchanged is acknowledged after exactly the cycles it has left, by induction on them (R61, R216). -/
theorem run_held {r : Request} {n x : Nat} : ∀ {s : State}, s.held = some ⟨r, n + 1, x⟩ → s.drives r (n + 1) →
    (∀ k, 1 ≤ k → k ≤ n →
      ∃ t, Host.Core.run Sys2Proof.core k s = .next t ∧ t.held = some ⟨r, n + 1 - k, x⟩ ∧ t.bus = none) ∧
    ∃ t, Host.Core.run Sys2Proof.core (n + 1) s = .next t ∧ t.held = none ∧ t.bus ≠ none := by
  induction n with
  | zero =>
    intro s hh hd
    obtain ⟨t, ht, hack⟩ := step_held_ack hh hd
    exact ⟨fun k h1 h0 => by omega, t, run_succ ht 0, hack⟩
  | succ n ih =>
    intro s hh hd
    obtain ⟨u, hu, hheld, hbus, hdu⟩ := step_held_wait hh hd
    obtain ⟨hwait, t, ht, hack⟩ := ih hheld hdu
    refine ⟨fun k h1 hk => ?_, t, (run_succ hu _).trans ht, hack⟩
    match k with
    | 1 => exact ⟨u, run_succ hu 0, hheld, hbus⟩
    | k + 2 =>
      obtain ⟨v, hv, hvh, hvb⟩ := hwait (k + 1) (by omega) (by omega)
      exact ⟨v, (run_succ hu _).trans hv, by rw [hvh, show n + 1 + 1 - (k + 2) = n + 1 - (k + 1) by omega], hvb⟩

/-- The begin of a cycle changes nothing that an address holds. -/
theorem readTarget_begin (s : State) (t : Target) (a : Nat) : s.begin.readTarget t a = s.readTarget t a := by
  cases t <;> rfl

theorem busRead_begin {s : State} (hp : s.phase = .idle) (a : Addr) : busRead a s.begin = busRead a s := by
  simp only [busRead, State.begin_phase, readTarget_begin, hp, Phase.isBusy, Bool.false_and, Bool.false_eq_true, if_false]

/-- An acknowledged read while IDLE changes the bus interface only (R74). -/
theorem step_read_idle {s : State} {h : Held} (hp : s.phase = .idle) (hr : s.nextCycle.rstN = true) (hh : s.held = some h)
    (hn : h.remaining ≤ 1) (hq : s.nextCycle.req = some h.request) (hwe : h.request.we = false) :
    step s = .next { s with
      held := none, bus := some (busRead h.request.addr s), pending := s.pending.tail, now := s.now + 1 } := by
  rw [step_of_busCycle hr (busCycle_ack (s := s.begin) hh hn hq), engineCycle_idle (.inl hp), State.acknowledge,
    transactState_read hwe, transactResponse, hwe, if_neg Bool.false_ne_true, busRead_begin hp]
  rfl

/-- Settles O26: the bus side of the cycle is `u` in each of its four cases, the engine side follows from the phase, and the
countdown of a held request is `run_held`. -/
theorem acknowledgedReadChangesNoState : Obligations.AcknowledgedReadChangesNoState := by
  refine ⟨fun s b u hr hb hu => ?_,
    fun s c rest => ⟨State.nextCycle_cons, fun h => by rw [State.nextCycle_nil h]; exact ⟨rfl, rfl⟩⟩,
    fun _ _ => step_read_idle, fun _ _ _ _ => run_held⟩
  have hbus : busCycle s.nextCycle s.begin = .ok u := by
    change b = s.begin at hb
    subst hb
    rcases hu with ⟨hh, hq, rfl⟩ | ⟨r, hh, hq, rfl⟩ | ⟨r, n, x, hh, hq, rfl⟩ | ⟨r, n, x, hh, hn, hq, rfl⟩
    · exact busCycle_quiet hh hq
    · exact busCycle_raise hh hq
    · exact busCycle_wait hh hq
    · exact busCycle_ack (s := s.begin) hh hn hq
  rw [step_of_busCycle hr hbus]
  refine ⟨engineCycle_idle, fun n hp hu => ?_, fun n hp hn hu => ?_⟩
  · rw [hp, engineCycle_wait hu, State.wait]
  · rw [hp, engineCycle_complete hn hu]
    exact ⟨fun _ => completeCurrent_of_ok, fun _ => completeCurrent_of_error⟩

end Sys2Proof.Machine
end

section
/-! SUPPORT. The encoding (spec/30_encoding.md R90-R104): every command is built from its opcode and fields that are 0 where R95
marks "0", and a row of the opcode table is a row of R95 as a mask and a match. -/

namespace Sys2Proof

/-! ## The checks of R97 on a word given by its fields -/

theorem eq_formatF_iff {w : Word} {opc : BitVec 8} {rd ra rb : Selector} {i j : Imm} : w = formatF opc rd ra rb i j ↔
    fieldReservedLow w = 0 ∧ fieldReservedHigh w = 0 ∧ fieldOPC w = opc ∧ fieldRD w = rd ∧ fieldRA w = ra ∧
      fieldRB w = rb ∧ fieldI w = i ∧ fieldJ w = j := by
  constructor
  · rintro rfl; simp
  · rintro ⟨hl, hh, rfl, rfl, rfl, rfl, rfl, rfl⟩; exact word_eq_formatF hl hh

theorem unusedFieldsZero_formatF (o : Opcode) (opc : BitVec 8) (rd ra rb : Selector) (i j : Imm) :
    unusedFieldsZero o (formatF opc rd ra rb i j) =
      (o.uses.rd.zeroOk rd && o.uses.ra.zeroOk ra && o.uses.rb.zeroOk rb && o.uses.i.zeroOk i && o.uses.j.zeroOk j) := by
  simp [unusedFieldsZero]

/-- The vector selectors of a command are the fields that R95 marks "V". -/
theorem wellFormed_build (o : Opcode) (opc : BitVec 8) (rd ra rb : Selector) (i j : Imm) :
    (o.build rd ra rb i j).wellFormed = vectorFieldsOk o (formatF opc rd ra rb i j) := by
  cases o <;> simp [vectorFieldsOk, Opcode.uses, Use.vectorOk, Opcode.build, Instr.wellFormed]

/-- A field that `build` drops is one that R95 marks "0", so the encoder's 0 is what the word held. -/
theorem encode_build {o : Opcode} {rd ra rb : Selector} {i j : Imm}
    (h : unusedFieldsZero o (formatF o.code rd ra rb i j) = true) :
    encode (o.build rd ra rb i j) = formatF o.code rd ra rb i j := by
  rw [unusedFieldsZero_formatF] at h
  cases o <;>
    simp only [Opcode.uses, Use.zeroOk, Bool.and_eq_true, Bool.and_true, Bool.true_and, beq_iff_eq] at h <;>
    simp only [h] <;> rfl

/-- Every command is built from its opcode and fields that are 0 where R95 marks "0". -/
theorem Instr.exists_build (ins : Instr) : ∃ o rd ra rb i j,
    unusedFieldsZero o (formatF o.code rd ra rb i j) = true ∧ o.build rd ra rb i j = ins := by
  simp only [unusedFieldsZero_formatF]
  cases ins with
  | nop => exact ⟨.nop, 0, 0, 0, 0, 0, rfl, rfl⟩
  | c2n => exact ⟨.c2n, 0, 0, 0, 0, 0, rfl, rfl⟩
  | n2c => exact ⟨.n2c, 0, 0, 0, 0, 0, rfl, rfl⟩
  | split k => exact ⟨.split, 0, 0, 0, k, 0, rfl, rfl⟩
  | add rd ra rb => exact ⟨.add, rd, ra, rb, 0, 0, rfl, rfl⟩
  | mulm rd ra rb => exact ⟨.mulm, rd, ra, rb, 0, 0, rfl, rfl⟩
  | mulv rd ra rb => exact ⟨.mulv, rd, ra, rb, 0, 0, rfl, rfl⟩
  | det ra => exact ⟨.det, 0, ra, 0, 0, 0, rfl, rfl⟩
  | minor rd ra i j => exact ⟨.minor, rd, ra, 0, i, j, rfl, rfl⟩
  | adj rd ra => exact ⟨.adj, rd, ra, 0, 0, 0, rfl, rfl⟩
  | trn rd ra => exact ⟨.trn, rd, ra, 0, 0, 0, rfl, rfl⟩
  | inv rd ra => exact ⟨.inv, rd, ra, 0, 0, 0, rfl, rfl⟩
  | modinv => exact ⟨.modinv, 0, 0, 0, 0, 0, rfl, rfl⟩
  | minvm rd ra => exact ⟨.minvm, rd, ra, 0, 0, 0, rfl, rfl⟩
  | encb rd ra rb => exact ⟨.encb, rd, ra, rb, 0, 0, rfl, rfl⟩
  | decb rd ra rb => exact ⟨.decb, rd, ra, rb, 0, 0, rfl, rfl⟩
  | enct ra => exact ⟨.enct, 0, ra, 0, 0, 0, rfl, rfl⟩
  | dect ra => exact ⟨.dect, 0, ra, 0, 0, 0, rfl, rfl⟩

/-! ## Decode and encode -/

/-- Of the checks of R97, the word of a command can fail the last one only. -/
theorem decode_encode (ins : Instr) :
    decode (encode ins) = if ins.wellFormed then .ok ins else .error .vectorSelector := by
  obtain ⟨o, rd, ra, rb, i, j, hz, rfl⟩ := ins.exists_build
  rw [encode_build hz, wellFormed_build o o.code]
  cases hv : vectorFieldsOk o (formatF o.code rd ra rb i j) <;> simp [decode, hz, hv]

/-- Settles O1: the word of a well-formed command passes every check. -/
theorem decodeOfEncodeIsTheCommand : Obligations.DecodeOfEncodeIsTheCommand := by
  intro ins hwf
  rw [decode_encode, if_pos hwf]

/-- A vector selector above 1 is refused as that (R93). -/
theorem decode_encode_of_not_wellFormed {ins : Instr} (h : ins.wellFormed = false) :
    decode (encode ins) = .error .vectorSelector := by
  rw [decode_encode, h]
  rfl

/-- Settles O2: a decoded word is its fields, and the encoder puts each of them back. -/
theorem encodeOfDecodeIsTheWord : Obligations.EncodeOfDecodeIsTheWord := by
  intro w ins h
  obtain ⟨hl, hh, o, ho, hz, hv, rfl⟩ := decode_ok_iff.mp h
  have hw := word_eq_formatF hl hh
  rw [← code_of_opcodeOf ho] at hw
  rw [wellFormed_build _ o.code, encode_build (hw ▸ hz), ← hw]
  exact ⟨rfl, hv⟩

/-! ## The rows of the opcode table -/

/-- The bits of a selector field that a use fixes at 0. -/
def Use.selectorMask : Use → Selector
  | .zero => 0b11
  | .vector => 0b10
  | .matrix | .imm => 0

/-- The bits of an immediate field that a use fixes at 0. -/
def Use.immMask : Use → Imm
  | .zero => 0b1111
  | .matrix | .vector | .imm => 0

theorem and_selectorMask (u : Use) (f : Selector) : f &&& u.selectorMask = 0 ↔ u.zeroOk f = true ∧ u.vectorOk f = true := by
  revert f; cases u <;> decide

theorem and_immMask (u : Use) (f : Imm) : f &&& u.immMask = 0 ↔ u.zeroOk f = true := by
  revert f; cases u <;> decide

/-- The mask of the command's row: the opcode, the reserved bits, and the bits that its uses of the fields fix. -/
def Opcode.mask (o : Opcode) : Word :=
  0xFF#8 ++ o.uses.j.immMask ++ o.uses.i.immMask ++ 0b11#2 ++ o.uses.rb.selectorMask ++ o.uses.ra.selectorMask ++
    o.uses.rd.selectorMask ++ 0xFF#8

theorem fields_mask (o : Opcode) :
    fieldReservedLow o.mask = BitVec.allOnes 2 ∧ fieldReservedHigh o.mask = BitVec.allOnes 8 ∧
      fieldOPC o.mask = BitVec.allOnes 8 ∧ fieldRD o.mask = o.uses.rd.selectorMask ∧
      fieldRA o.mask = o.uses.ra.selectorMask ∧ fieldRB o.mask = o.uses.rb.selectorMask ∧
      fieldI o.mask = o.uses.i.immMask ∧ fieldJ o.mask = o.uses.j.immMask := by
  cases o <;> decide

/-- A word meets the row of an opcode exactly when it passes the checks of R97 for it, field by field. -/
theorem and_mask_eq_iff (o : Opcode) (w : Word) : w &&& o.mask = formatF o.code 0 0 0 0 0 ↔
    fieldReservedLow w = 0 ∧ fieldReservedHigh w = 0 ∧ fieldOPC w = o.code ∧ unusedFieldsZero o w = true ∧
      vectorFieldsOk o w = true := by
  have hmask := fields_mask o
  rw [eq_formatF_iff]
  simp only [unusedFieldsZero, vectorFieldsOk, Bool.and_eq_true, fieldReservedLow, fieldReservedHigh, fieldOPC, fieldRD,
    fieldRA, fieldRB, fieldI, fieldJ] at hmask ⊢
  simp only [BitVec.extractLsb'_and, hmask, BitVec.and_allOnes, and_selectorMask, and_immMask]
  tauto

theorem exists_decode_iff_row (w : Word) :
    (∃ ins, decode w = .ok ins) ↔ ∃ o : Opcode, w &&& o.mask = formatF o.code 0 0 0 0 0 := by
  simp only [decode_ok_iff, and_mask_eq_iff]
  constructor
  · rintro ⟨_, hl, hh, o, ho, hz, hv, -⟩
    exact ⟨o, hl, hh, (code_of_opcodeOf ho).symm, hz, hv⟩
  · rintro ⟨o, hl, hh, ho, hz, hv⟩
    exact ⟨_, hl, hh, o, ho ▸ opcodeOf_code o, hz, hv, rfl⟩

theorem Opcode.mem_all (o : Opcode) : o ∈ Opcode.all := by cases o <;> decide

theorem Opcode.exists_iff {p : Opcode → Prop} : (∃ o, p o) ↔ ∃ o ∈ Opcode.all, p o := by simp [Opcode.mem_all]

/-- Settles O3: the table's eighteen rows are the masks and codes of the opcodes, in the order of `Opcode.all`. -/
theorem legalWordsAreTheTablesRows : Obligations.LegalWordsAreTheTablesRows := by
  intro w
  rw [exists_decode_iff_row, Opcode.exists_iff]
  simp only [Opcode.all, List.exists_mem_cons_iff, List.not_mem_nil, false_and, exists_false, or_false]
  exact Iff.rfl

/-! ## The worked words -/

/-- Settles O4: the worked words are those of well-formed commands, and each illegal example fails the named check. -/
theorem workedEncodingsDecode : Obligations.WorkedEncodingsDecode := by
  unfold Obligations.WorkedEncodingsDecode
  decide

end Sys2Proof

namespace Sys2Proof.Machine

/-! ## What is illegal completes with IllegalCommand (R93, R99) -/

/-- Settles O7: the phase a CMD write leaves does not depend on its word, and in a quiet cycle the completion is all there is. -/
theorem illegalWordCompletesWithCodeSeven : Obligations.IllegalWordCompletesWithCodeSeven := by
  intro s w reason h
  refine ⟨fun extra hp => ?_, fun hc hp hr hq hh => ⟨?_, rfl⟩⟩
  · rw [transactState_cmd_idle hp, State.accept_phase]
  · have hbusy : s.begin.phase ≠ .idle := by rw [State.begin_phase, hp]; nofun
    rw [step_of_busCycle hr (busCycle_quiet (s := s.begin) hh hq), hp, engineCycle_complete (Nat.le_refl 1) hbusy]
    exact completeCurrent_of_error (hc ▸ h)

theorem isVector_eq_false_iff (f : Selector) : Selector.isVector f = false ↔ 2 ≤ f.toNat := by
  simp [Selector.isVector, Nat.lt_iff_add_one_le]

theorem vecSel_of_le {f : Selector} (h : f.toNat ≤ 1) : vecSel f = some ⟨f.toNat % 2, Nat.mod_lt _ (by decide)⟩ := by
  revert f; decide

theorem vecSel_eq_none_iff (f : Selector) : vecSel f = none ↔ Selector.isVector f = false := by revert f; decide

/-- A command with a vector selector above 1 fails whatever the state (R93). -/
theorem exec_of_not_wellFormed {i : Instr} (h : i.wellFormed = false) (s : State) :
    exec i s = .next (failed .illegalCommand s) := by
  cases i with
  | mulv rd ra rb | encb rd ra rb | decb rd ra rb =>
    rw [Instr.wellFormed, Bool.and_eq_false_iff, ← vecSel_eq_none_iff, ← vecSel_eq_none_iff] at h
    rcases h with h | h <;> simp [exec, execMulv, execEncb, execDecb, h]
  | _ => cases h

/-- Settles O39: selectors of 0 and 1 are those of a well-formed command, and one above 1 makes the command ill-formed. -/
theorem vectorSelectorAboveOneIsIllegal : Obligations.VectorSelectorAboveOneIsIllegal := by
  intro rd ra rb s
  constructor
  · rintro ⟨hd, hb⟩
    have hwf : (Selector.isVector rd && Selector.isVector rb) = true := by simp [Selector.isVector, hd, hb]
    exact ⟨vecSel_of_le hd, decodeOfEncodeIsTheCommand (.mulv rd ra rb) hwf, decodeOfEncodeIsTheCommand (.encb rd ra rb) hwf,
      decodeOfEncodeIsTheCommand (.decb rd ra rb) hwf⟩
  · intro h
    have hwf : (Selector.isVector rd && Selector.isVector rb) = false :=
      Bool.and_eq_false_iff.mpr (h.imp (isVector_eq_false_iff rd).mpr (isVector_eq_false_iff rb).mpr)
    have hmulv : (Instr.mulv rd ra rb).wellFormed = false := hwf
    have hencb : (Instr.encb rd ra rb).wellFormed = false := hwf
    have hdecb : (Instr.decb rd ra rb).wellFormed = false := hwf
    exact ⟨exec_of_not_wellFormed hmulv s, exec_of_not_wellFormed hencb s, exec_of_not_wellFormed hdecb s,
      decode_encode_of_not_wellFormed hmulv, decode_encode_of_not_wellFormed hencb, decode_encode_of_not_wellFormed hdecb⟩

end Sys2Proof.Machine
end

section
/-! SUPPORT. The control and codec commands and SPLIT, each said once by what `exec` answers, and the two codec functions by
their values (spec/40_control_codec.md R110-R118). -/

namespace Sys2Proof.Machine

/-! ## How every command ends (R119, R176) -/

theorem exec_completed (i : Instr) (s : State) : ∃ t, exec i s = .next t ∧ Completed s t := by
  rcases exec_cases i s with ⟨e, he⟩ | ⟨u, hu, hc⟩
  · exact ⟨_, he, completed_failed e s⟩
  · exact ⟨_, hu, hc.completed⟩

/-- ERR is sticky (R178). -/
theorem Completed.err {s t : State} (h : Completed s t) : t.err = (s.err || decide (t.ecode ≠ none)) := by
  by_cases hc : t.ecode = none
  · simp [hc, h.errKept hc]
  · simp [hc, h.errSet hc]

/-- Settles O56: a failure and a commit are both completions (`exec_completed`). -/
theorem everyCommandCompletes : Obligations.EveryCommandCompletes := by
  intro i s
  obtain ⟨t, ht, hc⟩ := exec_completed i s
  exact ⟨t, ht, hc.idle, hc.done, hc.err, hc.bv⟩

/-! ## NOP (R110) -/

/-- Settles O32: NOP commits the state it finds. -/
theorem nopFollowsItsRule : Obligations.NopFollowsItsRule := by
  refine ⟨by decide, fun s => ⟨fun extra hp => ?_, s.complete none, rfl, ?_, ?_⟩⟩
  · rw [transactState_cmd_idle hp, State.accept_phase]
  · simp [State.complete]
  · rw [State.irq, State.complete_ie, State.complete_done, Bool.and_true]

/-! ## The codec of one character (R111, R112, R115)

Facts about every character are evaluated over the 256 bytes. -/

/-- The characters with a number: a letter of either case, or the sentinel (R111). -/
abbrev CodecByte (b : Byte) : Prop := (0x41 ≤ b ∧ b ≤ 0x5A) ∨ (0x61 ≤ b ∧ b ≤ 0x7A) ∨ b = 0x5F

/-- The number of such a character (R111). -/
def codecNumber (b : Byte) : Nat := if b = 0x5F then 26 else if b ≤ 0x5A then b.toNat - 0x41 else b.toNat - 0x61

theorem c2nf_eq (b : Byte) : c2nf b = if CodecByte b then some (codecNumber b) else none := by
  revert b; decide

theorem codecNumber_le {b : Byte} (h : CodecByte b) : codecNumber b ≤ 26 := by
  revert b; decide

theorem toNat_n2cf (x : Int) : ((n2cf x).toNat : Int) = if x = 26 then 0x5F else 0x41 + x % 26 := by
  unfold n2cf
  split
  · rfl
  · rw [BitVec.toNat_ofInt]; omega

theorem toNat_upper {b : Byte} (h : CodecByte b) : (upper b).toNat = if 0x61 ≤ b then b.toNat - 0x20 else b.toNat := by
  revert b; decide

/-- R115 (a). -/
theorem c2nf_n2cf {n : Nat} (h : n ≤ 26) : c2nf (n2cf n) = some n := by
  interval_cases n <;> decide

/-- R115 (b) and (c). -/
theorem n2cf_codecNumber {b : Byte} (h : CodecByte b) : n2cf (codecNumber b) = upper b := by
  revert b; decide

/-! ## What C2N and N2C answer (R113, R114) -/

theorem exec_c2n_of_some {s : State} {n : Nat} (h : c2nf (byteOf s.sarg 0) = some n) :
    exec .c2n s = .next ((s.setRes (BitVec.ofNat 64 n)).complete none) := by
  simp [exec, execC2n, c2nResult, h, Except.map]

theorem exec_c2n_of_none {s : State} (h : c2nf (byteOf s.sarg 0) = none) :
    exec .c2n s = .next (failed .invalidCharacter s) := by
  simp [exec, execC2n, c2nResult, h, Except.map]

theorem exec_n2c (s : State) : exec .n2c s = .next ((s.setRes ((n2cf s.sarg.toInt).setWidth 64)).complete none) := rfl

/-- Everything the commit of a scalar does but for its value (R176). -/
theorem commit_scalar (s : State) (v : Elem) :
    Succeeded s ((s.setRes v).complete none) ∧ ScalarFrame s ((s.setRes v).complete none) :=
  ⟨succeeded_complete rfl rfl, scalarFrame_setRes s v⟩

theorem toNat_ofNat_number {n : Nat} (h : n ≤ 26) : (BitVec.ofNat 64 n).toNat = n := by
  rw [BitVec.toNat_ofNat]; omega

/-- Settles O33, by the two cases of `c2nf_eq`. -/
theorem c2nFollowsItsRule : Obligations.C2nFollowsItsRule := by
  refine ⟨by decide, fun s b hb => ?_⟩
  subst hb
  have hc : c2nf (byteOf s.sarg 0) = _ := c2nf_eq _
  refine ⟨fun h => exec_c2n_of_none (hc.trans (if_neg h)), fun h => ?_⟩
  obtain ⟨hs, hf⟩ := commit_scalar s (BitVec.ofNat 64 (codecNumber (byteOf s.sarg 0)))
  exact ⟨_, exec_c2n_of_some (hc.trans (if_pos h)), hs, hf, toNat_ofNat_number (codecNumber_le h)⟩

/-- Settles O34: RES is the character, zero-extended. -/
theorem n2cFollowsItsRule : Obligations.N2cFollowsItsRule := by
  refine ⟨by decide, fun s => ?_⟩
  obtain ⟨hs, hf⟩ := commit_scalar s ((n2cf s.sarg.toInt).setWidth 64)
  refine ⟨_, exec_n2c s, hs, hf, ?_⟩
  rw [State.complete_res, State.setRes_res, BitVec.toNat_setWidth_of_le (by decide), toNat_n2cf]

/-! ## RES as the next SARG (R115) -/

theorem byteOf_setWidth {n : Nat} (h : 8 ≤ n) (b : Byte) : byteOf (b.setWidth n) 0 = b := by
  rw [byteOf, BitVec.extractLsb'_setWidth_of_le (by omega), ← BitVec.setWidth_eq_extractLsb' (Nat.le_refl 8),
    BitVec.setWidth_eq]

theorem low_word_byte (b : Byte) : (b.setWidth 64).extractLsb' 0 32 = b.setWidth 32 := by
  rw [← BitVec.setWidth_eq_extractLsb' (by decide), BitVec.setWidth_setWidth_of_le b (by decide)]

theorem low_word_ofNat (n : Nat) : (BitVec.ofNat 64 n).extractLsb' 0 32 = BitVec.ofNat 32 n := by
  rw [← BitVec.setWidth_eq_extractLsb' (by decide), BitVec.setWidth_ofNat_of_le (by decide)]

theorem toInt_ofNat_number {n : Nat} (h : n ≤ 26) : (BitVec.ofNat 32 n).toInt = n := by
  rw [BitVec.toInt_ofNat', Int.bmod_eq_of_le (by omega) (by omega)]

/-- Settles O35: the low word of RES hands the character or the number of the first command to the second. -/
theorem codecCommandsAreInverse : Obligations.CodecCommandsAreInverse := by
  refine ⟨fun s n hn => ?_, fun s b hb => ?_⟩
  · refine ⟨_, _, exec_n2c _, exec_c2n_of_some (n := n) ?_, rfl, toNat_ofNat_number hn⟩
    rw [State.setSarg_sarg, State.complete_res, State.setRes_res, low_word_byte, byteOf_setWidth (by decide),
      State.setSarg_sarg, toInt_ofNat_number hn, c2nf_n2cf hn]
  · have hc : c2nf (byteOf (b.setWidth 32) 0) = some (codecNumber b) := by
      rw [byteOf_setWidth (by decide), c2nf_eq, if_pos hb]
    refine ⟨_, _, exec_c2n_of_some hc, exec_n2c _, rfl, ?_⟩
    rw [State.complete_res, State.setRes_res, State.setSarg_sarg, State.complete_res, State.setRes_res, low_word_ofNat,
      toInt_ofNat_number (codecNumber_le hb), n2cf_codecNumber hb, BitVec.toNat_setWidth_of_le (by decide), toNat_upper hb]

/-! ## SPLIT (R116-R118) -/

theorem encode_split (k : Imm) : encode (.split k) = 0x00000003#32 ||| k.setWidth 32 <<< 16 := by
  rw [encode, formatF_eq_or]; simp

/-- The checks of R118, in its order. -/
theorem exec_split_of_bad_size {k : Imm} {s : State} (hk : ¬ (1 ≤ k.toNat ∧ k.toNat ≤ s.params.nMax)) :
    exec (.split k) s = .next (failed .shapeError s) := by
  have h : sizeOk s.params k.toNat = false := by rwa [Bool.eq_false_iff, ne_eq, sizeOk_iff]
  simp [exec, execSplit, splitResult, h, Except.map]

theorem exec_split_of_long_text {k : Imm} {s : State} (hk : 1 ≤ k.toNat ∧ k.toNat ≤ s.params.nMax)
    (hl : s.params.textMax < s.textLen.toNat) : exec (.split k) s = .next (failed .lengthError s) := by
  have h : s.textOk = false := by rw [Bool.eq_false_iff, ne_eq, State.textOk_iff]; omega
  simp [exec, execSplit, splitResult, sizeOk_iff.mpr hk, h, Except.map]

theorem exec_split_ok {k : Imm} {s : State} (hk : 1 ≤ k.toNat ∧ k.toNat ≤ s.params.nMax)
    (hl : s.textLen.toNat ≤ s.params.textMax) :
    exec (.split k) s = .next ((s.writeOut (splitPad s.text k.toNat)).complete none) := by
  simp [exec, execSplit, splitResult, sizeOk_iff.mpr hk, State.textOk_iff.mpr hl, Except.map]

theorem getD_splitPad_text (s : State) {k i : Nat} (hi : i < paddedLen s.textLen.toNat k) : (splitPad s.text k).getD i 0 =
    if i < s.textLen.toNat then (if s.inByte i = 0x20 then 0x5F else s.inByte i) else 0x5F := by
  rw [getD_splitPad s.text (by rwa [State.length_text]), State.length_text]
  split
  · next h => rw [State.getD_text s h]; rfl
  · rfl

/-- Settles O36: the padded length is P, and the bytes are those of the padded text. -/
theorem splitFollowsItsRule : Obligations.SplitFollowsItsRule := by
  intro k s
  refine ⟨encode_split k, exec_split_of_bad_size, exec_split_of_long_text, fun hk hl => ?_⟩
  obtain ⟨h1, hN⟩ := hk
  have hlen : (splitPad s.text k.toNat).length = paddedLen s.textLen.toNat k.toNat := by
    rw [length_splitPad _ h1, State.length_text]
  obtain ⟨hs, hf, ho⟩ := commit_text s hlen (paddedLen_le_outCap h1 hN hl) fun i hi => getD_splitPad_text s hi
  exact ⟨_, _, exec_split_ok ⟨h1, hN⟩ hl, hs, hf,
    ⟨paddedLen_dvd _ _, le_paddedLen _ h1, paddedLen_pos _ h1, fun q => paddedLen_least⟩, ho⟩

end Sys2Proof.Machine
end

section
/-! SUPPORT. The Matrix Engine commands, each said once by what its checks let through, and the laws of the determinant
(spec/41_matrix.md R120-R135). -/

namespace Sys2Proof.Machine

/-! ## The words of the commands with register operands (R90) -/

theorem formatF_three_registers (opc : BitVec 8) (rd ra rb : Selector) : formatF opc rd ra rb 0 0 =
    opc.setWidth 32 ||| rd.setWidth 32 <<< 8 ||| ra.setWidth 32 <<< 10 ||| rb.setWidth 32 <<< 12 := by
  rw [formatF_eq_or]; simp

theorem formatF_two_registers (opc : BitVec 8) (rd ra : Selector) : formatF opc rd ra 0 0 0 =
    opc.setWidth 32 ||| rd.setWidth 32 <<< 8 ||| ra.setWidth 32 <<< 10 := by
  rw [formatF_eq_or]; simp

theorem formatF_source (opc : BitVec 8) (ra : Selector) : formatF opc 0 ra 0 0 0 =
    opc.setWidth 32 ||| ra.setWidth 32 <<< 10 := by
  rw [formatF_eq_or]; simp

theorem encode_minor (rd ra : Selector) (i j : Imm) : encode (.minor rd ra i j) =
    0x14#32 ||| rd.setWidth 32 <<< 8 ||| ra.setWidth 32 <<< 10 ||| i.setWidth 32 <<< 16 ||| j.setWidth 32 <<< 20 := by
  rw [encode, formatF_eq_or]; simp

/-! ## Checks in order (R172)

A result is a chain of checks `if !c then .error e else …`. Each check is met through the condition that its test decides. -/

section checks
variable {α : Type} {c : Bool} {P : Prop} {e : CmdError} {r : Except CmdError α}

theorem check_fails (hc : c = true ↔ P) (h : ¬ P) : (if !c then .error e else r) = .error e := by
  rw [← hc, Bool.not_eq_true] at h
  rw [h]; rfl

theorem check_passes (hc : c = true ↔ P) (h : P) : (if !c then .error e else r) = r := by
  rw [hc.mpr h]; rfl

theorem finish_map_error {s : State} {f : α → State} (h : r = .error e) : finish s (r.map f) = .next (failed e s) := by
  rw [h]; exact exec_finish_error s e

theorem finish_map_ok {s : State} {f : α → State} {v : α} (h : r = .ok v) :
    finish s (r.map f) = .next ((f v).complete none) := by
  rw [h]; rfl

end checks

theorem validMats_iff {s : State} {a b : Fin 4} :
    (s.validMat a && s.validMat b) = true ↔ ShapeValid s a ∧ ShapeValid s b := by
  rw [Bool.and_eq_true, State.validMat_iff, State.validMat_iff]

theorem validMatVec_iff {s : State} {a : Fin 4} {b : Fin 2} :
    (s.validMat a && s.validVec b) = true ↔ ShapeValid s a ∧ LenValid s b := by
  rw [Bool.and_eq_true, State.validMat_iff, State.validVec_iff]

theorem sameShape_iff {s : State} {a b : Fin 4} :
    ((s.mat a).rows == (s.mat b).rows && (s.mat a).cols == (s.mat b).cols) = true ↔
      s.rows a = s.rows b ∧ s.cols a = s.cols b := by
  simp only [Bool.and_eq_true, beq_iff_eq, State.mat_rows, State.mat_cols]

theorem innerDims_iff {s : State} {a b : Fin 4} :
    ((s.mat a).cols == (s.mat b).rows) = true ↔ s.cols a = s.rows b := by
  simp only [beq_iff_eq, State.mat_rows, State.mat_cols]

theorem innerLen_iff {s : State} {a : Fin 4} {b : Fin 2} :
    ((s.mat a).cols == (s.vec b).len) = true ↔ s.cols a = s.len b := by
  simp only [beq_iff_eq, State.mat_cols, State.vec_len]

theorem square_iff {s : State} {a : Fin 4} : ((s.mat a).rows == (s.mat a).cols) = true ↔ s.rows a = s.cols a := by
  simp only [beq_iff_eq, State.mat_rows, State.mat_cols]

theorem minorExists_iff {s : State} {a : Fin 4} {i j : Nat} :
    (decide (2 ≤ (s.mat a).rows) && decide (2 ≤ (s.mat a).cols) && decide (i < (s.mat a).rows) &&
      decide (j < (s.mat a).cols)) = true ↔ 2 ≤ s.rows a ∧ 2 ≤ s.cols a ∧ i < s.rows a ∧ j < s.cols a := by
  simp only [Bool.and_eq_true, decide_eq_true_eq, and_assoc]; rfl

/-- A matrix result that passed every check, committed (R31, R176). -/
theorem finish_matrix {s : State} {d : Fin 4} {res : Except CmdError Mat} {X : Mat} {rows cols : Nat} {f : Nat → Nat → Int}
    (hres : res = .ok X) (hr : X.rows = rows) (hc : X.cols = cols) (hr16 : rows < 16) (hc16 : cols < 16)
    (he : ∀ r < rows, ∀ c < cols, X.e r c = f r c) (hf : X.fits = true) :
    ∃ t, finish s (res.map fun X => s.writeMat d X) = .next t ∧ Succeeded s t ∧ MatrixFrame s t d ∧ t.res = s.res ∧
      t.aux = s.aux ∧ MatrixHolds t d rows cols f :=
  ⟨_, finish_map_ok hres, commit_matrix s d hr hc hr16 hc16 he hf⟩

/-- A matrix result whose last check is the one for Overflow (R11): its two outcomes. -/
theorem finish_fitting_matrix {s : State} {d : Fin 4} {res : Except CmdError Mat} {X : Mat} {rows cols : Nat}
    {f : Nat → Nat → Int} (hres : res = if !X.fits then .error .overflow else .ok X) (hr : X.rows = rows)
    (hc : X.cols = cols) (hr16 : rows < 16) (hc16 : cols < 16) (he : ∀ r < rows, ∀ c < cols, X.e r c = f r c) :
    (¬ (∀ r < rows, ∀ c < cols, Fits64 (f r c)) →
      finish s (res.map fun X => s.writeMat d X) = .next (failed .overflow s)) ∧
    ((∀ r < rows, ∀ c < cols, Fits64 (f r c)) →
      ∃ t, finish s (res.map fun X => s.writeMat d X) = .next t ∧ Succeeded s t ∧ MatrixFrame s t d ∧ t.res = s.res ∧
        t.aux = s.aux ∧ MatrixHolds t d rows cols f) := by
  have hf := Mat.fits_of hr hc he
  exact ⟨fun h => finish_map_error (hres.trans (check_fails hf h)),
    fun h => finish_matrix (hres.trans (check_passes hf h)) hr hc hr16 hc16 he (hf.mpr h)⟩

/-! ## ADD, MULM and MULV (R128-R130) -/

section products
variable {s : State} {a b : Fin 4} {v : Fin 2}

theorem addResult_of_same_shape (ha : ShapeValid s a) (hb : ShapeValid s b) (hr : s.rows a = s.rows b)
    (hc : s.cols a = s.cols b) : addResult a b s =
      if !(matAdd (s.mat a) (s.mat b)).fits then .error .overflow else .ok (matAdd (s.mat a) (s.mat b)) :=
  (check_passes validMats_iff ⟨ha, hb⟩).trans (check_passes sameShape_iff ⟨hr, hc⟩)

theorem mulmResult_of_inner_dims (ha : ShapeValid s a) (hb : ShapeValid s b) (hd : s.cols a = s.rows b) : mulmResult a b s =
    if !(matMul (s.mat a) (s.mat b)).fits then .error .overflow else .ok (matMul (s.mat a) (s.mat b)) :=
  (check_passes validMats_iff ⟨ha, hb⟩).trans (check_passes innerDims_iff hd)

theorem mulvResult_of_inner_len (ha : ShapeValid s a) (hv : LenValid s v) (hl : s.cols a = s.len v) : mulvResult a v s =
    if !(matVec (s.mat a) (s.vec v)).fits then .error .overflow else .ok (matVec (s.mat a) (s.vec v)) :=
  (check_passes validMatVec_iff ⟨ha, hv⟩).trans (check_passes innerLen_iff hl)

end products

/-- Settles O37: the checks in their order, then the commit of the sum. -/
theorem addFollowsItsRule : Obligations.AddFollowsItsRule := by
  rintro rd ra rb s d a b rfl rfl rfl
  have hfit (ha hb hr hc) := finish_fitting_matrix (s := s) (d := matSel rd)
    (addResult_of_same_shape (a := matSel ra) (b := matSel rb) ha hb hr hc) rfl rfl (s.rows_lt _) (s.cols_lt _)
    fun _ _ _ _ => rfl
  exact ⟨formatF_three_registers 0x10 rd ra rb, fun hv => finish_map_error (check_fails validMats_iff hv),
    fun ha hb hd => finish_map_error ((check_passes validMats_iff ⟨ha, hb⟩).trans (check_fails sameShape_iff hd)),
    fun ha hb hr hc => (hfit ha hb hr hc).1, fun ha hb hr hc => (hfit ha hb hr hc).2⟩

/-- Settles O38: the checks in their order, then the commit of the product. -/
theorem mulmFollowsItsRule : Obligations.MulmFollowsItsRule := by
  rintro rd ra rb s d a b x rfl rfl rfl rfl
  have hfit (ha hb hd) := finish_fitting_matrix (s := s) (d := matSel rd)
    (mulmResult_of_inner_dims (a := matSel ra) (b := matSel rb) ha hb hd) rfl rfl (s.rows_lt _) (s.cols_lt _)
    fun _ _ _ _ => sumTo_eq_sum _ _
  exact ⟨formatF_three_registers 0x11 rd ra rb, fun hv => finish_map_error (check_fails validMats_iff hv),
    fun ha hb hd => finish_map_error ((check_passes validMats_iff ⟨ha, hb⟩).trans (check_fails innerDims_iff hd)),
    fun ha hb hd => (hfit ha hb hd).1, fun ha hb hd => (hfit ha hb hd).2⟩

/-- MULV with selectors that name vector registers (R93). -/
theorem exec_mulv {rd ra rb : Selector} {d b : Fin 2} (hd : vecSel rd = some d) (hb : vecSel rb = some b) (s : State) :
    exec (.mulv rd ra rb) s = finish s ((mulvResult (matSel ra) b s).map fun x => s.writeVec d x) := by
  simp only [exec, execMulv, hd, hb]

/-- Settles O40: the checks in their order, then the commit of the product. -/
theorem mulvFollowsItsRule : Obligations.MulvFollowsItsRule := by
  rintro rd ra rb s d b a x hd rfl hb rfl
  rw [exec_mulv (vecSel_of_toNat hd) (vecSel_of_toNat hb)]
  have he (r : Nat) (_ : r < s.rows (matSel ra)) : (matVec (s.mat (matSel ra)) (s.vec b)).e r = _ := sumTo_eq_sum _ _
  have hf := Vec.fits_of (x := matVec (s.mat (matSel ra)) (s.vec b)) rfl he
  exact ⟨formatF_three_registers 0x12 rd ra rb, fun hv => finish_map_error (check_fails validMatVec_iff hv),
    fun ha hv hl => finish_map_error ((check_passes validMatVec_iff ⟨ha, hv⟩).trans (check_fails innerLen_iff hl)),
    fun ha hv hl h => finish_map_error ((mulvResult_of_inner_len ha hv hl).trans (check_fails hf h)),
    fun ha hv hl h => ⟨_, finish_map_ok ((mulvResult_of_inner_len ha hv hl).trans (check_passes hf h)),
      commit_vector s d rfl (s.rows_lt _) he (hf.mpr h)⟩⟩

/-! ## MINOR and TRN (R132, R134) -/

theorem skip_eq_add (d n : Nat) : skip d n = n + if d ≤ n then 1 else 0 := by
  unfold skip; split <;> rfl

theorem minor_e (A : Mat) (i j r c : Nat) :
    (minor A i j).e r c = A.e (r + if i ≤ r then 1 else 0) (c + if j ≤ c then 1 else 0) := by
  rw [← skip_eq_add, ← skip_eq_add]; rfl

theorem minorResult_ok {s : State} {a : Fin 4} {i j : Nat} (ha : ShapeValid s a)
    (h : 2 ≤ s.rows a ∧ 2 ≤ s.cols a ∧ i < s.rows a ∧ j < s.cols a) :
    minorResult a i j s = .ok (minor (s.mat a) i j) :=
  (check_passes State.validMat_iff ha).trans (check_passes minorExists_iff h)

/-- The two checks of MINOR have one error. -/
theorem minorResult_error {s : State} {a : Fin 4} {i j : Nat}
    (h : ¬ (ShapeValid s a ∧ 2 ≤ s.rows a ∧ 2 ≤ s.cols a ∧ i < s.rows a ∧ j < s.cols a)) :
    minorResult a i j s = .error .shapeError := by
  by_cases ha : ShapeValid s a
  · exact (check_passes State.validMat_iff ha).trans (check_fails minorExists_iff fun hm => h ⟨ha, hm⟩)
  · exact check_fails State.validMat_iff ha

/-- Settles O42: the elements of a minor are elements of the register, so they cannot overflow. -/
theorem minorFollowsItsRule : Obligations.MinorFollowsItsRule := by
  rintro rd ra i j s d a rfl rfl
  exact ⟨encode_minor rd ra i j, fun h => finish_map_error (minorResult_error h), fun ha hr hc hi hj =>
    finish_matrix (minorResult_ok ha ⟨hr, hc, hi, hj⟩) rfl rfl ((Nat.sub_le _ 1).trans_lt (s.rows_lt _))
      ((Nat.sub_le _ 1).trans_lt (s.cols_lt _)) (fun r _ c _ => minor_e _ _ _ r c) (fits_minor_mat s _ _ _)⟩

theorem trnResult_ok {s : State} {a : Fin 4} (ha : ShapeValid s a) : trnResult a s = .ok (transpose (s.mat a)) :=
  check_passes State.validMat_iff ha

/-- An equation to cite: unifying the two sides by `rfl` on a register unfolds storage. -/
theorem transpose_e (A : Mat) (r c : Nat) : (transpose A).e r c = A.e c r := rfl

/-- Settles O44: the elements of the transpose are elements of the register, so they cannot overflow. -/
theorem trnFollowsItsRule : Obligations.TrnFollowsItsRule := by
  rintro rd ra s d a rfl rfl
  exact ⟨formatF_two_registers 0x16 rd ra, fun hv => finish_map_error (check_fails State.validMat_iff hv),
    fun ha => finish_matrix (trnResult_ok ha) rfl rfl (s.cols_lt _) (s.rows_lt _)
      (fun r _ c _ => transpose_e _ r c) (fits_transpose_mat s _)⟩

/-! ## DET, ADJ and INV (R131, R133, R135) -/

section square
variable {α : Type} {s : State} {a : Fin 4} {res : Except CmdError α}

/-- The two checks that DET, ADJ and INV begin with. -/
theorem squareChecks_pass (h : SquareValid s a) : (if !s.validMat a then .error .shapeError
    else if !((s.mat a).rows == (s.mat a).cols) then .error .notSquare else res) = res :=
  (check_passes State.validMat_iff h.1).trans (check_passes square_iff h.2)

theorem squareChecks_not_square (hv : ShapeValid s a) (hne : s.rows a ≠ s.cols a) : (if !s.validMat a then .error .shapeError
    else if !((s.mat a).rows == (s.mat a).cols) then .error .notSquare else res) = .error .notSquare :=
  (check_passes State.validMat_iff hv).trans (check_fails square_iff hne)

theorem detResult_of_square (hs : SquareValid s a) : detResult a s =
    if !fits64 (det (s.mat a)) then .error .overflow else .ok (det (s.mat a)) :=
  squareChecks_pass hs

theorem adjResult_of_square (hs : SquareValid s a) : adjResult a s =
    if !(adj (s.mat a)).fits then .error .overflow else .ok (adj (s.mat a)) :=
  squareChecks_pass hs

/-- The overflow test of INV (R135): the common denominator and the numerators, on any description of them. -/
theorem numeratorsFit_iff {x : Nat → Nat → Int} (h : s.rows a = s.cols a) (he : ∀ r c, (adj (s.mat a)).e r c = x r c) :
    (fits64 (det (s.mat a)) && (adj (s.mat a)).fits) = true ↔
      Fits64 (det (s.mat a)) ∧ ∀ r < s.rows a, ∀ c < s.rows a, Fits64 (x r c) := by
  rw [Bool.and_eq_true, fits64_iff,
    Mat.fits_of (X := adj (s.mat a)) (cols := s.rows a) h.symm rfl fun r _ c _ => he r c]

theorem invResult_of_singular (hs : SquareValid s a) (hd : det (s.mat a) = 0) : invResult a s = .error .singularMatrix :=
  (squareChecks_pass hs).trans (if_pos (beq_iff_eq.mpr hd))

theorem invResult_of_nonsingular (hs : SquareValid s a) (hd : det (s.mat a) ≠ 0) : invResult a s =
    if !(fits64 (det (s.mat a)) && (adj (s.mat a)).fits) then .error .overflow else .ok (adj (s.mat a), det (s.mat a)) :=
  (squareChecks_pass hs).trans (if_neg (mt beq_iff_eq.mp hd))

end square

/-- Settles O41: a determinant that fits is RES. -/
theorem detFollowsItsRule : Obligations.DetFollowsItsRule := by
  rintro ra s a rfl
  refine ⟨formatF_source 0x13 ra, fun hv => finish_map_error (check_fails State.validMat_iff hv),
    fun hv hne => finish_map_error (squareChecks_not_square hv hne),
    fun hs h => finish_map_error ((detResult_of_square hs).trans (check_fails fits64_iff h)), fun hs h => ?_⟩
  obtain ⟨hsucc, hframe⟩ := commit_scalar s (BitVec.ofInt 64 (det (s.mat (matSel ra))))
  exact ⟨_, finish_map_ok ((detResult_of_square hs).trans (check_passes fits64_iff h)), hsucc, hframe,
    toInt_ofInt_of_fits (fits64_iff.mpr h)⟩

/-- Settles O43: the checks in their order, then the commit of the adjugate. -/
theorem adjFollowsItsRule : Obligations.AdjFollowsItsRule := by
  rintro rd ra s d a x rfl rfl rfl
  have hfit (hs) := finish_fitting_matrix (s := s) (d := matSel rd) (adjResult_of_square (a := matSel ra) hs) hs.2.symm rfl
    (s.rows_lt _) (s.rows_lt _) fun r _ c _ => adj_e _ r c
  exact ⟨formatF_two_registers 0x15 rd ra, fun hv => finish_map_error (check_fails State.validMat_iff hv),
    fun hv hne => finish_map_error (squareChecks_not_square hv hne), fun hs => (hfit hs).1, fun hs => (hfit hs).2⟩

/-- Settles O45: SingularMatrix comes before Overflow, and the commit of the adjugate is followed by that of RES. -/
theorem invFollowsItsRule : Obligations.InvFollowsItsRule := by
  rintro rd ra s d a x rfl rfl hx
  have he (r c : Nat) : (adj (s.mat (matSel ra))).e r c = x r c := by rw [hx]; exact adj_e _ r c
  have hfits (hs : SquareValid s (matSel ra)) := numeratorsFit_iff hs.2 he
  refine ⟨formatF_two_registers 0x17 rd ra, fun hv => finish_map_error (check_fails State.validMat_iff hv),
    fun hv hne => finish_map_error (squareChecks_not_square hv hne),
    fun hs hd => finish_map_error (invResult_of_singular hs hd),
    fun hs hd h => finish_map_error ((invResult_of_nonsingular hs hd).trans (check_fails (hfits hs) h)),
    fun hs hd hden hnum => ?_⟩
  have hok := (invResult_of_nonsingular hs hd).trans (check_passes (hfits hs) ⟨hden, hnum⟩)
  obtain ⟨hden, hnum⟩ := Bool.and_eq_true_iff.mp ((hfits hs).mpr ⟨hden, hnum⟩)
  obtain ⟨hsucc, hframe, -, haux, hholds⟩ :=
    commit_matrix s (matSel rd) hs.2.symm rfl (s.rows_lt _) (s.rows_lt _) (fun r _ c _ => he r c) hnum
  exact ⟨_, finish_map_ok hok, hsucc.setRes _, hframe.setRes _, toInt_ofInt_of_fits hden, haux, hholds.setRes _⟩

/-! ## The determinant (R120, R121, R127) -/

/-- The cofactor expansion along row 0 (R121), from 3 × 3 on. -/
theorem det_eq_sum {A : Mat} {n : Nat} (hn : 3 ≤ n) (hr : A.rows = n) :
    det A = ∑ j ∈ Finset.range n, (-1) ^ j * A.e 0 j * det (minor A 0 j) := by
  obtain ⟨m, rfl⟩ := Nat.exists_eq_add_of_le' hn
  rw [det, hr, detOf, sumTo_eq_sum]
  refine Finset.sum_congr rfl fun j _ => ?_
  have hminor : (minor A 0 j).rows = m + 2 := by rw [minor, hr]; rfl
  rw [sign_eq_pow, det, hminor]
  rfl

/-- Settles O46: the definitions, one shape at a time. -/
theorem detIsTheCofactorExpansion : Obligations.DetIsTheCofactorExpansion := by
  intro A
  refine ⟨fun i j r c => ⟨rfl, rfl, minor_e A i j r c⟩, fun h1 _ => ?_, fun h2 _ => ?_,
    fun n hn hr _ => det_eq_sum hn hr⟩
  · rw [det, h1, detOf]
  · rw [det, h2, detOf]

/-- R127 (b). -/
theorem det_transpose {A : Mat} (h : A.rows = A.cols) : det (transpose A) = det A := by
  rw [det_eq_det (A := transpose A) h.symm, det_eq_det (A := A) rfl, ← Matrix.det_transpose]
  rfl

/-- R127 (c). -/
theorem det_eq_leibniz {A : Mat} {n : Nat} (hr : A.rows = n) :
    det A = ∑ p : Equiv.Perm (Fin n), (Equiv.Perm.sign p : Int) * ∏ r : Fin n, A.e r (p r) := by
  rw [det_eq_det hr, ← Matrix.det_transpose, Matrix.det_apply']
  rfl

/-- Settles O47: the laws of Mathlib's determinant and adjugate, which are the model's. -/
theorem determinantLaws : Obligations.DeterminantLaws := by
  intro A n _ hr hc
  refine ⟨fun r hrn c hcn => ⟨?_, ?_⟩, det_transpose (hr.trans hc.symm), det_eq_leibniz hr⟩
  · rw [← sum_mul_adj hr hc hrn hcn, ← hc]
    exact sumTo_eq_sum _ _
  · rw [← sum_adj_mul hr hrn hcn, ← hr]
    exact sumTo_eq_sum _ _

end Sys2Proof.Machine
end

section
/-! SUPPORT. The modular commands: MODINV, MINVM, and the law of the inverse key (spec/42_modular.md R140-R145). -/

namespace Sys2Proof.Machine

/-! ## Residues and their inverses as register values -/

/-- RES as MINVM commits it reads back as the residue: zero-extended, so never negative (R144). -/
theorem toNat_ofInt_emod (x : Int) : ((BitVec.ofInt 64 (x % 26)).toNat : Int) = x % 26 := by
  have h0 : 0 ≤ x % 26 := Int.emod_nonneg _ (by omega)
  have hlt : x % 26 < 26 := Int.emod_lt_of_pos _ (by omega)
  rw [BitVec.toNat_ofInt]
  omega

theorem toNat_ofNat_word {n : Nat} (h : n ≤ 25) : (BitVec.ofNat 32 n).toNat = n := by
  rw [BitVec.toNat_ofNat]; omega

/-! ## MODINV (R142) -/

theorem modinvResult_of_not_unit {s : State} (h : Int.gcd (s.sarg.toInt % 26) 26 ≠ 1) :
    modinvResult s = .error .noModularInverse := by
  rw [modinvResult, State.sargInt, modInv26_of_not_unit h]

theorem modinvResult_of_some {s : State} {x : Nat} (h : modInv26 s.sarg.toInt = some x) : modinvResult s = .ok x := by
  rw [modinvResult, State.sargInt, h]

/-- Settles O48: SARG has an inverse exactly when it is prime to 26, and RES is the one in 1..25. -/
theorem modinvFollowsItsRule : Obligations.ModinvFollowsItsRule := by
  refine ⟨by decide, fun s => ⟨fun h => finish_map_error (modinvResult_of_not_unit h), fun h => ?_⟩⟩
  obtain ⟨x, hx, h1, h25, hmul⟩ := modInv26_of_unit h
  obtain ⟨hs, hf⟩ := commit_scalar s (BitVec.ofNat 64 x)
  have hres : (((s.setRes (BitVec.ofNat 64 x)).complete none).res).toNat = x := toNat_ofNat_number (by omega)
  refine ⟨_, finish_map_ok (modinvResult_of_some hx), hs, hf, ?_⟩
  rw [hres]
  exact ⟨h1, h25, hmul⟩

/-! ## MINVM (R144) -/

section minvm
variable {s : State} {a : Fin 4}

theorem minvmResult_of_square (hs : SquareValid s a) : minvmResult a s = keyInverse (s.mat a) := squareChecks_pass hs

theorem minvmResult_of_bad_shape (h : ¬ ShapeValid s a) : minvmResult a s = .error .shapeError :=
  check_fails State.validMat_iff h

theorem minvmResult_of_not_square (hv : ShapeValid s a) (hne : s.rows a ≠ s.cols a) :
    minvmResult a s = .error .notSquare :=
  squareChecks_not_square hv hne

theorem minvmResult_of_not_invertible (hs : SquareValid s a) (hk : ¬ KeyInvertible (s.mat a)) :
    minvmResult a s = .error .singularMatrixMod :=
  (minvmResult_of_square hs).trans (keyInverse_of_not_invertible hk)

/-- A result means that every check of MINVM was passed. -/
theorem minvmResult_ok {k : Mat × Int × Nat} (h : minvmResult a s = .ok k) : SquareValid s a ∧ KeyInvertible (s.mat a) := by
  by_cases hv : ShapeValid s a
  · by_cases hsq : s.rows a = s.cols a
    · by_cases hk : KeyInvertible (s.mat a)
      · exact ⟨⟨hv, hsq⟩, hk⟩
      · cases h.symm.trans (minvmResult_of_not_invertible ⟨hv, hsq⟩ hk)
    · cases h.symm.trans (minvmResult_of_not_square hv hsq)
  · cases h.symm.trans (minvmResult_of_bad_shape hv)

end minvm

/-- Everything the commit of an inverse key does: the register, then RES and AUX (R31, R144, R176). -/
theorem commit_inverseKey (s : State) (d : Fin 4) {A : Mat} {n iv : Nat} (hr : A.rows = n) (hc : A.cols = n) (h16 : n < 16)
    (h25 : iv ≤ 25) {t : State}
    (ht : t = (((s.writeMat d (inverseKey A iv)).setRes (BitVec.ofInt 64 (det A % 26))).setAux (BitVec.ofNat 32 iv)).complete
      none) :
    Succeeded s t ∧ MatrixFrame s t d ∧ (t.res.toNat : Int) = det A % 26 ∧ t.aux.toNat = iv ∧
      MatrixHolds t d n n (inverseEntry A iv) := by
  subst ht
  obtain ⟨hsucc, hframe, -, -, hholds⟩ :=
    commit_matrix s d (X := inverseKey A iv) hc hr h16 h16 (fun _ _ _ _ => rfl) (fits_inverseKey A iv)
  exact ⟨(hsucc.setRes _).setAux _, (hframe.setRes _).setAux _, toNat_ofInt_emod _, toNat_ofNat_word h25,
    (hholds.setRes _).setAux _⟩

/-- Settles O49: the checks in their order, then the commit of the inverse key, RES and AUX. -/
theorem minvmFollowsItsRule : Obligations.MinvmFollowsItsRule := by
  rintro rd ra s d a rfl rfl
  refine ⟨formatF_two_registers 0x21 rd ra, fun hv => finish_map_error (minvmResult_of_bad_shape hv),
    fun hv hne => finish_map_error (minvmResult_of_not_square hv hne),
    fun hs hk => finish_map_error (minvmResult_of_not_invertible hs hk), fun hs hk => ?_⟩
  obtain ⟨iv, hkey, h1, h25, hmul⟩ := keyInverse_of_invertible hk
  obtain ⟨hsucc, hframe, hres, haux, hholds⟩ := commit_inverseKey s (matSel rd) (A := s.mat (matSel ra)) rfl hs.2.symm
    (s.rows_lt _) h25 rfl
  refine ⟨_, finish_map_ok ((minvmResult_of_square hs).trans hkey), hsucc, hframe, hres, ?_⟩
  rw [haux]
  exact ⟨h1, h25, hmul, hholds⟩

/-! ## The inverse key and its law (R143, R145) -/

/-- `ModInvMatrix26` of an invertible square key, its entries written out (R143). -/
theorem keyInverse_spec {A : Mat} {n : Nat} (hr : A.rows = n) (hc : A.cols = n) (hk : KeyInvertible A) :
    ∃ (K : Mat) (iv : Nat), keyInverse A = .ok (K, det A % 26, iv) ∧ 1 ≤ iv ∧ iv ≤ 25 ∧
      (det A % 26 * (iv : Int)) % 26 = 1 ∧ K.rows = n ∧ K.cols = n ∧
      ∀ r < n, ∀ c < n, K.e r c = (iv * (adj A).e r c) % 26 ∧ 0 ≤ K.e r c ∧ K.e r c ≤ 25 := by
  obtain ⟨iv, hkey, h1, h25, hmul⟩ := keyInverse_of_invertible hk
  exact ⟨inverseKey A iv, iv, hkey, h1, h25, by rw [emod_mul_emod]; exact hmul, hc, hr,
    fun r _ c _ => ⟨rfl, inverseEntry_range A iv r c⟩⟩

/-- A success of MINVM: the key was valid, and inside its shape M[RD] holds the inverse key of its determinant's inverse. -/
theorem exec_minvm_success {rd ra : Selector} {s t : State} (h : exec (.minvm rd ra) s = .next t) (ht : t.ecode = none) :
    SquareValid s (matSel ra) ∧ ∃ iv : Nat, det (s.mat (matSel ra)) * (iv : Int) % 26 = 1 ∧
      ∀ r < s.rows (matSel ra), ∀ c < s.rows (matSel ra),
        (t.mat (matSel rd)).e r c = inverseEntry (s.mat (matSel ra)) iv r c := by
  obtain ⟨k, hk, ht'⟩ | ⟨e, -, rfl⟩ := finish_cases (r := minvmResult (matSel ra) s) h
  · obtain ⟨hs, hinv⟩ := minvmResult_ok hk
    obtain ⟨iv, hkey, -, h25, hmul⟩ := keyInverse_of_invertible hinv
    obtain rfl := Except.ok.inj (hk.symm.trans ((minvmResult_of_square hs).trans hkey))
    obtain ⟨-, hframe, -, -, -, -, hentry⟩ := commit_inverseKey s (matSel rd) rfl hs.2.symm (s.rows_lt _) h25 ht'
    have ⟨⟨⟨_, hle⟩, _⟩, _⟩ := hs
    rw [← hframe.hostSide.params] at hle
    exact ⟨hs, iv, hmul, fun r hr c hc => by
      rw [hentry r (hr.trans_le hle) c (hc.trans_le hle)]; exact if_pos ⟨hr, hc⟩⟩
  · cases ht

/-- Settles O50: the function's two outcomes, and the law read off the entries that MINVM commits. -/
theorem inverseKeyInvertsTheKey : Obligations.InverseKeyInvertsTheKey := by
  refine ⟨fun A n _ hr hc => ⟨keyInverse_of_not_invertible, keyInverse_spec hr hc⟩, fun rd ra s t h ht r hr c hc => ?_⟩
  obtain ⟨hs, iv, hmul, hentry⟩ := exec_minvm_success h ht
  refine ⟨?_, ?_, ?_⟩
  · rw [Finset.sum_congr rfl fun k hk => by rw [hentry k (Finset.mem_range.mp hk) c hc]]
    exact sum_mul_inverseEntry rfl hs.2.symm hmul hr hc
  · rw [Finset.sum_congr rfl fun k hk => by rw [hentry r hr k (Finset.mem_range.mp hk)]]
    exact sum_inverseEntry_mul rfl hmul hr hc
  · rw [hentry r hr c hc]
    exact inverseEntry_range _ iv r c

end Sys2Proof.Machine
end

section
/-! SUPPORT. The Hill cipher commands, each said once by what its checks let through, and the round trip of the text commands
(spec/43_hill.md R150-R156). -/

namespace Sys2Proof.Machine

/-! ## ENCB and DECB (R152, R153) -/

/-- ENCB with selectors that name vector registers (R93). -/
theorem exec_encb {rd ra rb : Selector} {d b : Fin 2} (hd : vecSel rd = some d) (hb : vecSel rb = some b) (s : State) :
    exec (.encb rd ra rb) s = finish s ((encbResult (matSel ra) b s).map fun y => s.writeVec d y) := by
  simp only [exec, execEncb, hd, hb]

/-- DECB with selectors that name vector registers (R93). -/
theorem exec_decb {rd ra rb : Selector} {d b : Fin 2} (hd : vecSel rd = some d) (hb : vecSel rb = some b) (s : State) :
    exec (.decb rd ra rb) s = finish s ((decbResult (matSel ra) b s).map fun y => s.writeVec d y) := by
  simp only [exec, execDecb, hd, hb]

section blocks
variable {s : State} {a : Fin 4} {b : Fin 2}

theorem encbResult_of_inner_len (ha : ShapeValid s a) (hv : LenValid s b) (hl : s.cols a = s.len b) :
    encbResult a b s = .ok (hillBlock (s.mat a) (s.vec b)) :=
  (check_passes validMatVec_iff ⟨ha, hv⟩).trans (check_passes innerLen_iff hl)

theorem decbResult_of_not_square (ha : ShapeValid s a) (hv : LenValid s b) (hne : s.rows a ≠ s.cols a) :
    decbResult a b s = .error .notSquare :=
  (check_passes validMatVec_iff ⟨ha, hv⟩).trans (check_fails square_iff hne)

theorem decbResult_of_not_invertible (hs : SquareValid s a) (hv : LenValid s b) (hk : ¬ KeyInvertible (s.mat a)) :
    decbResult a b s = .error .singularMatrixMod :=
  (check_passes validMatVec_iff ⟨hs.1, hv⟩).trans
    ((check_passes square_iff hs.2).trans (by rw [keyInverse_of_not_invertible hk]))

theorem decbResult_of_key {k : Mat × Int × Nat} (hs : SquareValid s a) (hv : LenValid s b)
    (hk : keyInverse (s.mat a) = .ok k) : decbResult a b s =
      if !(k.1.cols == (s.vec b).len) then .error .dimensionMismatch else .ok (hillBlock k.1 (s.vec b)) :=
  (check_passes validMatVec_iff ⟨hs.1, hv⟩).trans ((check_passes square_iff hs.2).trans (by rw [hk]))

/-- The inverse key has as many columns as the key has rows. -/
theorem inverseKeyLen_iff {iv : Nat} : ((inverseKey (s.mat a) iv).cols == (s.vec b).len) = true ↔ s.rows a = s.len b :=
  beq_iff_eq

/-- A transformed block, committed (R31, R150, R176): residues cannot overflow. -/
theorem finish_hillBlock {d : Fin 2} {res : Except CmdError Vec} {T : Mat} {v : Vec} {rows cols : Nat}
    (hres : res = .ok (hillBlock T v)) (hr : T.rows = rows) (hc : T.cols = cols) (hr16 : rows < 16) :
    ∃ t, finish s (res.map fun y => s.writeVec d y) = .next t ∧ Succeeded s t ∧ VectorFrame s t d ∧
      VectorHolds t d rows (fun r => (∑ q ∈ Finset.range cols, T.e r q * v.e q) % 26) := by
  subst hc
  exact ⟨_, finish_map_ok hres, commit_vector s d hr hr16 (fun r _ => congrArg (· % 26) (sumTo_eq_sum _ _))
    (fits_hillBlock T v)⟩

end blocks

/-- Settles O51: the checks in their order, then the commit of the block. -/
theorem encbFollowsItsRule : Obligations.EncbFollowsItsRule := by
  rintro rd ra rb s d b a hd rfl hb
  rw [exec_encb (vecSel_of_toNat hd) (vecSel_of_toNat hb)]
  exact ⟨formatF_three_registers 0x30 rd ra rb, fun hv => finish_map_error (check_fails validMatVec_iff hv),
    fun ha hv hl => finish_map_error ((check_passes validMatVec_iff ⟨ha, hv⟩).trans (check_fails innerLen_iff hl)),
    fun ha hv hl => finish_hillBlock (encbResult_of_inner_len ha hv hl) rfl rfl (s.rows_lt _)⟩

/-- Settles O52: the checks of the key, then that of the length, then the commit of the block. -/
theorem decbFollowsItsRule : Obligations.DecbFollowsItsRule := by
  rintro rd ra rb s d b a hd rfl hb
  rw [exec_decb (vecSel_of_toNat hd) (vecSel_of_toNat hb)]
  refine ⟨formatF_three_registers 0x31 rd ra rb, fun hv => finish_map_error (check_fails validMatVec_iff hv),
    fun ha hv hne => finish_map_error (decbResult_of_not_square ha hv hne),
    fun hs hv hk => finish_map_error (decbResult_of_not_invertible hs hv hk), fun hs hv hk hl => ?_, fun hs hv hk hl => ?_⟩
  · obtain ⟨iv, hkey, -⟩ := keyInverse_of_invertible hk
    exact finish_map_error ((decbResult_of_key hs hv hkey).trans (check_fails inverseKeyLen_iff hl))
  · obtain ⟨iv, hkey, h1, h25, hmul⟩ := keyInverse_of_invertible hk
    obtain ⟨t, ht, hsucc, hframe, hholds⟩ := finish_hillBlock (d := d)
      ((decbResult_of_key hs hv hkey).trans (check_passes inverseKeyLen_iff hl)) hs.2.symm rfl (s.rows_lt _)
    exact ⟨t, iv, ht, hsucc, hframe, h1, h25, hmul, hholds⟩

/-! ## HillText on the text of a state (R151) -/

section text
variable {s : State} {T : Mat}

theorem hillText_state_not_square (hk : 1 ≤ T.rows) (hs : T.cols ≠ T.rows)
    (h : ∀ i < s.textLen.toNat, i < T.rows → CipherByte (s.inByte i)) : hillText T s.text = .error .dimensionMismatch := by
  refine hillText_not_square hk hs fun i hi hr => ?_
  rw [State.length_text] at hi
  rw [State.getD_text s hi]
  exact h i hi hr

theorem hillText_state_first_invalid (hk : 1 ≤ T.rows)
    (h : ¬ ∀ i < s.textLen.toNat, i < T.rows → CipherByte (s.inByte i)) :
    hillText T s.text = .error .invalidCharacter := by
  simp only [not_forall, exists_prop] at h
  obtain ⟨i, hi, hr, hc⟩ := h
  exact hillText_first_invalid hk (by rwa [State.length_text]) hr (by rwa [State.getD_text s hi])

theorem hillText_state_invalid (hk : 1 ≤ T.rows) (hs : T.cols = T.rows)
    (h : ¬ ∀ i < s.textLen.toNat, CipherByte (s.inByte i)) : hillText T s.text = .error .invalidCharacter := by
  simp only [not_forall, exists_prop] at h
  obtain ⟨i, hi, hc⟩ := h
  exact hillText_invalid hk hs (by rwa [State.length_text]) (by rwa [State.getD_text s hi])

/-- A transformed text, committed (R118, R151, R176). -/
theorem finish_hillText {res : Except CmdError (List Byte)} {k : Nat} (hres : res = hillText T s.text) (hr : T.rows = k)
    (hc : T.cols = k) (hk : 1 ≤ k ∧ k ≤ s.params.nMax) (hl : s.textLen.toNat ≤ s.params.textMax)
    (hb : ∀ i < s.textLen.toNat, CipherByte (s.inByte i)) :
    ∃ t, finish s (res.map fun o => s.writeOut o) = .next t ∧ Succeeded s t ∧
      TextFrame s t (paddedLen s.textLen.toNat k) ∧
      OutHolds t (paddedLen s.textLen.toNat k) (hillByte k T.e s.textLen.toNat s.inByte) := by
  subst hr
  obtain ⟨hk, hN⟩ := hk
  obtain ⟨o, ho, hlen, hbyte⟩ := hillText_ok hk hc (forall_text.mpr hb)
  rw [State.length_text] at hlen
  exact ⟨_, finish_map_ok (hres.trans ho), commit_text s hlen (paddedLen_le_outCap hk hN hl) fun i hi =>
    (hbyte i (hi.trans_eq hlen.symm)).trans (hillByte_text s T.rows T.e i)⟩

end text

/-- What the statements say of the padded length P (R116). -/
theorem paddedLen_bounds (n : Nat) {k : Nat} (hk : 1 ≤ k) :
    k ∣ paddedLen n k ∧ n ≤ paddedLen n k ∧ 1 ≤ paddedLen n k ∧ paddedLen n k < max 1 n + k :=
  ⟨paddedLen_dvd n k, le_paddedLen n hk, paddedLen_pos n hk, paddedLen_lt n hk⟩

/-! ## ENCT and DECT (R154, R155) -/

section texts
variable {s : State} {a : Fin 4} {ra : Selector}

theorem textTooLong_fails (h : s.params.textMax < s.textLen.toNat) {r : Except CmdError (List Byte)} :
    (if !s.textOk then .error .lengthError else r) = .error .lengthError :=
  check_fails State.textOk_iff h.not_ge

theorem enctResult_of_text (ha : ShapeValid s a) (hl : s.textLen.toNat ≤ s.params.textMax) :
    enctResult a s = hillText (s.mat a) s.text :=
  (check_passes State.validMat_iff ha).trans (check_passes State.textOk_iff hl)

theorem dectResult_of_not_square (ha : ShapeValid s a) (hl : s.textLen.toNat ≤ s.params.textMax)
    (hne : s.rows a ≠ s.cols a) : dectResult a s = .error .notSquare :=
  (check_passes State.validMat_iff ha).trans ((check_passes State.textOk_iff hl).trans (check_fails square_iff hne))

theorem dectResult_of_not_invertible (hs : SquareValid s a) (hl : s.textLen.toNat ≤ s.params.textMax)
    (hk : ¬ KeyInvertible (s.mat a)) : dectResult a s = .error .singularMatrixMod :=
  (check_passes State.validMat_iff hs.1).trans ((check_passes State.textOk_iff hl).trans
    ((check_passes square_iff hs.2).trans (by rw [keyInverse_of_not_invertible hk])))

theorem dectResult_of_key {k : Mat × Int × Nat} (hs : SquareValid s a) (hl : s.textLen.toNat ≤ s.params.textMax)
    (hk : keyInverse (s.mat a) = .ok k) : dectResult a s = hillText k.1 s.text :=
  (check_passes State.validMat_iff hs.1).trans ((check_passes State.textOk_iff hl).trans
    ((check_passes square_iff hs.2).trans (by rw [hk])))

/-- A success of ENCT (R154). -/
theorem exec_enct_ok (ha : a = matSel ra) (hs : SquareValid s a) (hl : s.textLen.toNat ≤ s.params.textMax)
    (hb : ∀ i < s.textLen.toNat, CipherByte (s.inByte i)) :
    ∃ t, exec (.enct ra) s = .next t ∧ Succeeded s t ∧ TextFrame s t (paddedLen s.textLen.toNat (s.rows a)) ∧
      OutHolds t (paddedLen s.textLen.toNat (s.rows a))
        (hillByte (s.rows a) (s.mat a).e s.textLen.toNat s.inByte) := by
  subst ha
  exact finish_hillText (enctResult_of_text hs.1 hl) rfl hs.2.symm hs.1.1 hl hb

/-- A success of DECT (R155). -/
theorem exec_dect_ok (ha : a = matSel ra) (hs : SquareValid s a) (hl : s.textLen.toNat ≤ s.params.textMax)
    (hk : KeyInvertible (s.mat a)) (hb : ∀ i < s.textLen.toNat, CipherByte (s.inByte i)) :
    ∃ (t : State) (iv : Nat), exec (.dect ra) s = .next t ∧ Succeeded s t ∧
      TextFrame s t (paddedLen s.textLen.toNat (s.rows a)) ∧
      1 ≤ iv ∧ iv ≤ 25 ∧ (det (s.mat a) * (iv : Int)) % 26 = 1 ∧
      OutHolds t (paddedLen s.textLen.toNat (s.rows a))
        (hillByte (s.rows a) (inverseEntry (s.mat a) iv) s.textLen.toNat s.inByte) := by
  subst ha
  obtain ⟨iv, hkey, h1, h25, hmul⟩ := keyInverse_of_invertible hk
  obtain ⟨t, ht, hsucc, hframe, hout⟩ :=
    finish_hillText (dectResult_of_key hs hl hkey) hs.2.symm rfl hs.1.1 hl hb
  exact ⟨t, iv, ht, hsucc, hframe, h1, h25, hmul, hout⟩

end texts

/-- Settles O53: the checks in their order, the errors of the text, then the commit of the ciphertext. -/
theorem enctFollowsItsRule : Obligations.EnctFollowsItsRule := by
  rintro ra s a rfl
  refine ⟨formatF_source 0x32 ra, fun hv => finish_map_error (check_fails State.validMat_iff hv),
    fun ha hl => finish_map_error ((check_passes State.validMat_iff ha).trans (textTooLong_fails hl)),
    fun ha hl hne hb => finish_map_error
      ((enctResult_of_text ha hl).trans (hillText_state_not_square ha.1.1 hne.symm hb)),
    fun ha hl _ hb => finish_map_error ((enctResult_of_text ha hl).trans (hillText_state_first_invalid ha.1.1 hb)),
    fun hs hl hb => finish_map_error
      ((enctResult_of_text hs.1 hl).trans (hillText_state_invalid hs.1.1.1 hs.2.symm hb)),
    fun hs hl hb => ?_⟩
  obtain ⟨t, ht, hsucc, hframe, hout⟩ := exec_enct_ok rfl hs hl hb
  exact ⟨t, _, ht, hsucc, hframe, paddedLen_bounds _ hs.1.1.1, hout⟩

/-- Settles O54: the key is inverted before the text is looked at. -/
theorem dectFollowsItsRule : Obligations.DectFollowsItsRule := by
  rintro ra s a rfl
  refine ⟨formatF_source 0x33 ra, fun hv => finish_map_error (check_fails State.validMat_iff hv),
    fun ha hl => finish_map_error ((check_passes State.validMat_iff ha).trans (textTooLong_fails hl)),
    fun ha hl hne => finish_map_error (dectResult_of_not_square ha hl hne),
    fun hs hl hk => finish_map_error (dectResult_of_not_invertible hs hl hk), fun hs hl hk hb => ?_, fun hs hl hk hb => ?_⟩
  · obtain ⟨iv, hkey, -⟩ := keyInverse_of_invertible hk
    have hrows : 1 ≤ (inverseKey (s.mat (matSel ra)) iv).rows := hs.1.2.1
    exact finish_map_error ((dectResult_of_key hs hl hkey).trans (hillText_state_invalid hrows hs.2 hb))
  · obtain ⟨t, iv, ht, hsucc, hframe, h1, h25, hmul, hout⟩ := exec_dect_ok rfl hs hl hk hb
    exact ⟨t, _, iv, ht, hsucc, hframe, h1, h25, hmul, paddedLen_bounds _ hs.1.1.1, hout⟩

/-! ## The round trip (R156) -/

/-- A residue as a letter: the codec reads it back. -/
theorem letter_of_residue (x : Int) : CipherByte (BitVec.ofInt 8 (0x41 + x % 26)) ∧
    cipherCode (BitVec.ofInt 8 (0x41 + x % 26)) = x % 26 := by
  have key : ∀ n : Fin 26, CipherByte (BitVec.ofInt 8 (0x41 + (n.val : Int))) ∧
      cipherCode (BitVec.ofInt 8 (0x41 + (n.val : Int))) = n.val := by decide
  obtain ⟨n, hn⟩ := Int.eq_ofNat_of_zero_le (Int.emod_nonneg x (b := 26) (by omega))
  rw [hn]
  exact key ⟨n, by omega⟩

/-- What the round trip makes of a text byte: a letter upper-cased, 'A' for a space or the sentinel. -/
theorem letter_of_cipherCode {b : Byte} (h : CipherByte b) : BitVec.ofInt 8 (0x41 + cipherCode b % 26) =
    if 0x61 ≤ b ∧ b ≤ 0x7A then b - 0x20 else if 0x41 ≤ b ∧ b ≤ 0x5A then b else 0x41 := by
  revert b; decide

theorem paddedLen_of_dvd {P k : Nat} (hk : 1 ≤ k) (hd : k ∣ P) (hP : 1 ≤ P) : paddedLen P k = P :=
  (paddedLen_least hd le_rfl hP).antisymm (le_paddedLen P hk)

/-- The whole block that holds a position of the padded text lies in that text. -/
theorem block_lt {k P i q : Nat} (hd : k ∣ P) (hi : i < P) (hq : q < k) : i / k * k + q < P := by
  obtain ⟨m, rfl⟩ := hd
  have hm : i / k + 1 ≤ m := Nat.div_lt_of_lt_mul hi
  calc i / k * k + q < (i / k + 1) * k := by rw [Nat.succ_mul]; omega
    _ ≤ k * m := by rw [mul_comm k m]; exact Nat.mul_le_mul_right k hm

theorem cipherByte_hillByte (k n : Nat) (key : Nat → Nat → Int) (text : Nat → Byte) (i : Nat) :
    CipherByte (hillByte k key n text i) :=
  (letter_of_residue _).1

/-- The code of a ciphertext byte, from its block and its place in it. -/
theorem cipherCode_hillByte {k n b q : Nat} (key : Nat → Nat → Int) (text : Nat → Byte) (hq : q < k) :
    cipherCode (hillByte k key n text (b * k + q)) =
      (∑ j ∈ Finset.range k, key q j * codeAt n text (b * k + j)) % 26 := by
  have hk : 0 < k := Nat.zero_lt_of_lt hq
  have hmod : (b * k + q) % k = q := by rw [Nat.mul_add_mod_self_right, Nat.mod_eq_of_lt hq]
  have hdiv : (b * k + q) / k = b := by rw [Nat.add_comm, Nat.add_mul_div_right _ _ hk, Nat.div_eq_of_lt hq, Nat.zero_add]
  rw [hillByte, hmod, hdiv]
  exact (letter_of_residue _).2

/-- The key elements `hillByte` reads lie inside the shape. -/
theorem hillByte_congr_key {k n : Nat} {f g : Nat → Nat → Int} (hk : 1 ≤ k) (h : ∀ r < k, ∀ c < k, f r c = g r c)
    (text : Nat → Byte) (i : Nat) : hillByte k f n text i = hillByte k g n text i := by
  unfold hillByte
  rw [Finset.sum_congr rfl fun q hq => by rw [h _ (Nat.mod_lt i hk) q (Finset.mem_range.mp hq)]]

/-- Decrypting the ciphertext of a text gives the code of every character back, modulo 26. -/
theorem hillByte_roundtrip {A : Mat} {k n P iv : Nat} (hk : 1 ≤ k) (hr : A.rows = k) (hiv : det A * (iv : Int) % 26 = 1)
    (hd : k ∣ P) (text : Nat → Byte) {i : Nat} (hi : i < P) :
    hillByte k (inverseEntry A iv) P (hillByte k A.e n text) i = BitVec.ofInt 8 (0x41 + codeAt n text i % 26) := by
  have hcode : ∀ q ∈ Finset.range k, inverseEntry A iv (i % k) q * codeAt P (hillByte k A.e n text) (i / k * k + q) =
      inverseEntry A iv (i % k) q * ((∑ j ∈ Finset.range k, A.e q j * codeAt n text (i / k * k + j)) % 26) := fun q hq => by
    have hq := Finset.mem_range.mp hq
    rw [codeAt, if_pos (block_lt hd hi hq), cipherCode_hillByte A.e text hq]
  rw [hillByte, Finset.sum_congr rfl hcode,
    block_roundtrip hr hiv (fun j => codeAt n text (i / k * k + j)) (Nat.mod_lt i hk), Nat.div_add_mod']

/-- Settles O55: both commands succeed, and `hillByte_roundtrip` gives each byte. -/
theorem encryptThenDecryptGivesTheText : Obligations.EncryptThenDecryptGivesTheText := by
  intro ra s a ha hs hinv hl hb
  obtain ⟨t, ht, hsucc, -, hlen, hout⟩ := exec_enct_ok ha hs hl hb
  refine ⟨t, ht, hsucc.ecode, fun u hp hrows hcols hkey hul hufit hin => ?_⟩
  have ⟨⟨⟨hk, _⟩, _⟩, hsq⟩ := hs
  have hsame : SameMat (s.mat a) (u.mat a) := ⟨hrows, hcols, hkey⟩
  have hsu : SquareValid u a := by unfold SquareValid ShapeValid; rw [hp, hrows, hcols]; exact hs
  have hinvu : KeyInvertible (u.mat a) := by unfold KeyInvertible; rw [hsame.det hsq]; exact hinv
  -- The text of u is the ciphertext under u's own key, so that one key is spoken of from here on.
  have hin' : ∀ i < u.textLen.toNat, u.inByte i =
      hillByte (s.rows a) (u.mat a).e s.textLen.toNat s.inByte i := fun i hi => by
    rw [hul] at hi
    rw [hin i hi, hout i (hlen ▸ hi)]
    exact hillByte_congr_key hk (fun r hr c hc => (hkey r hr c (hsq ▸ hc)).symm) s.inByte i
  have hbu : ∀ i < u.textLen.toNat, CipherByte (u.inByte i) := fun i hi => by
    rw [hin' i hi]; exact cipherByte_hillByte _ _ _ _ _
  obtain ⟨v, iv, hv, hvsucc, -, -, -, hmul, hvlen, hvout⟩ := exec_dect_ok ha hsu hufit hinvu hbu
  have hd := paddedLen_dvd s.textLen.toNat (s.rows a)
  rw [hrows, hul, hlen, paddedLen_of_dvd hk hd (paddedLen_pos _ hk)] at hvlen hvout
  refine ⟨v, hv, hvsucc.ecode, BitVec.eq_of_toNat_eq (hvlen.trans hlen.symm), fun i hi => ?_⟩
  rw [hlen] at hi
  rw [hvout i hi, hillByte_congr (fun j hj => hin' j (by rwa [hul, hlen])),
    hillByte_roundtrip hk hrows hmul hd s.inByte hi, codeAt]
  split
  · next hn => exact letter_of_cipherCode (hb i hn)
  · rfl

end Sys2Proof.Machine
end

section
/-! SUPPORT. All or nothing: what a failed command changes (spec/60_exceptions.md R172, R175). -/

namespace Sys2Proof.Machine

/-- Settles O57, from the two ends of `exec_cases`: a failure leaves its own code in ECODE, and a commit leaves none (R176). -/
theorem failedCommandChangesOnlyStatus : Obligations.FailedCommandChangesOnlyStatus := by
  intro i s t e h hcode
  rcases exec_cases i s with ⟨e', he⟩ | ⟨u, hu, -⟩
  · cases h.symm.trans he
    have hsame : e' = e := Option.some.inj hcode
    rw [hsame]
  · cases h.symm.trans hu
    rw [State.complete_ecode] at hcode
    nomatch hcode

end Sys2Proof.Machine
end

section
/-! SUPPORT. The two resets, in any phase, and the countdown of a command in flight (spec/70_reset_and_hazards.md R200-R202, R215;
spec/10_state.md R38, R41). -/

namespace Sys2Proof.Machine

/-! ## The registers after a reset (R41) -/

/-- Every control, status, scalar, shape and length register at its reset value: where the columns of R41 agree. -/
structure RegistersAtReset (t : State) : Prop where
  idle : t.phase = .idle
  cur : t.cur = 0
  cmd : t.cmd = 0
  done : t.done = false
  ecode : t.ecode = none
  status : t.statusWord = 0
  ie : t.ie = false
  res : t.res = 0
  aux : t.aux = 0
  sarg : t.sarg = 0
  textLen : t.textLen = 0
  outLen : t.outLen = 0
  mdim : ∀ i : Fin 4, t.mdim[i] = 0
  vlen : ∀ j : Fin 2, t.vlen[j] = 0
  irq : t.irq = false

theorem statusWord_eq_zero {t : State} (hphase : t.phase = .idle) (hdone : t.done = false) (herr : t.err = false)
    (hbv : t.bv = false) (hcode : t.ecode = none) : t.statusWord = 0 := by
  rw [State.statusWord, hphase, hdone, herr, hbv, hcode]
  decide

/-- The registers are those of a soft reset whatever becomes of the storage and the bus interface: so they are after power-on too,
and after the ack of the CTRL write. -/
theorem registersAtReset_softReset (s : State) (m : Memory) (e : Nat) (h : Option Held) (b : Option Response) :
    RegistersAtReset { s.softReset with mem := m, epoch := e, held := h, bus := b } where
  idle := rfl
  cur := rfl
  cmd := rfl
  done := rfl
  ecode := rfl
  status := statusWord_eq_zero rfl rfl rfl rfl rfl
  ie := rfl
  res := rfl
  aux := rfl
  sarg := rfl
  textLen := rfl
  outLen := rfl
  mdim := (by decide : ∀ i : Fin 4, #v[(0 : BitVec 8), 0, 0, 0][i] = 0)
  vlen := (by decide : ∀ j : Fin 2, #v[(0 : BitVec 4), 0][j] = 0)
  irq := rfl

theorem State.softReset_registers (s : State) : RegistersAtReset s.softReset :=
  registersAtReset_softReset s s.mem s.epoch s.held s.bus

theorem State.powerOn_registers (s : State) : RegistersAtReset s.powerOn :=
  registersAtReset_softReset s [] (s.epoch + 1) none none

/-! ## Soft reset (R201, R202) -/

theorem transactState_softReset {r : Request} (h : r.isSoftReset) (extra : Nat) (s : State) :
    transactState r extra s = s.softReset := by
  obtain ⟨we, addr, v⟩ := r
  obtain ⟨rfl, rfl, hv⟩ := h
  rw [transactState_ctrl, writeCtrl_eq_softReset hv]

theorem transactResponse_softReset {r : Request} (h : r.isSoftReset) (s : State) :
    transactResponse r s = { rdata := none, berr := false } := by
  obtain ⟨hwe, haddr, -⟩ := h
  rw [transactResponse, hwe, haddr, if_pos rfl]
  exact busWriteResponse_mapped (by decide) (by decide)

/-- Settles O16: the write is the soft reset, which leaves the storage alone. -/
theorem softResetKeepsStorage : Obligations.SoftResetKeepsStorage := by
  intro s t v extra hv ht
  have hsoft : Request.isSoftReset ⟨true, 0x018, v⟩ := ⟨rfl, rfl, hv⟩
  obtain rfl : t = s.softReset := ht.trans (transactState_softReset hsoft extra s)
  have h := s.softReset_registers
  exact ⟨h.idle, h.cur, h.cmd, h.status, h.ie, h.res, h.aux, h.sarg, h.textLen, h.outLen, h.mdim, h.vlen, h.irq, rfl,
    fun a _ => State.byte_eq_of_mem rfl rfl a, congrArg Response.berr (transactResponse_softReset hsoft s)⟩

/-- A cycle that acknowledges a soft reset ends with it: the engine is IDLE after the bus side, so no completion and no cycle of
latency follows. -/
theorem step_ack_softReset {s : State} {h : Held} (hr : s.nextCycle.rstN = true) (hh : s.held = some h) (hn : h.remaining ≤ 1)
    (hq : s.nextCycle.req = some h.request) (hsoft : h.request.isSoftReset) :
    step s = .next { s.begin.softReset with held := none, bus := some { rdata := none, berr := false } } := by
  rw [step_of_busCycle hr (busCycle_ack (s := s.begin) hh hn hq), State.acknowledge, transactState_softReset hsoft,
    transactResponse_softReset hsoft]
  exact engineCycle_idle (.inr rfl)

/-- Settles O17, from the state that `step_ack_softReset` gives in every phase. -/
theorem softResetDiscardsTheCommand : Obligations.SoftResetDiscardsTheCommand := by
  intro s c rest h remaining _ hpend hr hh hn hq hwe haddr hv
  have hc := State.nextCycle_cons hpend
  have hregs := registersAtReset_softReset s.begin s.mem s.epoch none (some { rdata := none, berr := false })
  exact ⟨_, step_ack_softReset (hc ▸ hr) hh hn (hc ▸ hq) ⟨hwe, haddr, hv⟩, hregs.idle, hregs.done, hregs.ecode, hregs.res,
    hregs.aux, hregs.outLen, hregs.mdim, hregs.vlen, fun a _ => State.byte_eq_of_mem rfl rfl a⟩

/-! ## Power-on reset (R200) -/

theorem step_powerOn {s : State} (hr : s.nextCycle.rstN = false) (hq : s.nextCycle.req = none) :
    step s = .next s.begin.powerOn := by
  simp [step, clockCycle, hr, hq]

/-- Settles O18, from the state that `step_powerOn` gives. -/
theorem powerOnResetDiscardsEverything : Obligations.PowerOnResetDiscardsEverything := by
  intro s c rest hpend hr hq
  have hc := State.nextCycle_cons hpend
  have h := s.begin.powerOn_registers
  exact ⟨_, step_powerOn (hc ▸ hr) (hc ▸ hq), h.idle, h.cur, h.cmd, h.status, h.ie, h.res, h.aux, h.sarg, h.textLen, h.outLen,
    h.mdim, h.vlen, h.irq, rfl, fun _ => rfl, rfl⟩

/-! ## The latency of a command (R38, R215) -/

/-- The next cycle of a quiet state has no input, from the list or where it has run out. -/
theorem State.quiet.nextCycle {s : State} {n : Nat} (hq : s.quiet (n + 1)) :
    s.nextCycle.rstN = true ∧ s.nextCycle.req = none := by
  obtain ⟨hheld, hin⟩ := hq
  cases hp : s.pending with
  | nil => simp [State.nextCycle_nil hp, hheld]
  | cons c rest =>
    rw [State.nextCycle_cons hp]
    exact hin c (by simp [hp])

theorem State.quiet.tail {s t : State} {n : Nat} (hq : s.quiet (n + 1)) (hh : t.held = none)
    (hp : t.pending = s.pending.tail) : t.quiet n := by
  obtain ⟨-, hin⟩ := hq
  refine ⟨hh, fun c hc => hin c (List.mem_of_mem_tail ?_)⟩
  rwa [List.tail_take_eq_take_tail, Nat.add_sub_cancel, ← hp]

/-- In a quiet cycle the engine side is all there is. -/
theorem step_quiet {s : State} {n : Nat} (hq : s.quiet (n + 1)) : step s = engineCycle s.phase s.begin := by
  obtain ⟨hr, hreq⟩ := hq.nextCycle
  exact step_of_busCycle hr (busCycle_quiet (s := s.begin) hq.1 hreq)

/-- A quiet cycle of latency. -/
theorem step_quiet_wait {s : State} {m n : Nat} (hp : s.phase = .busy (m + 2)) (hq : s.quiet (n + 1)) :
    step s = .next (s.begin.wait (m + 1)) := by
  rw [step_quiet hq, hp, engineCycle_wait (by simp [hp])]

/-- The last cycle of a command's latency is its completion. -/
theorem step_quiet_complete {s : State} {n : Nat} (hp : s.phase = .busy 1) (hq : s.quiet (n + 1)) :
    ∃ t, step s = .next t ∧ t.phase = .idle ∧ t.done = true := by
  obtain ⟨t, ht, hc⟩ := completeCurrent_completed s.begin
  rw [step_quiet hq, hp, engineCycle_complete (Nat.le_refl 1) (by simp [hp])]
  exact ⟨t, ht, hc.idle, hc.done⟩

/-- Settles O24, by induction on the cycles left: the first is the completion or one of latency, after which one fewer is left. -/
theorem acceptedCommandCompletesAfterItsLatency : Obligations.AcceptedCommandCompletesAfterItsLatency := by
  intro s n
  induction n generalizing s with
  | zero =>
    intro hp hq
    obtain ⟨t, ht, hend⟩ := step_quiet_complete hp hq
    refine ⟨fun k hk => ?_, t, run_succ ht 0, hend⟩
    obtain rfl : k = 0 := Nat.le_zero.mp hk
    exact ⟨s, rfl, hp, rfl⟩
  | succ n ih =>
    intro hp hq
    have hstep := step_quiet_wait hp hq
    obtain ⟨hbusy, t, ht, hend⟩ := ih (s.begin.wait (n + 1)) rfl (hq.tail hq.1 rfl)
    refine ⟨fun k hk => ?_, t, (run_succ hstep _).trans ht, hend⟩
    cases k with
    | zero => exact ⟨s, rfl, hp, rfl⟩
    | succ k =>
      obtain ⟨u, hu, hphase, hdone⟩ := hbusy k (by omega)
      exact ⟨u, (run_succ hstep k).trans hu, by rw [hphase, Nat.add_sub_add_right], hdone⟩

end Sys2Proof.Machine
end
